-- ==== Sys2Proof/Word.lean ====
section
/-! DEFINITION. The word types of the HCC block: the bus word, the symbol byte, the node index
(spec/00_scope.md R4: BUS_W, SYM_W, IDX_W). -/

namespace Sys2Proof

/-- A bus word, BUS_W = 32 bits (R4). -/
abbrev Word := BitVec 32

/-- A symbol, SYM_W = 8 bits (R2, R4). -/
abbrev Byte := BitVec 8

/-- A node index, IDX_W = 9 bits (R4). -/
abbrev Idx := BitVec 9

end Sys2Proof
end

