-- ==== Sys2Proof/Config.lean ====
section
/-! DEFINITION. The constants of HCC v1 (spec/00_scope.md R4) and the free values: what the spec
leaves unspecified (spec/93_implementation_defined.md U13 to U16, U18) is a constant with no body,
so nothing can be proved of its value. -/

namespace Sys2Proof.Config

/-- ID_VALUE, the value of the register ID (R1, R4, R31). -/
def idValue : Word := 0x48434301#32

/-- NIL, the node index that means "absent" (R4). -/
def nil : Idx := 0x1FF#9

/-- NSYM_MAX: distinct symbols, entries of FREQ and CODE (R4). -/
def nsymMax : Nat := 256

/-- NODE_MAX: records of the node arena (R4, R30). -/
def nodeMax : Nat := 511

/-- The default of the OPEN parameters IBUF_CAP and OBUF_CAP (R4): the capacity `State.reset` has. -/
def defaultCap : Word := 65536#32

/-- The largest value R4 allows for IBUF_CAP and OBUF_CAP. -/
def capMax : Nat := 2 ^ 20

/-- The size of the host window in bytes (R40). -/
def windowSize : Nat := 0x400000

/-- FREE VALUE [log 3]. The word that the n-th draw gives: unspecified HEAP entries and OBUF bytes
(U13, U14), refused reads (U16), reads while BUSY = 1 (U18). -/
opaque freeWord : Nat → Word

/-- FREE VALUE [log 4]. The byte that IBUF[k] holds from hardware reset number `epoch` until it is
written (U15: drawn once, stable afterwards). -/
opaque freeIbufByte : (epoch : Nat) → (k : Nat) → Byte

end Sys2Proof.Config
end

