-- ==== Sys2Proof/Machine/State.lean ====
section
/-! DEFINITION. The state of one HCC instance (spec/10_state.md R10), its reset value (R29), the
reasons a step can stop, and the plain data types the machine uses. -/

namespace Sys2Proof.Machine

/-- A sparse memory: index and value, indexes strictly rising, no entry equal to what an unlisted
index reads as (`Table.wf`). -/
abbrev Table (α : Type) := List (Nat × α)

/-- A byte memory. An unlisted index holds no known byte. -/
abbrev Memory := List Host.Cell

/-- KIND of a node record (R21). -/
inductive Kind
  | free
  | leaf
  | internal
  | reserved
deriving DecidableEq, Repr

/-- One record of the node arena (R21). -/
structure NodeRec where
  kind   : Kind
  sym    : Byte
  freq   : BitVec 40
  left   : Idx
  right  : Idx
  parent : Idx
deriving DecidableEq, Repr

/-- One entry of the code table (R24): code bit j is `cbits[255 - j]`. -/
structure CodeEntry where
  clen  : BitVec 8
  cbits : BitVec 256
deriving DecidableEq, Repr

/-- The five fault causes of the block (R186). No other value is ever recorded (U26). -/
inductive Cause
  | illegalCommand
  | unknownSymbol
  | corruptTree
  | corruptStream
  | bufferOverflow
deriving DecidableEq, Repr

/-- The arguments of `raise F(info, pos)` (R192). -/
structure Trap where
  cause : Cause
  info  : Word
  pos   : Word
deriving DecidableEq, Repr

/-- What a fault discards, by command (R192): nothing (CNT, OTI, an illegal word), the output (DEC,
DECX), the output and NBITS (ENC). -/
inductive Discard
  | nothing
  | output
  | outputAndBits
deriving DecidableEq, Repr

/-- What the host, or the world outside, does to the block (R5, R42, R43, R215). -/
inductive HostAction
  /-- A host read of `width` bytes at byte offset `addr` of the window (R42, R44). -/
  | read (addr width : Nat)
  /-- A host write of `width` bytes at byte offset `addr` of the window (R43, R44). -/
  | write (addr width : Nat) (v : Word)
  /-- A hardware reset (R215). -/
  | hardReset
deriving DecidableEq, Repr

/-- A location of the address map (R41), its element already selected. -/
inductive Loc
  | cmd | status | errcode | errinfo | errpos
  | inLen | outLen | nbits | root | nnodes | nsym | heapSize
  | id | icap | ocap
  | freq (b : Nat)
  | heap (p : Nat)
  | node (i w : Nat)
  | code (s w : Nat)
  | ibuf (w : Nat)
  | obuf (w : Nat)
  | reserved
deriving DecidableEq, Repr

/-- The state: everything R10 names, and the model's own fields at the end. -/
structure State where
  /-- STATUS[0] (R14). -/
  busy     : Bool
  /-- STATUS[1] (R14). -/
  done     : Bool
  /-- STATUS[2] (R14). -/
  err      : Bool
  /-- STATUS[3] (R14). -/
  empty    : Bool
  /-- STATUS[4] (R14). -/
  single   : Bool
  /-- ERRCODE.CAUSE (R12, R15). -/
  errcode  : BitVec 4
  /-- ERRINFO (R12, R15). -/
  errinfo  : Word
  /-- ERRPOS (R12, R15). -/
  errpos   : Word
  /-- ICAP = IBUF_CAP, constant of the instance (R12, R31; log 7). -/
  icap     : Word
  /-- OCAP = OBUF_CAP, constant of the instance (R12, R31; log 7). -/
  ocap     : Word
  /-- IN_LEN (R16). -/
  inLen    : Word
  /-- OUT_LEN (R16). -/
  outLen   : Word
  /-- NBITS (R16). -/
  nbits    : Word
  /-- ROOT (R17). -/
  root     : Idx
  /-- NNODES (R17). -/
  nnodes   : BitVec 10
  /-- NSYM (R17). -/
  nsym     : BitVec 9
  /-- HEAP_SIZE (R17). -/
  heapSize : BitVec 9
  /-- ACC, the encoder's bit buffer (R18). -/
  acc      : BitVec 8
  /-- BITCNT, the number of bits in ACC (R18). -/
  bitcnt   : BitVec 4
  /-- CUR, the decoder's tree cursor (R13, R18). -/
  cur      : Idx
  /-- FREQ (R20); an unlisted entry is 0, the absent byte. -/
  freq     : Table Word
  /-- NODE (R21); an unlisted record is the cleared record. -/
  node     : Table NodeRec
  /-- CODE (R24); an unlisted entry is the cleared entry. -/
  code     : Table CodeEntry
  /-- HEAP (R25): the valid entries HEAP[0 .. HEAP_SIZE-1], slot p at position p (log 9). -/
  heap     : List Idx
  /-- IBUF (R26); an unlisted byte is unspecified (log 4). -/
  ibuf     : Memory
  /-- OBUF (R27); an unlisted byte is unspecified (log 8). -/
  obuf     : Memory
  /-- The model's own: the host actions still to come, oldest first (R53; log 1). -/
  script   : List HostAction
  /-- The model's own: the word the last host read gave (R42; log 13). -/
  readData : Word
  /-- The model's own: how many free words have been drawn (log 3). -/
  draws    : Nat
  /-- The model's own: how many hardware resets IBUF has been through (log 4). -/
  epoch    : Nat
deriving DecidableEq, Repr

/-- Reasons the machine stops with a fault. There is none: every fault of the block (R186) is the
state R192 describes, a next state with ERR = 1, and every host access has an effect the spec gives
(R42 to R44, R57). The type has no constructor, so no step can fault. -/
inductive Fault
deriving DecidableEq, Repr

/-- Reasons the machine gives no meaning. -/
inductive Refusal
  /-- Raised by `exec`'s arm of an instruction that has no meaning yet; safe. No arm does so. -/
  | notModelled (mnemonic : String)
deriving DecidableEq, Repr

/-- The state after a hardware reset (R29, R216), with the default capacities of R4 (log 7). The
memories HEAP, IBUF, OBUF are unspecified: they list nothing. -/
def State.reset : State where
  busy := false
  done := false
  err := false
  empty := false
  single := false
  errcode := 0#4
  errinfo := 0#32
  errpos := 0#32
  icap := Config.defaultCap
  ocap := Config.defaultCap
  inLen := 0#32
  outLen := 0#32
  nbits := 0#32
  root := Config.nil
  nnodes := 0#10
  nsym := 0#9
  heapSize := 0#9
  acc := 0#8
  bitcnt := 0#4
  cur := Config.nil
  freq := []
  node := []
  code := []
  heap := []
  ibuf := []
  obuf := []
  script := []
  readData := 0#32
  draws := 0
  epoch := 0

end Sys2Proof.Machine
end

