-- ==== Sys2Proof/Machine/Table.lean ====
section
/-! DEFINITION. Sparse memories in one canonical form: what the named operations over FREQ, NODE,
CODE, IBUF and OBUF are built on (spec/10_state.md R20, R21, R24, R26, R27; log 11). -/

namespace Sys2Proof.Machine

/-- The value listed at index k, if any. -/
def Table.find {α : Type} : Table α → Nat → Option α
  | [], _ => none
  | (j, v) :: t, k => if k = j then some v else Table.find t k

/-- List v at index k, keeping the indexes rising. -/
def Table.insert {α : Type} : Table α → Nat → α → Table α
  | [], k, v => [(k, v)]
  | (j, u) :: t, k, v =>
    if k < j then (k, v) :: (j, u) :: t
    else if k = j then (k, v) :: t
    else (j, u) :: Table.insert t k v

/-- List nothing at index k. -/
def Table.erase {α : Type} : Table α → Nat → Table α
  | [], _ => []
  | (j, u) :: t, k => if k = j then Table.erase t k else (j, u) :: Table.erase t k

/-- Read index k of a memory whose unlisted indexes read as d. -/
def Table.get {α : Type} (d : α) (t : Table α) (k : Nat) : α := (Table.find t k).getD d

/-- Write v at index k of a memory whose unlisted indexes read as d: writing d unlists the index. -/
def Table.put {α : Type} [DecidableEq α] (d : α) (t : Table α) (k : Nat) (v : α) : Table α :=
  if v = d then Table.erase t k else Table.insert t k v

/-- The indexes rise strictly. -/
def Table.rising {α : Type} (t : Table α) : Bool := decide ((t.map Prod.fst).Pairwise (· < ·))

/-- Every index is below n. -/
def Table.below {α : Type} (n : Nat) (t : Table α) : Bool := t.all (fun e => decide (e.1 < n))

/-- The canonical form of a table of n entries whose unlisted indexes read as d. -/
def Table.wf {α : Type} [DecidableEq α] (n : Nat) (d : α) (t : Table α) : Bool :=
  Table.rising t && Table.below n t && t.all (fun e => decide (e.2 ≠ d))

/-- The canonical form of a byte memory: the indexes rise strictly. An unlisted byte holds no known
value, so no listed byte can equal what an unlisted one reads as. -/
def Memory.wf (m : Memory) : Bool := Table.rising m

end Sys2Proof.Machine
end

