-- ==== Sys2Proof/Machine/Flags.lean ====
section
/-! DEFINITION. The STATUS bits (spec/10_state.md R12, R14): their place in the word, and how a
command's acceptance and its successful completion change them (spec/60_exceptions.md R193, R194). -/

namespace Sys2Proof.Machine

/-- The STATUS word: [0] BUSY, [1] DONE, [2] ERR, [3] EMPTY, [4] SINGLE, [31:5] zero (R12). -/
def statusWord (s : State) : Word :=
  0#27 ++ BitVec.ofBool s.single ++ BitVec.ofBool s.empty ++ BitVec.ofBool s.err ++
    BitVec.ofBool s.done ++ BitVec.ofBool s.busy

/-- Acceptance of a command: DONE <- 0 (R193), and BUSY is 1 while the command runs (R14; log 5). -/
def start (s : State) : State := { s with done := false, busy := true }

/-- Successful completion: DONE <- 1 (R194), and BUSY falls (R14). -/
def complete (s : State) : State := { s with done := true, busy := false }

/-- EMPTY <- 1 exactly when BLD found no entry (R14, R90). -/
def emptyFlag (n : Nat) : Bool := n == 0

/-- SINGLE <- 1 exactly when BLD found one entry (R14, R90). -/
def singleFlag (n : Nat) : Bool := n == 1

end Sys2Proof.Machine
end

