-- ==== Sys2Proof/Machine/Operands.lean ====
section
/-! DEFINITION. The implicit operands of the commands (spec/30_encoding.md R62): elements of the six
memories, input bytes and bits, code bits, and the conversions of record fields. -/

namespace Sys2Proof.Machine

/-- The cleared node record (R21). -/
def clearedNode : NodeRec := ⟨.free, 0#8, 0#40, Config.nil, Config.nil, Config.nil⟩

/-- The cleared code entry (R24). -/
def clearedCode : CodeEntry := ⟨0#8, 0#256⟩

/-- FREQ[b] (R20). -/
def freqAt (s : State) (b : Nat) : Word := Table.get 0#32 s.freq b

/-- NODE[i] (R21). Index 511 = NIL names no record; the walk tests for NIL before it reads. -/
def nodeAt (s : State) (i : Idx) : NodeRec := Table.get clearedNode s.node i.toNat

/-- CODE[b] (R24). -/
def codeAt (s : State) (b : Byte) : CodeEntry := Table.get clearedCode s.code b.toNat

/-- HEAP[p], where valid (R25). -/
def heapAt (h : List Idx) (p : Nat) : Idx := h.getD p Config.nil

/-- Byte lane k & 3 of a word: bits [8·(k & 3) + 7 : 8·(k & 3)] (R45). -/
def byteLane (w : Word) (k : Nat) : Byte := w.extractLsb' (8 * (k % 4)) 8

/-- A byte of the next free word (log 3). -/
def freeByte (s : State) (k : Nat) : Byte := byteLane (Config.freeWord s.draws) k

/-- IBUF[k]: the byte written there, else the byte drawn at the last hardware reset (R26; U15; log 4). -/
def ibufByte (s : State) (k : Nat) : Byte :=
  (Table.find s.ibuf k).getD (Config.freeIbufByte s.epoch k)

/-- OBUF[k]: the byte of the output sequence, else a free value (R27; U14; log 8). -/
def obufByte (s : State) (k : Nat) : Byte := (Table.find s.obuf k).getD (freeByte s k)

/-- The input sequence IBUF[0 .. IN_LEN-1] (R9). -/
def inputBytes (s : State) : List Byte := (List.range s.inLen.toNat).map (ibufByte s)

/-- The output sequence OBUF[0 .. OUT_LEN-1] (R9). -/
def outputBytes (s : State) : List Byte := (List.range s.outLen.toNat).map (obufByte s)

/-- Bit k of the input: `(IBUF[k >> 3] >> (7 - (k & 7))) & 1` (R47, R138). -/
def inputBit (s : State) (k : Nat) : Bool := (ibufByte s (k / 8)).getLsbD (7 - k % 8)

/-- The first nb bits of the input, in order (R138). -/
def inputBits (s : State) (nb : Nat) : List Bool := (List.range nb).map (inputBit s)

/-- Code bit j of an entry: CBITS[255 - j] (R24). -/
def codeBit (e : CodeEntry) (j : Nat) : Bool := e.cbits.getLsbD (255 - j)

/-- The CLEN code bits of an entry, first bit first (R24, R128). -/
def codeBits (e : CodeEntry) : List Bool := (List.range e.clen.toNat).map (codeBit e)

/-- A path followed by zero bits: path bit j at CBITS[255 - j] (R103). -/
def leftJustify : List Bool → BitVec 256
  | [] => 0#256
  | b :: p => ((BitVec.ofBool b).setWidth 256 <<< 255) ||| (leftJustify p >>> 1)

/-- The code entry of a path of L edges: CLEN = L, CBITS = the path left-justified (R67, R103). -/
def codeOfPath (p : List Bool) : CodeEntry := ⟨BitVec.ofNat 8 p.length, leftJustify p⟩

/-- KIND as its two bits (R21). -/
def kindBits : Kind → BitVec 2
  | .free => 0#2
  | .leaf => 1#2
  | .internal => 2#2
  | .reserved => 3#2

/-- The KIND that two bits name (R21). -/
def kindOfBits (b : BitVec 2) : Kind :=
  if b = 0#2 then .free else if b = 1#2 then .leaf else if b = 2#2 then .internal else .reserved

/-- The bus word w of a node record (R48). -/
def nodeWord (r : NodeRec) (w : Nat) : Word :=
  if w = 0 then 0#16 ++ r.sym ++ 0#6 ++ kindBits r.kind
  else if w = 1 then r.freq.extractLsb' 0 32
  else if w = 2 then 0#24 ++ r.freq.extractLsb' 32 8
  else 0#5 ++ r.parent ++ r.right ++ r.left

/-- A node record after a host write of v to its bus word w: the fields of that word are stored, the
other bits dropped (R43, R48). -/
def nodeSetWord (r : NodeRec) (w : Nat) (v : Word) : NodeRec :=
  if w = 0 then { r with kind := kindOfBits (v.extractLsb' 0 2), sym := v.extractLsb' 8 8 }
  else if w = 1 then { r with freq := r.freq.extractLsb' 32 8 ++ v }
  else if w = 2 then { r with freq := v.extractLsb' 0 8 ++ r.freq.extractLsb' 0 32 }
  else { r with left := v.extractLsb' 0 9, right := v.extractLsb' 9 9, parent := v.extractLsb' 18 9 }

/-- The bus word w of a code entry, w from 0 to 8 (R49): word 0 is CLEN, word 1 + m is
CBITS[255 - 32·m : 224 - 32·m]. -/
def codeWord (e : CodeEntry) (w : Nat) : Word :=
  if w = 0 then 0#24 ++ e.clen else e.cbits.extractLsb' (224 - 32 * (w - 1)) 32

/-- A code entry after a host write of v to its bus word w (R43, R49). -/
def codeSetWord (e : CodeEntry) (w : Nat) (v : Word) : CodeEntry :=
  if w = 0 then { e with clen := v.extractLsb' 0 8 }
  else
    let at_ := 224 - 32 * (w - 1)
    { e with cbits := (e.cbits &&& ~~~(0xFFFFFFFF#256 <<< at_)) ||| (v.setWidth 256 <<< at_) }

end Sys2Proof.Machine
end

