-- ==== Sys2Proof/Machine/Ops.lean ====
section
/-! DEFINITION. The operations the commands share: writes to the memories, `emit`
(spec/20_memory.md R46), `raise` (spec/60_exceptions.md R192), the acceptance and completion of a
command (R193, R194), and the reset (spec/10_state.md R29). -/

namespace Sys2Proof.Machine

/-- FREQ[b] <- v (R20). -/
def setFreq (s : State) (b : Nat) (v : Word) : State := { s with freq := Table.put 0#32 s.freq b v }

/-- NODE[i] <- r (R21). -/
def setNode (s : State) (i : Nat) (r : NodeRec) : State :=
  { s with node := Table.put clearedNode s.node i r }

/-- CODE[b] <- e (R24). -/
def setCode (s : State) (b : Nat) (e : CodeEntry) : State :=
  { s with code := Table.put clearedCode s.code b e }

/-- IBUF[k] <- v (R26). -/
def setIbuf (s : State) (k : Nat) (v : Byte) : State := { s with ibuf := Table.insert s.ibuf k v }

/-- IBUF[k], IBUF[k+1], ... <- the bytes of a list (R26). -/
def setIbufBytes (s : State) (k : Nat) : List Byte → State
  | [] => s
  | v :: vs => setIbufBytes (setIbuf s k v) (k + 1) vs

/-- OUT_LEN <- 0, at the start of ENC, DEC and DECX. With OUT_LEN = 0 every byte of OBUF is
unspecified (R27; log 8). -/
def clearOutput (s : State) : State := { s with outLen := 0#32, obuf := [] }

/-- ERRCODE of a cause (R186). -/
def causeCode : Cause → BitVec 4
  | .illegalCommand => 1#4
  | .unknownSymbol => 2#4
  | .corruptTree => 3#4
  | .corruptStream => 4#4
  | .bufferOverflow => 5#4

/-- `emit(v)`: append a byte to the output sequence, or the fault BufferOverflow with the
sub-cause and position the calling rule gives (R46). -/
def emit (sub pos : Word) (v : Byte) (s : State) : Except Trap State :=
  if s.outLen = s.ocap then .error ⟨.bufferOverflow, sub, pos⟩
  else .ok { s with obuf := Table.insert s.obuf s.outLen.toNat v, outLen := s.outLen + 1#32 }

/-- `raise F(info, pos)`, taken from the state at the command's start (R192): the fault is recorded,
ERR <- 1, DONE <- 0, the command's output is discarded, the hidden registers return to rest, the
command ends; every other register and memory has the value it had when the command started. -/
def raise (d : Discard) (t : Trap) (s : State) : State :=
  { s with
    errcode := causeCode t.cause
    errinfo := t.info
    errpos := t.pos
    err := true
    done := false
    busy := false
    outLen := if d = .nothing then s.outLen else 0#32
    obuf := if d = .nothing then s.obuf else []
    nbits := if d = .outputAndBits then 0#32 else s.nbits
    acc := 0#8
    bitcnt := 0#4
    cur := Config.nil }

/-- Run an accepted command's body to its end: successful completion (R194) or the fault entry
(R192). -/
def finish (d : Discard) (body : State → Except Trap State) (s : State) :
    Host.Outcome State Fault Refusal :=
  match body (start s) with
  | .ok t => .next (complete t)
  | .error t => .next (raise d t s)

/-- A command other than RST and CLRE: refused without any effect while ERR = 1, else run (R193). -/
def runCommand (d : Discard) (body : State → Except Trap State) (s : State) :
    Host.Outcome State Fault Refusal :=
  if s.err then .next s else finish d body s

/-- The write to CMD of a word that is no command: refused while ERR = 1, else the fault
IllegalCommand (R63, R187, R193). -/
def illegalCommand (w : Word) (s : State) : State :=
  if s.err then s else raise .nothing ⟨.illegalCommand, w, 0#32⟩ s

/-- ERR, ERRCODE, ERRINFO, ERRPOS <- 0: the fault is acknowledged (R172, R197). -/
def clearFault (s : State) : State :=
  { s with err := false, errcode := 0#4, errinfo := 0#32, errpos := 0#32 }

/-- The reset table (R29) as RST applies it: IBUF's bytes and the constants ICAP and OCAP stay, HEAP
and OBUF become unspecified. The model's own fields are not the block's and stay. -/
def softReset (s : State) : State :=
  { State.reset with
    icap := s.icap
    ocap := s.ocap
    ibuf := s.ibuf
    script := s.script
    readData := s.readData
    draws := s.draws
    epoch := s.epoch }

/-- A hardware reset: as RST, but IBUF becomes unspecified (R215; log 6). -/
def hardReset (s : State) : State := { softReset s with ibuf := [], epoch := s.epoch + 1 }

/-- The test of CNT, ENC, DEC and DECX before anything else: IN_LEN > IBUF_CAP raises
BufferOverflow(3, IN_LEN) (R190). -/
def checkInLen (s : State) : Except Trap State :=
  if s.icap < s.inLen then .error ⟨.bufferOverflow, 3#32, s.inLen⟩ else .ok s

end Sys2Proof.Machine
end

