-- ==== Sys2Proof/Machine/AddressMap.lean ====
section
/-! DEFINITION. The host's view of the block: the address map (spec/20_memory.md R41), what a read of
a location gives (R42) and what a write to it stores (R43). -/

namespace Sys2Proof.Machine

/-- The accesses the block performs: aligned, 4 bytes wide, inside the window (R42, R44). -/
def admitted (addr width : Nat) : Bool :=
  width == 4 && addr % 4 == 0 && decide (addr < Config.windowSize)

/-- The registers of offsets 0x00 to 0x3B (R41). -/
def locateRegister (addr : Nat) : Loc :=
  match addr / 4 with
  | 0 => .cmd
  | 1 => .status
  | 2 => .errcode
  | 3 => .errinfo
  | 4 => .errpos
  | 5 => .inLen
  | 6 => .outLen
  | 7 => .nbits
  | 8 => .root
  | 9 => .nnodes
  | 10 => .nsym
  | 11 => .heapSize
  | 12 => .id
  | 13 => .icap
  | 14 => .ocap
  | _ => .reserved

/-- The word of a CODE entry at byte offset `off` of the CODE range: slots 9 to 15 are reserved
(R49, R51). -/
def locateCode (off : Nat) : Loc :=
  if off % 64 / 4 < 9 then .code (off / 64) (off % 64 / 4) else .reserved

/-- The address map (R41), for an instance with these capacities. -/
def locate (icap ocap addr : Nat) : Loc :=
  if addr < 0x40 then locateRegister addr
  else if addr < 0x400 then .reserved
  else if addr < 0x800 then .freq ((addr - 0x400) / 4)
  else if addr < 0xC00 then .heap ((addr - 0x800) / 4)
  else if addr < 0x2000 then .reserved
  else if addr < 0x3FF0 then .node ((addr - 0x2000) / 16) ((addr - 0x2000) % 16 / 4)
  else if addr < 0x4000 then .reserved
  else if addr < 0x8000 then locateCode (addr - 0x4000)
  else if addr < 0x100000 then .reserved
  else if addr < 0x200000 then
    if addr < 0x100000 + icap then .ibuf ((addr - 0x100000) / 4) else .reserved
  else if addr < 0x200000 + ocap then .obuf ((addr - 0x200000) / 4)
  else .reserved

/-- The location of an offset in the instance at hand (R41). -/
def locateIn (s : State) (addr : Nat) : Loc := locate s.icap.toNat s.ocap.toNat addr

/-- A word from its four bytes, byte 0 in the least significant lane (R45). -/
def wordOfBytes (b0 b1 b2 b3 : Byte) : Word := b3 ++ b2 ++ b1 ++ b0

/-- HEAP[p] on the bus: zero-extended where valid, else an arbitrary 9-bit value (R25, R42, R50; U13). -/
def heapWord (s : State) (p : Nat) : Word :=
  if p < s.heapSize.toNat ∧ p < s.heap.length then (heapAt s.heap p).setWidth 32
  else ((Config.freeWord s.draws).extractLsb' 0 9).setWidth 32

/-- OBUF[k] on the bus: a free value at OUT_LEN and above (R27, R42; U14). -/
def obufLane (s : State) (k : Nat) : Byte :=
  if k < s.outLen.toNat then obufByte s k else freeByte s k

/-- The word a read of a location gives (R42). -/
def readLoc (s : State) : Loc → Word
  | .cmd => 0#32
  | .status => statusWord s
  | .errcode => s.errcode.setWidth 32
  | .errinfo => s.errinfo
  | .errpos => s.errpos
  | .inLen => s.inLen
  | .outLen => s.outLen
  | .nbits => s.nbits
  | .root => s.root.setWidth 32
  | .nnodes => s.nnodes.setWidth 32
  | .nsym => s.nsym.setWidth 32
  | .heapSize => s.heapSize.setWidth 32
  | .id => Config.idValue
  | .icap => s.icap
  | .ocap => s.ocap
  | .freq b => freqAt s b
  | .heap p => heapWord s p
  | .node i w => nodeWord (Table.get clearedNode s.node i) w
  | .code b w => codeWord (Table.get clearedCode s.code b) w
  | .ibuf w =>
    wordOfBytes (ibufByte s (4 * w)) (ibufByte s (4 * w + 1)) (ibufByte s (4 * w + 2))
      (ibufByte s (4 * w + 3))
  | .obuf w =>
    wordOfBytes (obufLane s (4 * w)) (obufLane s (4 * w + 1)) (obufLane s (4 * w + 2))
      (obufLane s (4 * w + 3))
  | .reserved => 0#32

/-- What a host write of v to a location other than CMD stores (R43): the writable registers
truncate (R32), a record word stores its fields (R48, R49), an IBUF word stores four bytes (R45),
every other location takes no notice. -/
def writeLoc (s : State) (v : Word) : Loc → State
  | .cmd => s
  | .status => s
  | .errcode => s
  | .errinfo => s
  | .errpos => s
  | .inLen => { s with inLen := v }
  | .outLen => s
  | .nbits => { s with nbits := v }
  | .root => { s with root := v.setWidth 9 }
  | .nnodes => s
  | .nsym => s
  | .heapSize => s
  | .id => s
  | .icap => s
  | .ocap => s
  | .freq b => setFreq s b v
  | .heap _ => s
  | .node i w => setNode s i (nodeSetWord (Table.get clearedNode s.node i) w v)
  | .code b w => setCode s b (codeSetWord (Table.get clearedCode s.code b) w v)
  | .ibuf w => setIbufBytes s (4 * w) [byteLane v 0, byteLane v 1, byteLane v 2, byteLane v 3]
  | .obuf _ => s
  | .reserved => s

/-- The word a host read gives: a free value when the access is refused (R44; U16) or when BUSY = 1
and the location is not STATUS (R57; U18). -/
def readValue (s : State) (addr width : Nat) : Word :=
  if admitted addr width then
    if s.busy && locateIn s addr ≠ .status then Config.freeWord s.draws
    else readLoc s (locateIn s addr)
  else Config.freeWord s.draws

/-- A host read (R42): the block's state is unchanged; the model records the word and moves to the
next free word. -/
def hostRead (s : State) (addr width : Nat) : State :=
  { s with readData := readValue s addr width, draws := s.draws + 1 }

/-- A host write to a location other than CMD (R43); refused when the access is not admitted (R44)
or while BUSY = 1 (R57). -/
def hostWrite (s : State) (addr width : Nat) (v : Word) : State :=
  if admitted addr width && !s.busy then writeLoc s v (locateIn s addr) else s

end Sys2Proof.Machine
end

