-- ==== Sys2Proof/Syntax.lean ====
section
/-! DEFINITION. The commands of the block: one constructor per row of spec/opcode_table.json
(spec/30_encoding.md R61). No command has an operand field (R62). -/

namespace Sys2Proof

/-- The nine commands (R61). Every operand is implicit state (R62). -/
inductive Instr
  /-- NOP, R170. -/
  | nop
  /-- RST, R171. -/
  | rst
  /-- CLRE, R172. -/
  | clre
  /-- OTI, R173. -/
  | oti
  /-- CNT, R80. -/
  | cnt
  /-- BLD, R90. -/
  | bld
  /-- ENC, R120. -/
  | enc
  /-- DEC, R135. -/
  | dec
  /-- DECX, R136. -/
  | decx
deriving DecidableEq, Repr

end Sys2Proof
end

