-- ==== Sys2Proof/WellFormed.lean ====
section
/-! DEFINITION. Well-formedness: of a command (R62), of the format of a command word (R60), of a
capacity parameter (R4). -/

namespace Sys2Proof

/-- Every command is well formed: none has an operand that could be out of range (R62). -/
def Instr.wf : Instr → Bool
  | .nop => true
  | .rst => true
  | .clre => true
  | .oti => true
  | .cnt => true
  | .bld => true
  | .enc => true
  | .dec => true
  | .decx => true

/-- Format `C` of a command word: bits [31:8] are 0 (R60). -/
def wordWf (w : Word) : Bool := w.extractLsb' 8 24 == 0#24

/-- An OPCODE value that R61 assigns (R64 lists the unassigned ranges). -/
def opcodeAssigned (op : Byte) : Bool :=
  op.toNat ≤ 3 || op == 0x10#8 || op == 0x20#8 || op == 0x30#8 || op == 0x40#8 || op == 0x41#8

/-- The bounds of a capacity parameter: a multiple of 4 from 4 to 2^20 (R4). -/
def capWf (c : Word) : Bool :=
  c.toNat % 4 == 0 && decide (4 ≤ c.toNat) && decide (c.toNat ≤ Config.capMax)

end Sys2Proof
end

