-- ==== Sys2Proof/Decode.lean ====
section
/-! DEFINITION. Decoding a command word and encoding a command (spec/30_encoding.md R60, R61, R63).
The command word is the value of one host write to CMD; it is never stored as bytes (R55). -/

namespace Sys2Proof

/-- One row of the opcode map (R61). -/
structure OpRow where
  instr : Instr
  mask  : Word
  word  : Word
deriving DecidableEq, Repr

/-- Why a word is no command. -/
inductive DecodeError
  /-- The word is not one of the nine of R61 (R63). -/
  | illegalCommand (w : Word)
deriving DecidableEq, Repr

/-- The opcode map (R61): the whole word is compared, mask 0xFFFFFFFF. -/
def opcodeMap : List OpRow :=
  [ ⟨.nop,  0xFFFFFFFF#32, 0x00000000#32⟩,
    ⟨.rst,  0xFFFFFFFF#32, 0x00000001#32⟩,
    ⟨.clre, 0xFFFFFFFF#32, 0x00000002#32⟩,
    ⟨.oti,  0xFFFFFFFF#32, 0x00000003#32⟩,
    ⟨.cnt,  0xFFFFFFFF#32, 0x00000010#32⟩,
    ⟨.bld,  0xFFFFFFFF#32, 0x00000020#32⟩,
    ⟨.enc,  0xFFFFFFFF#32, 0x00000030#32⟩,
    ⟨.dec,  0xFFFFFFFF#32, 0x00000040#32⟩,
    ⟨.decx, 0xFFFFFFFF#32, 0x00000041#32⟩ ]

/-- The command a word stands for, or the error naming the word (R61, R63). Total. -/
def decode (w : Word) : Except DecodeError Instr :=
  match opcodeMap.find? (fun r => w &&& r.mask == r.word) with
  | some r => .ok r.instr
  | none => .error (.illegalCommand w)

/-- Format `C`: OPCODE in bits [7:0], zero above (R60). -/
def formatC (op : Byte) : Word := 0#24 ++ op

/-- The word of a command (R60, R61). -/
def encode : Instr → Word
  | .nop => formatC 0x00#8
  | .rst => formatC 0x01#8
  | .clre => formatC 0x02#8
  | .oti => formatC 0x03#8
  | .cnt => formatC 0x10#8
  | .bld => formatC 0x20#8
  | .enc => formatC 0x30#8
  | .dec => formatC 0x40#8
  | .decx => formatC 0x41#8

/-- The command the decoder reads from a table row's word: the low `nbits` bits of `w`, the bits
above them 0. A word that does not fit the 32 bits of CMD is no command (R60). -/
def decodeTableWord (nbits w : Nat) : Option Instr :=
  let v := w % 2 ^ nbits
  if v < 2 ^ 32 then
    match decode (BitVec.ofNat 32 v) with
    | .ok i => some i
    | .error _ => none
  else none

end Sys2Proof
end

