-- ==== Sys2Proof/Machine/Heap.lean ====
section
/-! DEFINITION. The builder's priority queue, an array binary min-heap of node indices
(spec/42_tree_builder.md R94 to R96). -/

namespace Sys2Proof.Machine

/-- The strict order on node indices by the key (FREQ, index) (R94). -/
def less (node : Table NodeRec) (i j : Idx) : Bool :=
  let fi := (Table.get clearedNode node i.toNat).freq
  let fj := (Table.get clearedNode node j.toNat).freq
  fi < fj || (fi == fj && i < j)

/-- swap HEAP[p], HEAP[q] (R95, R96). -/
def heapSwap (h : List Idx) (p q : Nat) : List Idx :=
  (h.set p (heapAt h q)).set q (heapAt h p)

/-- The loop of HEAP_PUSH from slot p (R95). Each pass at least halves p, so p passes are enough. -/
def siftUp (lt : Idx → Idx → Bool) : (fuel : Nat) → (p : Nat) → List Idx → List Idx
  | 0, _, h => h
  | fuel + 1, p, h =>
    if p = 0 then h
    else
      let q := (p - 1) / 2
      if lt (heapAt h p) (heapAt h q) then siftUp lt fuel q (heapSwap h p q) else h

/-- The slot holding the lesser of slots m and c, slot m when c is beyond the heap (R96). -/
def lesserSlot (lt : Idx → Idx → Bool) (h : List Idx) (m c : Nat) : Nat :=
  if c < h.length && lt (heapAt h c) (heapAt h m) then c else m

/-- The loop of HEAP_POP from slot p (R96). Each pass at least doubles p, so HEAP_SIZE passes are
enough. -/
def siftDown (lt : Idx → Idx → Bool) : (fuel : Nat) → (p : Nat) → List Idx → List Idx
  | 0, _, h => h
  | fuel + 1, p, h =>
    let m := lesserSlot lt h (lesserSlot lt h p (2 * p + 1)) (2 * p + 2)
    if m = p then h else siftDown lt fuel m (heapSwap h p m)

/-- The array after HEAP_PUSH(i) (R95). -/
def pushed (lt : Idx → Idx → Bool) (h : List Idx) (i : Idx) : List Idx :=
  siftUp lt h.length h.length (h ++ [i])

/-- The array after HEAP_POP (R96): the last entry moves to slot 0 and sifts down. -/
def popped (lt : Idx → Idx → Bool) (h : List Idx) : List Idx :=
  let r := h.dropLast
  if r.length = 0 then r
  else siftDown lt r.length 0 (r.set 0 (heapAt h r.length))

/-- HEAP_PUSH(i) (R95). -/
def heapPush (s : State) (i : Idx) : State :=
  let h := pushed (less s.node) s.heap i
  { s with heap := h, heapSize := BitVec.ofNat 9 h.length }

/-- HEAP_POP(): the node index with the least key, and the state after (R96). -/
def heapPop (s : State) : Idx × State :=
  let h := popped (less s.node) s.heap
  (heapAt s.heap 0, { s with heap := h, heapSize := BitVec.ofNat 9 h.length })

end Sys2Proof.Machine
end

