-- ==== Sys2Proof/Machine/Builder.lean ====
section
/-! DEFINITION. BLD, the tree builder (spec/42_tree_builder.md R90). -/

namespace Sys2Proof.Machine

/-- Phase 0: NODE, CODE, HEAP_SIZE, ROOT, NNODES, NSYM, EMPTY and SINGLE take their reset values
(R92). With HEAP_SIZE = 0 no entry of HEAP is valid. -/
def bldClear (s : State) : State :=
  { s with
    node := []
    code := []
    heap := []
    heapSize := 0#9
    root := Config.nil
    nnodes := 0#10
    nsym := 0#9
    empty := false
    single := false }

/-- The leaf of byte b: the table's count zero-extended to 40 bits (R93). -/
def leafNode (b : Nat) (f : Word) : NodeRec :=
  ⟨.leaf, BitVec.ofNat 8 b, f.setWidth 40, Config.nil, Config.nil, Config.nil⟩

/-- Phase 1, one byte value: an entry of the mapping becomes NODE[n] and is pushed at once (R93).
The pair is the state and n. -/
def seedByte (sn : State × Nat) (b : Nat) : State × Nat :=
  let (s, n) := sn
  if freqAt s b = 0#32 then (s, n)
  else (heapPush (setNode s n (leafNode b (freqAt s b))) (BitVec.ofNat 9 n), n + 1)

/-- Phase 1: the bytes in ascending order; the number of leaves n (R93). -/
def seed (s : State) : State × Nat := (List.range Config.nsymMax).foldl seedByte (s, 0)

/-- PARENT <- k of record i (R97). -/
def setParent (s : State) (i : Idx) (k : Nat) : State :=
  setNode s i.toNat { nodeAt s i with parent := BitVec.ofNat 9 k }

/-- One pass of the merge loop: the two least keys a, b become the children of the new node k, a
LEFT and b RIGHT (R97, R98); the 40-bit sum cannot overflow (R99). -/
def mergeOnce (s : State) (k : Nat) : State :=
  let (a, s) := heapPop s
  let (b, s) := heapPop s
  let r : NodeRec :=
    ⟨.internal, 0#8, (nodeAt s a).freq + (nodeAt s b).freq, a, b, Config.nil⟩
  let s := setNode s k r
  let s := setParent s a k
  let s := setParent s b k
  heapPush s (BitVec.ofNat 9 k)

/-- Phase 2: while HEAP_SIZE > 1, from the next free index k on (R97). Each pass takes one node off
the queue, so n passes are enough. The pair is the state and k. -/
def mergeLoop : (fuel : Nat) → State → (k : Nat) → State × Nat
  | 0, s, k => (s, k)
  | fuel + 1, s, k =>
    if 1 < s.heapSize.toNat then mergeLoop fuel (mergeOnce s k) (k + 1) else (s, k)

/-- GEN(i, L, path), with L the length of path (R103). Every child has a smaller index than its
parent (R23), so a fuel above the index of i is enough. -/
def gen : (fuel : Nat) → State → Idx → List Bool → State
  | 0, s, _, _ => s
  | fuel + 1, s, i, path =>
    let r := nodeAt s i
    if r.kind = .leaf then setCode s r.sym.toNat (codeOfPath path)
    else gen fuel (gen fuel s r.left (path ++ [false])) r.right (path ++ [true])

/-- Phase 3: the code "0" of the one-leaf tree (R102), else the root-to-leaf paths (R103). -/
def bldCodes (s : State) (n : Nat) : State :=
  if n = 1 then setCode s (nodeAt s 0#9).sym.toNat ⟨1#8, 0#256⟩
  else gen s.nnodes.toNat s s.root []

/-- Phases 2 and 3 for n ≥ 1 leaves: ROOT <- HEAP[0], NNODES <- k, SINGLE, the codes (R97, R100). -/
def bldTree (s : State) (n : Nat) : State :=
  let (s, k) := mergeLoop n s n
  bldCodes { s with
    root := heapAt s.heap 0
    nnodes := BitVec.ofNat 10 k
    single := singleFlag n } n

/-- After phase 1 gave the state and n leaves: NSYM and EMPTY, then phases 2 and 3 (R90). -/
def bldAfterSeed (s : State) (n : Nat) : State :=
  let s := { s with nsym := BitVec.ofNat 9 n, empty := emptyFlag n }
  if n = 0 then s else bldTree s n

/-- BLD's body (R90). It reads FREQ alone and raises no fault. -/
def bldBody (s : State) : Except Trap State :=
  .ok (bldAfterSeed (seed (bldClear s)).1 (seed (bldClear s)).2)

/-- BLD (R90). -/
def execBld (s : State) : Host.Outcome State Fault Refusal := runCommand .nothing bldBody s

end Sys2Proof.Machine
end

