-- ==== Sys2Proof/Machine/Counter.lean ====
section
/-! DEFINITION. CNT, the frequency counter (spec/41_frequency_counter.md R80). -/

namespace Sys2Proof.Machine

/-- FREQ[b] <- FREQ[b] + 1, 32 bits (R80). -/
def countByte (s : State) (b : Byte) : State := setFreq s b.toNat (freqAt s b.toNat + 1#32)

/-- CNT's body: the length test, then FREQ cleared, then every input byte counted (R80, R83). -/
def cntBody (s : State) : Except Trap State :=
  match checkInLen s with
  | .error t => .error t
  | .ok s => .ok ((inputBytes s).foldl countByte { s with freq := [] })

/-- CNT (R80). -/
def execCnt (s : State) : Host.Outcome State Fault Refusal := runCommand .nothing cntBody s

end Sys2Proof.Machine
end

