-- ==== Sys2Proof/Machine/Decoder.lean ====
section
/-! DEFINITION. DEC and DECX, the decoder: bit reader and tree walker (spec/44_decoder.md R135 to
R141). -/

namespace Sys2Proof.Machine

/-- The fault CorruptTree naming record i at bit k (R142). -/
def corruptTree (i : Idx) (k : Nat) : Trap := ⟨.corruptTree, i.setWidth 32, BitVec.ofNat 32 k⟩

/-- The fault CorruptStream with a sub-cause (R144). -/
def corruptStream (sub : Word) (pos : Word) : Trap := ⟨.corruptStream, sub, pos⟩

/-- The child that a bit selects: LEFT for 0, RIGHT for 1 (R140). -/
def childOf (r : NodeRec) (bit : Bool) : Idx := if bit then r.right else r.left

/-- A leaf is reached at bit k: emit its byte, the cursor returns to the root (R140, R148). -/
def emitSym (k : Nat) (v : Byte) (s : State) : Except Trap State :=
  match emit 1#32 (BitVec.ofNat 32 k) v s with
  | .error t => .error t
  | .ok s => .ok { s with cur := s.root }

/-- Arrival at child c at bit k (R140, R143). -/
def arrive (k : Nat) (c : Idx) (s : State) : Except Trap State :=
  match (nodeAt s c).kind with
  | .leaf => emitSym k (nodeAt s c).sym s
  | .internal => .ok { s with cur := c }
  | .free => .error (corruptTree c k)
  | .reserved => .error (corruptTree c k)

/-- STEP(bit, k), one move of the cursor (R140); at a LEAF, which only the root can be, a 0 bit emits
and a 1 bit is CorruptStream(1) (R141). -/
def walkStep (k : Nat) (bit : Bool) (s : State) : Except Trap State :=
  match (nodeAt s s.cur).kind with
  | .internal =>
    if childOf (nodeAt s s.cur) bit = Config.nil then .error (corruptTree s.cur k)
    else arrive k (childOf (nodeAt s s.cur) bit) s
  | .leaf =>
    if bit then .error (corruptStream 1#32 (BitVec.ofNat 32 k))
    else
      match emit 1#32 (BitVec.ofNat 32 k) (nodeAt s s.cur).sym s with
      | .error t => .error t
      | .ok s => .ok s
  | .free => .error (corruptTree s.cur k)
  | .reserved => .error (corruptTree s.cur k)

/-- The steps for the bits from index k on (R139). -/
def walkBits : (k : Nat) → List Bool → State → Except Trap State
  | _, [], s => .ok s
  | k, bit :: bits, s =>
    match walkStep k bit s with
    | .error t => .error t
    | .ok s => walkBits (k + 1) bits s

/-- WALK(nb): with no bit to consume the tree is not touched; an absent root is CorruptTree(NIL, 0)
(R139, R147). -/
def walk (nb : Nat) (s : State) : Except Trap State :=
  if nb = 0 then .ok s
  else if s.root = Config.nil then .error (corruptTree Config.nil 0)
  else walkBits 0 (inputBits s nb) { s with cur := s.root }

/-- CUR <- NIL (R135, R136). -/
def clearCur (s : State) : State := { s with cur := Config.nil }

/-- 8·IN_LEN, the number of bits in the input (R135, R136). -/
def inputBitCount (s : State) : Nat := 8 * s.inLen.toNat

/-- The end of a counted decode: after NBITS > 0 bits the cursor must be at the root (R145). -/
def checkAtRoot (s : State) : Except Trap State :=
  if s.nbits ≠ 0#32 ∧ s.cur ≠ s.root then .error (corruptStream 2#32 s.nbits) else .ok (clearCur s)

/-- DEC's body (R135). -/
def decBody (s : State) : Except Trap State :=
  match checkInLen s with
  | .error t => .error t
  | .ok s =>
    if inputBitCount s < s.nbits.toNat then
      .error (corruptStream 3#32 (BitVec.ofNat 32 (inputBitCount s)))
    else
      match walk s.nbits.toNat (clearOutput s) with
      | .error t => .error t
      | .ok s => checkAtRoot s

/-- DECX's body (R136): an unfinished path at the end is dropped (R146). -/
def decxBody (s : State) : Except Trap State :=
  match checkInLen s with
  | .error t => .error t
  | .ok s =>
    match walk (inputBitCount s) (clearOutput s) with
    | .error t => .error t
    | .ok s => .ok (clearCur s)

/-- DEC (R135). -/
def execDec (s : State) : Host.Outcome State Fault Refusal := runCommand .output decBody s

/-- DECX (R136). -/
def execDecx (s : State) : Host.Outcome State Fault Refusal := runCommand .output decxBody s

end Sys2Proof.Machine
end

