-- ==== Sys2Proof/Machine/Encoder.lean ====
section
/-! DEFINITION. ENC, the encoder: code lookup and bit packer (spec/43_encoder.md R120). -/

namespace Sys2Proof.Machine

/-- One code bit into ACC: `ACC <- ((ACC << 1) | bit) & 0xFF`, BITCNT and NBITS count it (R120). -/
def shiftIn (bit : Bool) (s : State) : State :=
  { s with
    acc := (s.acc <<< 1) ||| (BitVec.ofBool bit).setWidth 8
    bitcnt := s.bitcnt + 1#4
    nbits := s.nbits + 1#32 }

/-- ACC <- 0; BITCNT <- 0 (R120). -/
def clearAcc (s : State) : State := { s with acc := 0#8, bitcnt := 0#4 }

/-- One code bit of input byte i: when eight bits have accumulated, one byte is emitted (R120, R121). -/
def packBit (i : Nat) (bit : Bool) (s : State) : Except Trap State :=
  let s := shiftIn bit s
  if s.bitcnt = 8#4 then
    match emit 0#32 (BitVec.ofNat 32 i) s.acc s with
    | .error t => .error t
    | .ok s => .ok (clearAcc s)
  else .ok s

/-- The bits of one code, first bit first (R120). -/
def packBits (i : Nat) : List Bool → State → Except Trap State
  | [], s => .ok s
  | bit :: bits, s =>
    match packBit i bit s with
    | .error t => .error t
    | .ok s => packBits i bits s

/-- One input byte s_i at index i: no code raises UnknownSymbol before any bit is packed (R123). -/
def encByte (i : Nat) (b : Byte) (s : State) : Except Trap State :=
  if (codeAt s b).clen = 0#8 then .error ⟨.unknownSymbol, b.setWidth 32, BitVec.ofNat 32 i⟩
  else packBits i (codeBits (codeAt s b)) s

/-- The input bytes from index i on (R120). -/
def encBytes : (i : Nat) → List Byte → State → Except Trap State
  | _, [], s => .ok s
  | i, b :: bs, s =>
    match encByte i b s with
    | .error t => .error t
    | .ok s => encBytes (i + 1) bs s

/-- The last byte: 1 to 7 remaining bits are shifted up over zero bits and emitted (R122). -/
def flush (s : State) : Except Trap State :=
  if s.bitcnt = 0#4 then .ok s
  else
    match emit 0#32 s.inLen (s.acc <<< (8 - s.bitcnt.toNat)) s with
    | .error t => .error t
    | .ok s => .ok (clearAcc s)

/-- The start of ENC: OUT_LEN, NBITS, ACC, BITCNT <- 0 (R120, R126). -/
def encStart (s : State) : State := clearAcc { clearOutput s with nbits := 0#32 }

/-- ENC's body (R120). -/
def encBody (s : State) : Except Trap State :=
  match checkInLen s with
  | .error t => .error t
  | .ok s =>
    match encBytes 0 (inputBytes s) (encStart s) with
    | .error t => .error t
    | .ok s => flush s

/-- ENC (R120). -/
def execEnc (s : State) : Host.Outcome State Fault Refusal := runCommand .outputAndBits encBody s

end Sys2Proof.Machine
end

