-- ==== Sys2Proof/Machine/Housekeeping.lean ====
section
/-! DEFINITION. NOP, RST, CLRE, OTI (spec/46_housekeeping.md R170 to R173). -/

namespace Sys2Proof.Machine

/-- NOP: nothing but DONE (R170, R194). -/
def execNop (s : State) : Host.Outcome State Fault Refusal :=
  runCommand .nothing (fun t => .ok t) s

/-- RST: the reset table, whether ERR is 0 or 1; DONE stays 0 (R171, R193, R194). -/
def execRst (s : State) : Host.Outcome State Fault Refusal := .next (softReset s)

/-- CLRE: the fault is cleared, whether ERR is 0 or 1 (R172, R193). -/
def execClre (s : State) : Host.Outcome State Fault Refusal :=
  finish .nothing (fun t => .ok (clearFault t)) s

/-- OTI's body: OUT_LEN > IBUF_CAP faults before any write; else the output sequence is copied to
IBUF and IN_LEN <- OUT_LEN (R173). -/
def otiBody (s : State) : Except Trap State :=
  if s.icap < s.outLen then .error ⟨.bufferOverflow, 2#32, s.outLen⟩
  else .ok { setIbufBytes s 0 (outputBytes s) with inLen := s.outLen }

/-- OTI (R173). -/
def execOti (s : State) : Host.Outcome State Fault Refusal := runCommand .nothing otiBody s

end Sys2Proof.Machine
end

