-- ==== Sys2Proof/Machine/Dispatch.lean ====
section
/-! DEFINITION. One arm per command: the meaning it calls. -/

namespace Sys2Proof.Machine

def exec (i : Instr) (s : State) : Host.Outcome State Fault Refusal :=
  match i with
  | .nop => Sys2Proof.Machine.execNop s
  | .rst => Sys2Proof.Machine.execRst s
  | .clre => Sys2Proof.Machine.execClre s
  | .oti => Sys2Proof.Machine.execOti s
  | .cnt => Sys2Proof.Machine.execCnt s
  | .bld => Sys2Proof.Machine.execBld s
  | .enc => Sys2Proof.Machine.execEnc s
  | .dec => Sys2Proof.Machine.execDec s
  | .decx => Sys2Proof.Machine.execDecx s

end Sys2Proof.Machine
end

