-- ==== Sys2Proof/Machine/HostPort.lean ====
section
/-! DEFINITION. The host port: what one host action does to the block (spec/20_memory.md R42 to R44,
R57; spec/60_exceptions.md R193), and the host's fixed scripts (spec/30_encoding.md R70, R71). -/

namespace Sys2Proof.Machine

/-- A word is written to CMD (R60, R193): decoded and executed, or IllegalCommand. Each meaning, and
`illegalCommand`, makes the refusal test of R193 itself (log 14). -/
def command (w : Word) (s : State) : Host.Outcome State Fault Refusal :=
  match decode w with
  | .ok i => exec i s
  | .error _ => .next (illegalCommand w s)

/-- One host action. -/
def perform (a : HostAction) (s : State) : Host.Outcome State Fault Refusal :=
  match a with
  | .read addr width => .next (hostRead s addr width)
  | .write addr width v =>
    if admitted addr width && !s.busy && locateIn s addr = .cmd then command v s
    else .next (hostWrite s addr width v)
  | .hardReset => .next (hardReset s)

/-- The block's next event (R53): the oldest host action still to come; with none, the block is idle
and loses nothing (R206). -/
def advance (s : State) : Host.Outcome State Fault Refusal :=
  match s.script with
  | [] => .next s
  | a :: rest => perform a { s with script := rest }

/-- The host action that gives a command: its word written to CMD (R70). -/
def give (i : Instr) : HostAction := .write 0x00 4 (encode i)

/-- The pseudo-command CMP = CNT; BLD; ENC (R71, R155). -/
def cmp : List HostAction := [give .cnt, give .bld, give .enc]

/-- The pseudo-command DCMP = DEC (R71, R156). -/
def dcmp : List HostAction := [give .dec]

/-- LOAD's writes to the IBUF window from byte offset `addr` on, a last partial word padded with zero
bytes (R45, R70). -/
def loadWords : (addr : Nat) → List Byte → List HostAction
  | _, [] => []
  | addr, [b0] => [.write addr 4 (wordOfBytes b0 0#8 0#8 0#8)]
  | addr, [b0, b1] => [.write addr 4 (wordOfBytes b0 b1 0#8 0#8)]
  | addr, [b0, b1, b2] => [.write addr 4 (wordOfBytes b0 b1 b2 0#8)]
  | addr, b0 :: b1 :: b2 :: b3 :: bs =>
    .write addr 4 (wordOfBytes b0 b1 b2 b3) :: loadWords (addr + 4) bs

/-- LOAD: the bytes to IBUF[0 ..], then their number to IN_LEN (R70). -/
def load (bs : List Byte) : List HostAction :=
  loadWords 0x100000 bs ++ [.write 0x14 4 (BitVec.ofNat 32 bs.length)]

end Sys2Proof.Machine
end

