-- ==== Sys2Proof/Machine/Step.lean ====
section
/-! DEFINITION. One step of the machine: the block's next event. -/

namespace Sys2Proof.Machine

/-- One step: one host action, one command at most (spec/00_scope.md R5, spec/20_memory.md R53). -/
def step (s : State) : Host.Outcome State Fault Refusal := advance s

/-- s with the host's next action being the write of this command word to CMD: where a command comes
from (spec/30_encoding.md R60; log 1, 18). A word beyond the 32 bits of CMD is cut to them. -/
def State.withFetchWord (s : State) (nbits w : Nat) : State :=
  { s with script := .write 0x00 4 (BitVec.ofNat 32 (w % 2 ^ nbits)) :: s.script }

end Sys2Proof.Machine
end

