-- ==== Sys2Proof/Safety.lean ====
section
/-! DEFINITION. What holds in every state a run reaches (`Inv`), and the terms the claims are stated
in: sequences of bits, paths in the tree, codewords, the heap order. -/

namespace Sys2Proof.Machine

/-- What every step keeps, from the reset state on. -/
structure Inv (s : State) : Prop where
  /-- BUSY reads 0 wherever the host can act (R14). -/
  notBusy : s.busy = false
  /-- The parameters are within R4's bounds. -/
  icapWf : capWf s.icap = true
  ocapWf : capWf s.ocap = true
  /-- The memories are in canonical form, with indexes inside their sizes (R20, R21, R24, R26). -/
  freqWf : Table.wf Config.nsymMax 0#32 s.freq = true
  nodeWf : Table.wf Config.nodeMax clearedNode s.node = true
  codeWf : Table.wf Config.nsymMax clearedCode s.code = true
  ibufWf : Memory.wf s.ibuf = true
  ibufBelow : Table.below s.icap.toNat s.ibuf = true
  /-- OBUF lists exactly the output sequence, which fits its capacity (R27, R46). -/
  obufListed : s.obuf.map Prod.fst = List.range s.outLen.toNat
  outLenLe : s.outLen ≤ s.ocap
  /-- HEAP has HEAP_SIZE valid entries, 0 or 1 between commands (R17, R25). -/
  heapListed : s.heap.length = s.heapSize.toNat
  heapSmall : s.heapSize ≤ 1#9
  /-- The hidden registers are at rest between commands (R18). -/
  accRest : s.acc = 0#8
  bitcntRest : s.bitcnt = 0#4
  curRest : s.cur = Config.nil
  /-- DONE and ERR are never both 1 (R194). -/
  notDoneAndErr : ¬ (s.done = true ∧ s.err = true)
  /-- ERR = 1 exactly when a cause is recorded; the causes are 1 to 5 (R15, R186). -/
  errRecorded : s.err = true ↔ s.errcode ≠ 0#4
  errcodeLe : s.errcode ≤ 5#4
  noErrNoInfo : s.err = false → s.errinfo = 0#32 ∧ s.errpos = 0#32
  /-- NSYM is at most 256, NNODES is 0 or 2·NSYM - 1 (R17), EMPTY and SINGLE fit NSYM (R14). -/
  nsymLe : s.nsym ≤ 256#9
  nnodesEq : s.nnodes.toNat = 2 * s.nsym.toNat - 1
  emptyNsym : s.empty = true → s.nsym = 0#9
  singleNsym : s.single = true ↔ s.nsym = 1#9

/-- The bytes with a non-zero FREQ entry, in ascending order (R9, R93). -/
def presentSymbols (s : State) : List Nat :=
  (List.range Config.nsymMax).filter (fun b => freqAt s b ≠ 0#32)

/-- The sum of all FREQ entries (R82, R108). -/
def freqTotal (s : State) : Nat :=
  ((List.range Config.nsymMax).map (fun b => (freqAt s b).toNat)).sum

/-- The record reached from record i along a path, bit 0 to LEFT, bit 1 to RIGHT (R112). -/
def walkTo (s : State) (i : Idx) (p : List Bool) : Idx :=
  p.foldl (fun i b => childOf (nodeAt s i) b) i

/-- The path p from record i ends at a LEAF with SYM = v, at no LEAF before its last bit, with no
child missing on the way (R112, R140). -/
def leadsTo (s : State) : (i : Idx) → (p : List Bool) → (v : Byte) → Bool
  | i, [], v => (nodeAt s i).kind == .leaf && (nodeAt s i).sym == v
  | i, b :: p, v =>
    (nodeAt s i).kind == .internal && childOf (nodeAt s i) b != Config.nil &&
      leadsTo s (childOf (nodeAt s i) b) p v

/-- The path p from record i stays on INTERNAL records, with no child missing (R140). -/
def staysInside (s : State) : (i : Idx) → (p : List Bool) → Bool
  | i, [] => (nodeAt s i).kind == .internal
  | i, b :: p =>
    (nodeAt s i).kind == .internal && childOf (nodeAt s i) b != Config.nil &&
      staysInside s (childOf (nodeAt s i) b) p

/-- The bits p are the codeword of byte v for the decoder's tree: the path from ROOT to a leaf of v,
or "0" when the root is a leaf (R140, R141). -/
def codeword (s : State) (p : List Bool) (v : Byte) : Bool :=
  if (nodeAt s s.root).kind = .leaf then p == [false] && (nodeAt s s.root).sym == v
  else leadsTo s s.root p v

/-- A byte has a code in CODE (R24). -/
def hasCode (s : State) (b : Byte) : Bool := (codeAt s b).clen != 0#8

/-- The concatenation of the codes of a byte sequence (R47, R121). -/
def codesOf (s : State) (bs : List Byte) : List Bool := bs.flatMap (fun b => codeBits (codeAt s b))

/-- Bit k of the output sequence: byte k >> 3, bit 7 - (k & 7) (R47). -/
def outputBit (s : State) (k : Nat) : Bool := (obufByte s (k / 8)).getLsbD (7 - k % 8)

/-- No entry of the array is less than its parent (R109). -/
def isHeap (lt : Idx → Idx → Bool) (h : List Idx) : Prop :=
  ∀ p, 0 < p → p < h.length → lt (heapAt h p) (heapAt h ((p - 1) / 2)) = false

/-- What a fault of a command discards (R192). -/
def discardOf : Instr → Discard
  | .nop => .nothing
  | .rst => .nothing
  | .clre => .nothing
  | .oti => .nothing
  | .cnt => .nothing
  | .bld => .nothing
  | .enc => .outputAndBits
  | .dec => .output
  | .decx => .output

end Sys2Proof.Machine
end

