-- ==== Sys2Proof/Certificates/Slice0/Obligations.lean ====
section
/-! DEFINITION. The statements for the provers, in the order of the spec's files. A frame is said as
`t = { s with f := t.f, ... }`: every field not named is as in `s`. -/

open Sys2Proof Sys2Proof.Machine

/-! ### Encoding (spec/30_encoding.md) -/

/-- R61: the opcode map, the whole word compared. -/
def Obligations.DecodeIsTheOpcodeMap : Prop :=
  ∀ (w : Word) (i : Instr), decode w = .ok i ↔
    (i, w) ∈ [(Instr.nop, 0x00000000#32), (.rst, 0x00000001#32), (.clre, 0x00000002#32),
      (.oti, 0x00000003#32), (.cnt, 0x00000010#32), (.bld, 0x00000020#32), (.enc, 0x00000030#32),
      (.dec, 0x00000040#32), (.decx, 0x00000041#32)]

/-- R60, R61: decoding the word of a command gives the command back, and no other word decodes to it. -/
def Obligations.DecodeInvertsEncode : Prop :=
  ∀ i : Instr, i.wf = true ∧ decode (encode i) = .ok i ∧ wordWf (encode i) = true ∧
    opcodeAssigned ((encode i).extractLsb' 0 8) = true ∧ ∀ w, decode w = .ok i → w = encode i

/-! ### The step and the command port (spec/30_encoding.md R60, spec/60_exceptions.md R193) -/

/-- A step runs the decoded command: the host's next action (log 1) is the write of a word to CMD.
With no host action to come the block is idle and loses nothing (R206). -/
def Obligations.StepRunsTheWrittenCommand : Prop :=
  ∀ s : State,
    (∀ (w : Word) (rest : List HostAction), s.busy = false → s.script = .write 0x00 4 w :: rest →
      step s = command w { s with script := rest } ∧
      ∀ i : Instr, decode w = .ok i → step s = exec i { s with script := rest }) ∧
    (s.script = [] → step s = .next s)

/-- R187: an illegal word written to CMD while ERR = 0, the hidden registers at rest (R18). -/
def Obligations.IllegalWordFaults : Prop :=
  ∀ (s : State) (w : Word),
    s.busy = false → s.err = false → s.acc = 0#8 → s.bitcnt = 0#4 → s.cur = Config.nil →
    w ∉ [0x00#32, 0x01#32, 0x02#32, 0x03#32, 0x10#32, 0x20#32, 0x30#32, 0x40#32, 0x41#32] →
    command w s = .next { s with
      errcode := 1#4, errinfo := w, errpos := 0#32, err := true, done := false }

/-- R193: while ERR = 1 every word but RST's and CLRE's is refused, illegal words too. -/
def Obligations.ErrRefusesAllButRstAndClre : Prop :=
  ∀ s : State, s.err = true →
    (∀ i : Instr, i ≠ .rst → i ≠ .clre → exec i s = .next s) ∧
    (∀ w : Word, w ≠ 0x01#32 → w ≠ 0x02#32 → command w s = .next s)

/-! ### Housekeeping (spec/46_housekeeping.md) -/

/-- R170: NOP, and its refusal while ERR = 1. -/
def Obligations.NopOnlySetsDone : Prop :=
  ∀ s : State,
    (s.err = false → exec .nop s = .next { s with done := true, busy := false }) ∧
    (s.err = true → exec .nop s = .next s)

/-- R171, R29: RST, whether ERR is 0 or 1. IBUF's bytes and the constants stay. The four last fields
are the model's own (log 1, 3, 4, 13). -/
def Obligations.RstGivesTheResetState : Prop :=
  ∀ s : State, exec .rst s = .next
    { busy := false, done := false, err := false, empty := false, single := false,
      errcode := 0#4, errinfo := 0#32, errpos := 0#32, icap := s.icap, ocap := s.ocap,
      inLen := 0#32, outLen := 0#32, nbits := 0#32, root := 0x1FF#9, nnodes := 0#10, nsym := 0#9,
      heapSize := 0#9, acc := 0#8, bitcnt := 0#4, cur := 0x1FF#9, freq := [], node := [], code := [],
      heap := [], ibuf := s.ibuf, obuf := [], script := s.script, readData := s.readData,
      draws := s.draws, epoch := s.epoch }

/-- R172: CLRE, whether ERR is 0 or 1. -/
def Obligations.ClreClearsTheFault : Prop :=
  ∀ s : State, exec .clre s = .next { s with
    err := false, errcode := 0#4, errinfo := 0#32, errpos := 0#32, done := true, busy := false }

/-- R173: OTI copies the output sequence to IBUF and its length to IN_LEN; with OUT_LEN > IBUF_CAP it
faults before any write. -/
def Obligations.OtiCopiesOutputToInput : Prop :=
  ∀ s : State, s.err = false →
    (s.outLen ≤ s.icap → ∃ t : State, exec .oti s = .next t ∧
      t = { s with done := true, busy := false, ibuf := t.ibuf, inLen := s.outLen } ∧
      ∀ k, ibufByte t k = if k < s.outLen.toNat then obufByte s k else ibufByte s k) ∧
    (s.icap < s.outLen → exec .oti s = .next { s with
      errcode := 5#4, errinfo := 2#32, errpos := s.outLen, err := true, done := false,
      busy := false, acc := 0#8, bitcnt := 0#4, cur := Config.nil })

/-! ### The frequency counter (spec/41_frequency_counter.md) -/

/-- R80, R81, R83, R84: CNT counts the input bytes and writes nothing else. -/
def Obligations.CntCountsTheInput : Prop :=
  ∀ s : State, s.err = false → s.inLen ≤ s.icap →
    ∃ t : State, exec .cnt s = .next t ∧
      t = { s with done := true, busy := false, freq := t.freq } ∧
      ∀ b : Byte, (freqAt t b.toNat).toNat = (inputBytes s).count b

/-- R82: no entry exceeds 2^20, and the entries sum to IN_LEN. -/
def Obligations.CntSumsToInLen : Prop :=
  ∀ s t : State, s.err = false → capWf s.icap = true → s.inLen ≤ s.icap → exec .cnt s = .next t →
    (∀ b, b < 256 → (freqAt t b).toNat ≤ 2 ^ 20) ∧ freqTotal t = s.inLen.toNat

/-! ### The tree builder (spec/42_tree_builder.md) -/

/-- R109: HEAP_PUSH and HEAP_POP keep the heap order and the entries; HEAP_POP takes the least key. -/
def Obligations.HeapPushAndPopKeepTheOrder : Prop :=
  ∀ (node : Table NodeRec) (h : List Idx), isHeap (less node) h →
    (∀ i, isHeap (less node) (pushed (less node) h i) ∧ (pushed (less node) h i).Perm (i :: h)) ∧
    (h ≠ [] → isHeap (less node) (popped (less node) h) ∧
      (heapAt h 0 :: popped (less node) h).Perm h ∧
      ∀ x ∈ h, x ≠ heapAt h 0 → less node (heapAt h 0) x = true)

/-- R90, R99, R100: BLD completes from every FREQ; the tree registers, the flags, HEAP; its frame. -/
def Obligations.BldCompletesFromEveryTable : Prop :=
  ∀ s : State, s.err = false →
    ∃ t : State, exec .bld s = .next t ∧
      t = { s with
        done := true, busy := false, node := t.node, code := t.code, heap := t.heap,
        heapSize := t.heapSize, root := t.root, nnodes := t.nnodes, nsym := t.nsym,
        empty := t.empty, single := t.single } ∧
      t.nsym.toNat = (presentSymbols s).length ∧
      t.nnodes.toNat = 2 * (presentSymbols s).length - 1 ∧
      (t.empty = true ↔ presentSymbols s = []) ∧
      (t.single = true ↔ (presentSymbols s).length = 1) ∧
      (presentSymbols s = [] → t.root = Config.nil ∧ t.heapSize = 0#9) ∧
      (presentSymbols s ≠ [] → t.root = BitVec.ofNat 9 (2 * (presentSymbols s).length - 2) ∧
        t.heapSize = 1#9 ∧ heapAt t.heap 0 = t.root)

/-- R101: the empty table. -/
def Obligations.BldOnTheEmptyTable : Prop :=
  ∀ s : State, s.err = false → (∀ b, b < 256 → freqAt s b = 0#32) →
    exec .bld s = .next { s with
      nsym := 0#9, nnodes := 0#10, heapSize := 0#9, root := Config.nil, node := [], code := [],
      heap := [], empty := true, single := false, done := true, busy := false }

/-- R102: one symbol: the single leaf and the code "0". -/
def Obligations.BldOnOneSymbol : Prop :=
  ∀ (s : State) (b : Nat), s.err = false → b < 256 → freqAt s b ≠ 0#32 →
    (∀ c, c < 256 → c ≠ b → freqAt s c = 0#32) →
    exec .bld s = .next { s with
      node := [(0, NodeRec.mk .leaf (BitVec.ofNat 8 b) ((freqAt s b).setWidth 40) 0x1FF#9 0x1FF#9 0x1FF#9)],
      root := 0#9, nnodes := 1#10, nsym := 1#9, heapSize := 1#9, heap := [0#9],
      code := [(b, CodeEntry.mk 1#8 0#256)], single := true, empty := false,
      done := true, busy := false }

/-- R93: the leaves take the indexes 0 to n - 1 in ascending byte value. -/
def Obligations.BldSeedsLeavesInByteOrder : Prop :=
  ∀ s t : State, s.err = false → exec .bld s = .next t →
    ∀ m, m < (presentSymbols s).length →
      (nodeAt t (BitVec.ofNat 9 m)).kind = .leaf ∧
      (nodeAt t (BitVec.ofNat 9 m)).sym = BitVec.ofNat 8 ((presentSymbols s).getD m 0) ∧
      (nodeAt t (BitVec.ofNat 9 m)).freq =
        (freqAt s ((presentSymbols s).getD m 0)).setWidth 40 ∧
      (nodeAt t (BitVec.ofNat 9 m)).left = Config.nil ∧
      (nodeAt t (BitVec.ofNat 9 m)).right = Config.nil

/-- R94, R97, R98, R99: record k merges the two least keys of the nodes then in the queue (those
below k with no parent yet), the least LEFT, with the exact sum of their frequencies. -/
def Obligations.BldMergesTheTwoLeast : Prop :=
  ∀ s t : State, s.err = false → exec .bld s = .next t →
    ∀ k : Idx, (presentSymbols s).length ≤ k.toNat → k.toNat < t.nnodes.toNat →
      (nodeAt t k).kind = .internal ∧ (nodeAt t k).sym = 0#8 ∧
      (nodeAt t k).freq.toNat =
        (nodeAt t (nodeAt t k).left).freq.toNat + (nodeAt t (nodeAt t k).right).freq.toNat ∧
      less t.node (nodeAt t k).left (nodeAt t k).right = true ∧
      ∀ x : Idx, x < k → k ≤ (nodeAt t x).parent →
        x ≠ (nodeAt t k).left → x ≠ (nodeAt t k).right → less t.node (nodeAt t k).right x = true

/-- R23: the shape of a built tree. -/
def Obligations.BldTreeShape : Prop :=
  ∀ s t : State, s.err = false → exec .bld s = .next t →
    (t.nnodes ≠ 0#10 → t.root.toNat < t.nnodes.toNat) ∧
    (∀ i : Idx, t.nnodes.toNat ≤ i.toNat → nodeAt t i = clearedNode) ∧
    (∀ i : Idx, i.toNat < t.nnodes.toNat →
      ((nodeAt t i).kind = .leaf ∧ (nodeAt t i).left = Config.nil ∧
          (nodeAt t i).right = Config.nil ∨
        (nodeAt t i).kind = .internal ∧ (nodeAt t i).left ≠ (nodeAt t i).right ∧
          (nodeAt t i).left < i ∧ (nodeAt t i).right < i ∧
          (nodeAt t (nodeAt t i).left).parent = i ∧ (nodeAt t (nodeAt t i).right).parent = i) ∧
      ((nodeAt t i).parent = Config.nil ↔ i = t.root) ∧
      ∃ p : List Bool, walkTo t t.root p = i)

/-- R108: frequency conservation; the sum is IN_LEN when CNT wrote FREQ. -/
def Obligations.BldConservesFrequency : Prop :=
  ∀ s t : State, s.err = false → presentSymbols s ≠ [] → exec .bld s = .next t →
    (nodeAt t t.root).freq.toNat = freqTotal s ∧
    (((List.range t.nnodes.toNat).filter
        (fun i => (nodeAt t (BitVec.ofNat 9 i)).kind = .leaf)).map
          (fun i => (nodeAt t (BitVec.ofNat 9 i)).freq.toNat)).sum = freqTotal s ∧
    ∀ r : State, r.err = false → capWf r.icap = true → r.inLen ≤ r.icap →
      exec .cnt r = .next s → freqTotal s = r.inLen.toNat

/-- R112 with R103: with two or more symbols the code of each leaf's byte is the path to that leaf;
a byte with FREQ = 0 has no code. -/
def Obligations.BldCodesAreThePaths : Prop :=
  ∀ s t : State, s.err = false → exec .bld s = .next t →
    (2 ≤ (presentSymbols s).length → ∀ i : Idx, i.toNat < t.nnodes.toNat →
      (nodeAt t i).kind = .leaf →
      walkTo t t.root (codeBits (codeAt t (nodeAt t i).sym)) = i ∧
      leadsTo t t.root (codeBits (codeAt t (nodeAt t i).sym)) (nodeAt t i).sym = true ∧
      codeAt t (nodeAt t i).sym = codeOfPath (codeBits (codeAt t (nodeAt t i).sym))) ∧
    (∀ b : Byte, freqAt s b.toNat = 0#32 → codeAt t b = clearedCode)

/-- R106: every code of a tree with n leaves has between 1 and 255 bits, at most n - 1 when n ≥ 2. -/
def Obligations.BldCodeLengths : Prop :=
  ∀ s t : State, s.err = false → exec .bld s = .next t →
    ∀ b : Byte, freqAt s b.toNat ≠ 0#32 →
      1 ≤ (codeAt t b).clen.toNat ∧ (codeAt t b).clen.toNat ≤ 255 ∧
      (2 ≤ (presentSymbols s).length →
        (codeAt t b).clen.toNat ≤ (presentSymbols s).length - 1)

/-- R107: prefix-free. -/
def Obligations.BldCodesArePrefixFree : Prop :=
  ∀ s t : State, s.err = false → exec .bld s = .next t →
    ∀ a b : Byte, a ≠ b → hasCode t a = true → hasCode t b = true →
      ¬ (codeBits (codeAt t a)).IsPrefix (codeBits (codeAt t b))

/-- R105: BLD is a function of FREQ, whatever the block held before. -/
def Obligations.BldIsAFunctionOfFreq : Prop :=
  ∀ s s' t t' : State, s.err = false → s'.err = false →
    (∀ b, b < 256 → freqAt s b = freqAt s' b) →
    exec .bld s = .next t → exec .bld s' = .next t' →
    t.node = t'.node ∧ t.root = t'.root ∧ t.nnodes = t'.nnodes ∧ t.nsym = t'.nsym ∧
    t.code = t'.code ∧ t.empty = t'.empty ∧ t.single = t'.single ∧ t.heapSize = t'.heapSize ∧
    t.heap = t'.heap

/-! ### The encoder (spec/43_encoder.md) -/

/-- R120, R121, R122, R124: ENC packs the concatenation of the codes; the size; its frame (R126). -/
def Obligations.EncPacksTheCodes : Prop :=
  ∀ s : State, s.err = false → s.inLen ≤ s.icap → (∀ b ∈ inputBytes s, hasCode s b = true) →
    ((codesOf s (inputBytes s)).length + 7) / 8 ≤ s.ocap.toNat →
    ∃ t : State, exec .enc s = .next t ∧
      t = { s with
        done := true, busy := false, obuf := t.obuf, outLen := t.outLen, nbits := t.nbits,
        acc := 0#8, bitcnt := 0#4 } ∧
      t.nbits = BitVec.ofNat 32 (codesOf s (inputBytes s)).length ∧
      (capWf s.ocap = true → t.nbits.toNat = (codesOf s (inputBytes s)).length) ∧
      t.outLen.toNat = ((codesOf s (inputBytes s)).length + 7) / 8 ∧
      ∀ k, k < 8 * t.outLen.toNat → outputBit t k = (codesOf s (inputBytes s)).getD k false

/-- R123: the first byte without a code, before any bit of it is packed (R191). -/
def Obligations.EncFaultsOnUnknownSymbol : Prop :=
  ∀ (s : State) (pre post : List Byte) (b : Byte),
    s.err = false → s.inLen ≤ s.icap → inputBytes s = pre ++ b :: post →
    (∀ c ∈ pre, hasCode s c = true) → hasCode s b = false →
    (codesOf s pre).length / 8 ≤ s.ocap.toNat →
    exec .enc s = .next { s with
      errcode := 2#4, errinfo := b.setWidth 32, errpos := BitVec.ofNat 32 pre.length, err := true,
      done := false, busy := false, outLen := 0#32, obuf := [], nbits := 0#32, acc := 0#8,
      bitcnt := 0#4, cur := Config.nil }

/-- R127: the byte that does not fit OBUF: while packing input byte i, or the final padded byte. -/
def Obligations.EncFaultsWhenOutputTooLong : Prop :=
  ∀ s : State, s.err = false → s.inLen ≤ s.icap →
    (∀ (pre post : List Byte) (b : Byte), inputBytes s = pre ++ b :: post →
      (∀ c ∈ pre, hasCode s c = true) → hasCode s b = true →
      (codesOf s pre).length / 8 ≤ s.ocap.toNat →
      s.ocap.toNat < (codesOf s (pre ++ [b])).length / 8 →
      exec .enc s = .next { s with
        errcode := 5#4, errinfo := 0#32, errpos := BitVec.ofNat 32 pre.length, err := true,
        done := false, busy := false, outLen := 0#32, obuf := [], nbits := 0#32, acc := 0#8,
        bitcnt := 0#4, cur := Config.nil }) ∧
    ((∀ c ∈ inputBytes s, hasCode s c = true) →
      (codesOf s (inputBytes s)).length / 8 = s.ocap.toNat →
      (codesOf s (inputBytes s)).length % 8 ≠ 0 →
      exec .enc s = .next { s with
        errcode := 5#4, errinfo := 0#32, errpos := s.inLen, err := true,
        done := false, busy := false, outLen := 0#32, obuf := [], nbits := 0#32, acc := 0#8,
        bitcnt := 0#4, cur := Config.nil })

/-- R125: empty input, whatever CODE holds. -/
def Obligations.EncOnEmptyInput : Prop :=
  ∀ s : State, s.err = false → s.inLen = 0#32 →
    exec .enc s = .next { s with
      done := true, busy := false, outLen := 0#32, obuf := [], nbits := 0#32, acc := 0#8,
      bitcnt := 0#4 }

/-! ### The decoder (spec/44_decoder.md) -/

/-- R140, R141, R142, R143: one move of the cursor, case by case. -/
def Obligations.WalkStepFollowsTheTree : Prop :=
  ∀ (s : State) (k : Nat) (bit : Bool),
    ((nodeAt s s.cur).kind = .internal → childOf (nodeAt s s.cur) bit = Config.nil →
      walkStep k bit s = .error ⟨.corruptTree, s.cur.setWidth 32, BitVec.ofNat 32 k⟩) ∧
    ((nodeAt s s.cur).kind = .internal → childOf (nodeAt s s.cur) bit ≠ Config.nil →
      ((nodeAt s (childOf (nodeAt s s.cur) bit)).kind = .internal →
        walkStep k bit s = .ok { s with cur := childOf (nodeAt s s.cur) bit }) ∧
      ((nodeAt s (childOf (nodeAt s s.cur) bit)).kind = .leaf → s.outLen ≠ s.ocap →
        ∃ t, emit 1#32 (BitVec.ofNat 32 k) (nodeAt s (childOf (nodeAt s s.cur) bit)).sym s = .ok t ∧
          walkStep k bit s = .ok { t with cur := s.root }) ∧
      ((nodeAt s (childOf (nodeAt s s.cur) bit)).kind = .leaf → s.outLen = s.ocap →
        walkStep k bit s = .error ⟨.bufferOverflow, 1#32, BitVec.ofNat 32 k⟩) ∧
      ((nodeAt s (childOf (nodeAt s s.cur) bit)).kind ∈ [Kind.free, Kind.reserved] →
        walkStep k bit s = .error
          ⟨.corruptTree, (childOf (nodeAt s s.cur) bit).setWidth 32, BitVec.ofNat 32 k⟩)) ∧
    ((nodeAt s s.cur).kind = .leaf → bit = true →
      walkStep k bit s = .error ⟨.corruptStream, 1#32, BitVec.ofNat 32 k⟩) ∧
    ((nodeAt s s.cur).kind = .leaf → bit = false →
      walkStep k bit s = emit 1#32 (BitVec.ofNat 32 k) (nodeAt s s.cur).sym s) ∧
    ((nodeAt s s.cur).kind ∈ [Kind.free, Kind.reserved] →
      walkStep k bit s = .error ⟨.corruptTree, s.cur.setWidth 32, BitVec.ofNat 32 k⟩)

/-- R135, R140, R141, R145: DEC of a concatenation of codewords gives their bytes; its frame (R149).
After them, bits that lead on INTERNAL records back to ROOT's index emit nothing and are no fault (R150). -/
def Obligations.DecDecodesCodewords : Prop :=
  ∀ (s : State) (ws : List (List Bool × Byte)) (p : List Bool),
    s.err = false → s.inLen ≤ s.icap → s.nbits.toNat ≤ 8 * s.inLen.toNat → s.root ≠ Config.nil →
    inputBits s s.nbits.toNat = ws.flatMap Prod.fst ++ p →
    (∀ w ∈ ws, codeword s w.1 w.2 = true) → (p = [] ∨ staysInside s s.root p = true) →
    walkTo s s.root p = s.root → ws.length ≤ s.ocap.toNat →
    ∃ t : State, exec .dec s = .next t ∧
      t = { s with
        done := true, busy := false, obuf := t.obuf, outLen := t.outLen, cur := Config.nil } ∧
      t.outLen.toNat = ws.length ∧ outputBytes t = ws.map Prod.snd

/-- R136, R146: DECX consumes all 8·IN_LEN bits; a path the last bits leave unfinished is dropped. -/
def Obligations.DecxDecodesEveryBit : Prop :=
  ∀ (s : State) (ws : List (List Bool × Byte)) (p : List Bool),
    s.err = false → s.inLen ≤ s.icap → s.root ≠ Config.nil →
    inputBits s (8 * s.inLen.toNat) = ws.flatMap Prod.fst ++ p →
    (∀ w ∈ ws, codeword s w.1 w.2 = true) → (p = [] ∨ staysInside s s.root p = true) →
    ws.length ≤ s.ocap.toNat →
    ∃ t : State, exec .decx s = .next t ∧
      t = { s with
        done := true, busy := false, obuf := t.obuf, outLen := t.outLen, cur := Config.nil } ∧
      t.outLen.toNat = ws.length ∧ outputBytes t = ws.map Prod.snd

/-- R145: DEC whose NBITS bits end inside a code. -/
def Obligations.DecFaultsInsideACode : Prop :=
  ∀ (s : State) (ws : List (List Bool × Byte)) (p : List Bool),
    s.err = false → s.inLen ≤ s.icap → s.nbits.toNat ≤ 8 * s.inLen.toNat → s.root ≠ Config.nil →
    inputBits s s.nbits.toNat = ws.flatMap Prod.fst ++ p →
    (∀ w ∈ ws, codeword s w.1 w.2 = true) → ws.length ≤ s.ocap.toNat →
    staysInside s s.root p = true → walkTo s s.root p ≠ s.root →
    exec .dec s = .next { s with
      errcode := 4#4, errinfo := 2#32, errpos := s.nbits, err := true, done := false, busy := false,
      outLen := 0#32, obuf := [], acc := 0#8, bitcnt := 0#4, cur := Config.nil }

/-- R147: with no bit to consume the tree is not looked at; with bits and no tree, CorruptTree(NIL, 0). -/
def Obligations.DecodingNothingSucceeds : Prop :=
  ∀ s : State, s.err = false → s.inLen ≤ s.icap →
    (s.nbits = 0#32 → exec .dec s = .next { s with
      done := true, busy := false, outLen := 0#32, obuf := [], cur := Config.nil }) ∧
    (s.inLen = 0#32 → exec .decx s = .next { s with
      done := true, busy := false, outLen := 0#32, obuf := [], cur := Config.nil }) ∧
    (s.root = Config.nil → s.nbits ≠ 0#32 → s.nbits.toNat ≤ 8 * s.inLen.toNat →
      exec .dec s = .next { s with
        errcode := 3#4, errinfo := 0x1FF#32, errpos := 0#32, err := true, done := false,
        busy := false, outLen := 0#32, obuf := [], acc := 0#8, bitcnt := 0#4, cur := Config.nil }) ∧
    (s.root = Config.nil → s.inLen ≠ 0#32 → exec .decx s = .next { s with
      errcode := 3#4, errinfo := 0x1FF#32, errpos := 0#32, err := true, done := false,
      busy := false, outLen := 0#32, obuf := [], acc := 0#8, bitcnt := 0#4, cur := Config.nil })

/-- R144 sub-cause 3, before any bit is read (R191 (4)): more bits asked for than IBUF holds. -/
def Obligations.DecFaultsOnTooManyBits : Prop :=
  ∀ s : State, s.err = false → s.inLen ≤ s.icap → 8 * s.inLen.toNat < s.nbits.toNat →
    exec .dec s = .next { s with
      errcode := 4#4, errinfo := 3#32, errpos := BitVec.ofNat 32 (8 * s.inLen.toNat), err := true,
      done := false, busy := false, outLen := 0#32, obuf := [], acc := 0#8, bitcnt := 0#4,
      cur := Config.nil }

/-- R142 (b), (c), R143: a missing child, or a FREE or reserved record, met by DEC or DECX after the
codewords ws and the path p inside the tree: CorruptTree naming the record x. -/
def Obligations.DecFaultsOnACorruptTree : Prop :=
  ∀ (s : State) (i : Instr) (nb : Nat) (ws : List (List Bool × Byte)) (p rest : List Bool)
    (bit : Bool) (x : Idx),
    (i, nb) ∈ [(Instr.dec, s.nbits.toNat), (.decx, 8 * s.inLen.toNat)] →
    s.err = false → s.inLen ≤ s.icap → nb ≤ 8 * s.inLen.toNat → s.root ≠ Config.nil →
    inputBits s nb = ws.flatMap Prod.fst ++ p ++ bit :: rest →
    (∀ w ∈ ws, codeword s w.1 w.2 = true) → (p = [] ∨ staysInside s s.root p = true) →
    ws.length ≤ s.ocap.toNat →
    ((nodeAt s (walkTo s s.root p)).kind = .internal ∧
        childOf (nodeAt s (walkTo s s.root p)) bit = Config.nil ∧ x = walkTo s s.root p ∨
      (nodeAt s (walkTo s s.root p)).kind = .internal ∧
        x = childOf (nodeAt s (walkTo s s.root p)) bit ∧ x ≠ Config.nil ∧
        (nodeAt s x).kind ∈ [Kind.free, Kind.reserved] ∨
      x = walkTo s s.root p ∧ (nodeAt s x).kind ∈ [Kind.free, Kind.reserved]) →
    exec i s = .next { s with
      errcode := 3#4, errinfo := x.setWidth 32,
      errpos := BitVec.ofNat 32 ((ws.flatMap Prod.fst).length + p.length), err := true,
      done := false, busy := false, outLen := 0#32, obuf := [], acc := 0#8, bitcnt := 0#4,
      cur := Config.nil }

/-- R141: a root that is a leaf: every 0 bit emits its byte, a 1 bit after k 0 bits is CorruptStream. -/
def Obligations.LeafRootDecodesZeroBits : Prop :=
  ∀ (s : State) (i : Instr) (nb k : Nat) (rest : List Bool),
    (i, nb) ∈ [(Instr.dec, s.nbits.toNat), (.decx, 8 * s.inLen.toNat)] →
    s.err = false → s.inLen ≤ s.icap → nb ≤ 8 * s.inLen.toNat → s.root ≠ Config.nil →
    (nodeAt s s.root).kind = .leaf → k ≤ s.ocap.toNat →
    (inputBits s nb = List.replicate k false → ∃ t : State, exec i s = .next t ∧
      t = { s with
        done := true, busy := false, obuf := t.obuf, outLen := t.outLen, cur := Config.nil } ∧
      t.outLen.toNat = k ∧ outputBytes t = List.replicate k (nodeAt s s.root).sym) ∧
    (inputBits s nb = List.replicate k false ++ true :: rest →
      exec i s = .next { s with
        errcode := 4#4, errinfo := 1#32, errpos := BitVec.ofNat 32 k, err := true, done := false,
        busy := false, outLen := 0#32, obuf := [], acc := 0#8, bitcnt := 0#4, cur := Config.nil })

/-- R148: the symbol that does not fit OBUF, at the bit that completes it. -/
def Obligations.DecFaultsWhenOutputTooLong : Prop :=
  ∀ (s : State) (i : Instr) (nb : Nat) (ws : List (List Bool × Byte)) (w : List Bool × Byte)
    (rest : List Bool),
    (i, nb) ∈ [(Instr.dec, s.nbits.toNat), (.decx, 8 * s.inLen.toNat)] →
    s.err = false → s.inLen ≤ s.icap → nb ≤ 8 * s.inLen.toNat → s.root ≠ Config.nil →
    inputBits s nb = ws.flatMap Prod.fst ++ w.1 ++ rest →
    (∀ v ∈ ws, codeword s v.1 v.2 = true) → codeword s w.1 w.2 = true →
    ws.length = s.ocap.toNat →
    exec i s = .next { s with
      errcode := 5#4, errinfo := 1#32,
      errpos := BitVec.ofNat 32 ((ws.flatMap Prod.fst).length + w.1.length - 1), err := true,
      done := false, busy := false, outLen := 0#32, obuf := [], acc := 0#8, bitcnt := 0#4,
      cur := Config.nil }

/-! ### The orchestrator's laws (spec/45_orchestrator.md) -/

/-- R157: in CMP every input byte has a code after CNT and BLD, and ENC never raises UnknownSymbol. -/
def Obligations.CmpNeverMeetsAnUnknownSymbol : Prop :=
  ∀ s t u v : State, s.err = false → s.inLen ≤ s.icap →
    exec .cnt s = .next t → exec .bld t = .next u → exec .enc u = .next v →
    (∀ b ∈ inputBytes u, hasCode u b = true) ∧ (v.err = true → v.errcode ≠ 2#4)

/-- R162: the size of the result of CMP. -/
def Obligations.CmpResultSize : Prop :=
  ∀ s t u v : State, s.err = false → s.inLen ≤ s.icap → capWf s.icap = true →
    capWf s.ocap = true →
    exec .cnt s = .next t → exec .bld t = .next u → exec .enc u = .next v → v.err = false →
    v.nbits.toNat = ((List.range 256).map
      (fun b => (freqAt v b).toNat * (codeAt v (BitVec.ofNat 8 b)).clen.toNat)).sum ∧
    v.outLen.toNat = (v.nbits.toNat + 7) / 8

/-- R158: the round trip LOAD B; CMP; OTI; DCMP, run by the block's own steps from the host's script.
The capacity hypotheses are those of the rule; the compressed length is that of the code table CNT and
BLD leave. -/
def Obligations.RoundTrip : Prop :=
  ∀ (s : State) (bs : List Byte) (rest : List HostAction),
    s.busy = false → s.err = false → capWf s.icap = true → capWf s.ocap = true →
    bs.length ≤ s.icap.toNat → bs.length ≤ s.ocap.toNat →
    s.script = load bs ++ cmp ++ give .oti :: dcmp ++ rest →
    (∀ u, core.run ((load bs).length + 2) s = .next u →
      ((codesOf u (inputBytes u)).length + 7) / 8 ≤ s.ocap.toNat ∧
      ((codesOf u (inputBytes u)).length + 7) / 8 ≤ s.icap.toNat) →
    ∃ t : State, core.run ((load bs).length + 5) s = .next t ∧ t.err = false ∧ t.done = true ∧
      t.script = rest ∧ t.outLen.toNat = bs.length ∧ outputBytes t = bs

/-- R70, R45: LOAD puts the bytes in IBUF from index 0 on and their number in IN_LEN. -/
def Obligations.LoadPlacesTheInput : Prop :=
  ∀ (s : State) (bs : List Byte) (rest : List HostAction),
    s.busy = false → capWf s.icap = true → bs.length ≤ s.icap.toNat → s.script = load bs ++ rest →
    ∃ t : State, core.run (load bs).length s = .next t ∧
      t = { s with script := rest, ibuf := t.ibuf, inLen := t.inLen } ∧
      t.inLen.toNat = bs.length ∧ inputBytes t = bs

/-! ### Faults and the whole machine (spec/10_state.md R28, spec/60_exceptions.md) -/

/-- R192: what a fault of command i does, taken from the state at the command's start. -/
def Obligations.RaiseRecordsTheFault : Prop :=
  ∀ (i : Instr) (f : Trap) (s t : State), t = raise (discardOf i) f s →
    t.errcode = causeCode f.cause ∧ t.errinfo = f.info ∧ t.errpos = f.pos ∧ t.err = true ∧
    t.done = false ∧ t.outLen = (if i ∈ [Instr.enc, .dec, .decx] then 0#32 else s.outLen) ∧
    (i ∉ [Instr.enc, .dec, .decx] → t.obuf = s.obuf) ∧
    t.nbits = (if i = .enc then 0#32 else s.nbits) ∧ t.acc = 0#8 ∧ t.bitcnt = 0#4 ∧
    t.cur = Config.nil ∧
    t = { s with
      errcode := t.errcode, errinfo := t.errinfo, errpos := t.errpos, err := t.err, done := t.done,
      busy := false, outLen := t.outLen, obuf := t.obuf, nbits := t.nbits, acc := t.acc,
      bitcnt := t.bitcnt, cur := t.cur }

/-- R194: an accepted command (R193) either completes (DONE = 1, ERR = 0), or takes one fault from the
state it started in (DONE = 0, ERR = 1), or is RST (STATUS = 0). RST, CLRE, NOP and BLD never fault. -/
def Obligations.CommandCompletesOrFaults : Prop :=
  ∀ (i : Instr) (s t : State), exec i s = .next t → (s.err = false ∨ i ∈ [Instr.rst, .clre]) →
    (i = .rst ∧ statusWord t = 0#32 ∨
      i ≠ .rst ∧ t.done = true ∧ t.err = false ∧ t.errcode = (if i = .clre then 0#4 else s.errcode) ∨
      i ∉ [Instr.rst, .clre, .nop, .bld] ∧ t.done = false ∧ t.err = true ∧
        ∃ f : Trap, t = raise (discardOf i) f s) ∧
    t.busy = false

/-- R186: which command raises which cause, with which sub-cause. -/
def Obligations.FaultCausesByCommand : Prop :=
  ∀ (i : Instr) (s t : State), exec i s = .next t → s.err = false → t.err = true →
    (i = .oti → t.errcode = 5#4 ∧ t.errinfo = 2#32 ∧ t.errpos = s.outLen) ∧
    (i = .cnt → t.errcode = 5#4 ∧ t.errinfo = 3#32 ∧ t.errpos = s.inLen) ∧
    (i = .enc → t.errcode = 2#4 ∧ t.errinfo.toNat < 256 ∧ t.errpos < s.inLen ∨
      t.errcode = 5#4 ∧ (t.errinfo = 0#32 ∧ t.errpos ≤ s.inLen ∨
        t.errinfo = 3#32 ∧ t.errpos = s.inLen)) ∧
    (i = .dec → t.errcode = 3#4 ∧ t.errinfo.toNat < 512 ∧ t.errpos < s.nbits ∨
      t.errcode = 4#4 ∧ (t.errinfo = 1#32 ∧ t.errpos < s.nbits ∨
        t.errinfo = 2#32 ∧ t.errpos = s.nbits ∨
        t.errinfo = 3#32 ∧ t.errpos = BitVec.ofNat 32 (8 * s.inLen.toNat)) ∨
      t.errcode = 5#4 ∧ (t.errinfo = 1#32 ∧ t.errpos < s.nbits ∨
        t.errinfo = 3#32 ∧ t.errpos = s.inLen)) ∧
    (i = .decx →
      t.errcode = 3#4 ∧ t.errinfo.toNat < 512 ∧ t.errpos.toNat < 8 * s.inLen.toNat ∨
      t.errcode = 4#4 ∧ t.errinfo = 1#32 ∧ t.errpos.toNat < 8 * s.inLen.toNat ∨
      t.errcode = 5#4 ∧ (t.errinfo = 1#32 ∧ t.errpos.toNat < 8 * s.inLen.toNat ∨
        t.errinfo = 3#32 ∧ t.errpos = s.inLen))

/-- R190: sub-cause 3, IN_LEN > IBUF_CAP, is tested before anything else. -/
def Obligations.InputLengthIsTestedFirst : Prop :=
  ∀ s : State, s.err = false → s.icap < s.inLen →
    ∀ i ∈ [Instr.cnt, .enc, .dec, .decx],
      exec i s = .next (raise (discardOf i) ⟨.bufferOverflow, 3#32, s.inLen⟩ s)

/-- R28: the write-effect matrix: what each command leaves unchanged, memories through their reads. -/
def Obligations.WriteEffectMatrix : Prop :=
  ∀ (i : Instr) (s t : State), exec i s = .next t →
    (i ∉ [Instr.rst, .cnt] → ∀ b, freqAt t b = freqAt s b) ∧
    (i ∉ [Instr.rst, .bld] →
      (∀ j, nodeAt t j = nodeAt s j) ∧ t.root = s.root ∧ t.nnodes = s.nnodes ∧ t.nsym = s.nsym ∧
      t.heapSize = s.heapSize ∧ t.heap = s.heap ∧ (∀ b, codeAt t b = codeAt s b) ∧
      t.empty = s.empty ∧ t.single = s.single) ∧
    (i ≠ .oti → ∀ k, ibufByte t k = ibufByte s k) ∧
    (i ∉ [Instr.rst, .oti] → t.inLen = s.inLen) ∧
    (i ∉ [Instr.rst, .enc, .dec, .decx] →
      t.outLen = s.outLen ∧ ∀ k, obufByte t k = obufByte s k) ∧
    (i ∉ [Instr.rst, .enc] → t.nbits = s.nbits) ∧
    (i ∉ [Instr.rst, .clre] → t.err = s.err →
      t.errcode = s.errcode ∧ t.errinfo = s.errinfo ∧ t.errpos = s.errpos) ∧
    (i ∉ [Instr.rst, .enc] → t.err = s.err → t.acc = s.acc ∧ t.bitcnt = s.bitcnt) ∧
    (i ∉ [Instr.rst, .dec, .decx] → t.err = s.err → t.cur = s.cur) ∧
    t.icap = s.icap ∧ t.ocap = s.ocap ∧ t.script = s.script

/-! ### Host accesses (spec/20_memory.md) -/

/-- R42, R52: a host read changes no state of the block. -/
def Obligations.HostReadChangesNoState : Prop :=
  ∀ (s : State) (addr width : Nat) (rest : List HostAction),
    s.script = .read addr width :: rest →
    ∃ v : Word, step s = .next { s with script := rest, readData := v, draws := s.draws + 1 } ∧
      v = readValue { s with script := rest } addr width

/-- R12, R16, R17, R31, R41, R42: the registers at their offsets, unused upper bits 0. -/
def Obligations.RegistersReadAtTheirOffsets : Prop :=
  ∀ s : State, s.busy = false →
    readValue s 0x00 4 = 0#32 ∧
    readValue s 0x04 4 = (if s.done then 2#32 else 0#32) + (if s.err then 4#32 else 0#32) +
      (if s.empty then 8#32 else 0#32) + (if s.single then 16#32 else 0#32) ∧
    readValue s 0x08 4 = s.errcode.setWidth 32 ∧ readValue s 0x0C 4 = s.errinfo ∧
    readValue s 0x10 4 = s.errpos ∧ readValue s 0x14 4 = s.inLen ∧ readValue s 0x18 4 = s.outLen ∧
    readValue s 0x1C 4 = s.nbits ∧ readValue s 0x20 4 = s.root.setWidth 32 ∧
    readValue s 0x24 4 = s.nnodes.setWidth 32 ∧ readValue s 0x28 4 = s.nsym.setWidth 32 ∧
    readValue s 0x2C 4 = s.heapSize.setWidth 32 ∧ readValue s 0x30 4 = 0x48434301#32 ∧
    readValue s 0x34 4 = s.icap ∧ readValue s 0x38 4 = s.ocap

/-- R48, R49, R50: the memories at their offsets, field by field. -/
def Obligations.MemoriesReadAtTheirOffsets : Prop :=
  ∀ s : State, s.busy = false →
    (∀ b, b < 256 → readValue s (0x400 + 4 * b) 4 = freqAt s b) ∧
    (∀ p, p < 256 → p < s.heapSize.toNat → p < s.heap.length →
      readValue s (0x800 + 4 * p) 4 = (heapAt s.heap p).setWidth 32) ∧
    (∀ i : Idx, i ≠ Config.nil →
      readValue s (0x2000 + 16 * i.toNat) 4 =
        (kindBits (nodeAt s i).kind).setWidth 32 ||| ((nodeAt s i).sym.setWidth 32 <<< 8) ∧
      readValue s (0x2000 + 16 * i.toNat + 4) 4 = (nodeAt s i).freq.setWidth 32 ∧
      readValue s (0x2000 + 16 * i.toNat + 8) 4 = ((nodeAt s i).freq >>> 32).setWidth 32 ∧
      readValue s (0x2000 + 16 * i.toNat + 12) 4 =
        (nodeAt s i).left.setWidth 32 ||| ((nodeAt s i).right.setWidth 32 <<< 9) |||
          ((nodeAt s i).parent.setWidth 32 <<< 18)) ∧
    (∀ b : Byte, readValue s (0x4000 + 64 * b.toNat) 4 = (codeAt s b).clen.setWidth 32) ∧
    (∀ (b : Byte) (j : Nat), j < 256 →
      (readValue s (0x4000 + 64 * b.toNat + 4 * (1 + j / 32)) 4).getLsbD (31 - j % 32) =
        codeBit (codeAt s b) j)

/-- R45: byte lanes of IBUF and OBUF on the bus; OBUF below OUT_LEN. -/
def Obligations.BufferLanes : Prop :=
  ∀ (s : State) (k : Nat), s.busy = false →
    (k < s.icap.toNat → k < 0x100000 → s.icap.toNat % 4 = 0 →
      byteLane (readValue s (0x100000 + 4 * (k / 4)) 4) k = ibufByte s k) ∧
    (k < s.ocap.toNat → k < 0x200000 → s.ocap.toNat % 4 = 0 → k < s.outLen.toNat →
      byteLane (readValue s (0x200000 + 4 * (k / 4)) 4) k = obufByte s k)

/-- R43, R32, R45, R48, R49: a host write stores the bits of the written location, and a read gives
them back: the fields of the word, the other bits dropped. -/
def Obligations.HostWritesReadBack : Prop :=
  ∀ (s : State) (v : Word), s.busy = false →
    readValue (hostWrite s 0x14 4 v) 0x14 4 = v ∧
    readValue (hostWrite s 0x1C 4 v) 0x1C 4 = v ∧
    readValue (hostWrite s 0x20 4 v) 0x20 4 = v &&& 0x1FF#32 ∧
    (∀ b, b < 256 → readValue (hostWrite s (0x400 + 4 * b) 4 v) (0x400 + 4 * b) 4 = v) ∧
    (∀ i w, i < 511 → w < 4 →
      readValue (hostWrite s (0x2000 + 16 * i + 4 * w) 4 v) (0x2000 + 16 * i + 4 * w) 4 =
        v &&& [0xFF03#32, 0xFFFFFFFF#32, 0xFF#32, 0x07FFFFFF#32].getD w 0#32) ∧
    (∀ b, b < 256 →
      readValue (hostWrite s (0x4000 + 64 * b) 4 v) (0x4000 + 64 * b) 4 = v &&& 0xFF#32) ∧
    (∀ b m, b < 256 → m < 8 →
      readValue (hostWrite s (0x4000 + 64 * b + 4 + 4 * m) 4 v) (0x4000 + 64 * b + 4 + 4 * m) 4 = v) ∧
    (∀ w, 4 * w < s.icap.toNat → 4 * w < 0x100000 →
      readValue (hostWrite s (0x100000 + 4 * w) 4 v) (0x100000 + 4 * w) 4 = v ∧
      ∀ j, j < 4 → ibufByte (hostWrite s (0x100000 + 4 * w) 4 v) (4 * w + j) = byteLane v j)

/-- R43, R52: a host write other than to CMD changes at most the location it names: every other
offset reads as before. -/
def Obligations.HostWriteTouchesOneLocation : Prop :=
  ∀ (s : State) (a a' : Nat) (v : Word), a' ≠ a →
    readValue (hostWrite s a 4 v) a' 4 = readValue s a' 4

/-- R43, R51: a write to a read-only or reserved location changes nothing. -/
def Obligations.ReadOnlyLocationsIgnoreWrites : Prop :=
  ∀ (s : State) (a : Nat) (v : Word),
    (0x04 ≤ a ∧ a < 0x14 ∨ 0x18 ≤ a ∧ a < 0x1C ∨ 0x24 ≤ a ∧ a < 0x400 ∨ 0x800 ≤ a ∧ a < 0x2000 ∨
      0x3FF0 ≤ a ∧ a < 0x4000 ∨ 0x4000 ≤ a ∧ a < 0x8000 ∧ 0x24 ≤ a % 0x40 ∨
      0x8000 ≤ a ∧ a < 0x100000 ∨ 0x100000 + s.icap.toNat ≤ a ∧ a < 0x200000 ∨ 0x200000 ≤ a) →
    hostWrite s a 4 v = s

/-- R51: reserved offsets read 0 and ignore writes. -/
def Obligations.ReservedOffsetsHoldNothing : Prop :=
  ∀ (s : State) (a : Nat), s.busy = false → a % 4 = 0 →
    (0x3C ≤ a ∧ a < 0x400 ∨ 0xC00 ≤ a ∧ a < 0x2000 ∨ 0x3FF0 ≤ a ∧ a < 0x4000 ∨
      0x4000 ≤ a ∧ a < 0x8000 ∧ 0x24 ≤ a % 0x40 ∨ 0x8000 ≤ a ∧ a < 0x100000 ∨
      0x100000 + s.icap.toNat ≤ a ∧ a < 0x200000 ∨
      0x200000 + s.ocap.toNat ≤ a ∧ 0x200000 ≤ a ∧ a < 0x400000) →
    readValue s a 4 = 0#32 ∧ ∀ v, hostWrite s a 4 v = s

/-- R43: a step that performs a host write at an offset other than CMD's stores exactly what
`hostWrite` stores; it never raises a fault and never changes STATUS, the error registers or a
read-only register. -/
def Obligations.HostWriteKeepsStatus : Prop :=
  ∀ (s : State) (addr width : Nat) (v : Word) (rest : List HostAction),
    s.script = .write addr width v :: rest → addr ≠ 0 →
    ∃ t : State, step s = .next t ∧ t = hostWrite { s with script := rest } addr width v ∧
      t = { s with
        script := rest, inLen := t.inLen, nbits := t.nbits, root := t.root, freq := t.freq,
        node := t.node, code := t.code, ibuf := t.ibuf }

/-- R44: an access that is not 4 bytes wide, not aligned or outside the window changes no state. -/
def Obligations.RefusedAccessesChangeNothing : Prop :=
  ∀ (s : State) (addr width : Nat) (v : Word) (rest : List HostAction),
    width ≠ 4 ∨ addr % 4 ≠ 0 ∨ 0x400000 ≤ addr →
    (s.script = .write addr width v :: rest → step s = .next { s with script := rest }) ∧
    (s.script = .read addr width :: rest → step s = .next { s with
      script := rest, readData := Config.freeWord s.draws, draws := s.draws + 1 })

/-- R57: while BUSY = 1 every write is refused and only STATUS can be read. -/
def Obligations.BusyRefusesAccesses : Prop :=
  ∀ (s : State) (addr width : Nat) (v : Word) (rest : List HostAction), s.busy = true →
    (s.script = .write addr width v :: rest → step s = .next { s with script := rest }) ∧
    (addr ≠ 0x04 → s.script = .read addr width :: rest → step s = .next { s with
      script := rest, readData := Config.freeWord s.draws, draws := s.draws + 1 })

/-! ### Reset and the invariant (spec/10_state.md R29, spec/70_reset_and_hazards.md R215, R216) -/

/-- R29, R216: the state after reset. -/
def Obligations.ResetValues : Prop :=
  statusWord State.reset = 0#32 ∧ State.reset.errcode = 0#4 ∧ State.reset.errinfo = 0#32 ∧
  State.reset.errpos = 0#32 ∧ State.reset.inLen = 0#32 ∧ State.reset.outLen = 0#32 ∧
  State.reset.nbits = 0#32 ∧ State.reset.root = 0x1FF#9 ∧ State.reset.nnodes = 0#10 ∧
  State.reset.nsym = 0#9 ∧ State.reset.heapSize = 0#9 ∧ State.reset.acc = 0#8 ∧
  State.reset.bitcnt = 0#4 ∧ State.reset.cur = 0x1FF#9 ∧ (∀ b, freqAt State.reset b = 0#32) ∧
  (∀ i, nodeAt State.reset i =
    NodeRec.mk .free 0#8 0#40 0x1FF#9 0x1FF#9 0x1FF#9) ∧
  (∀ b, codeAt State.reset b = CodeEntry.mk 0#8 0#256)

/-- R215: a hardware reset is RST but for IBUF, whose bytes are drawn anew. -/
def Obligations.HardResetIsRstButForIbuf : Prop :=
  ∀ (s t : State) (rest : List HostAction), s.script = .hardReset :: rest →
    exec .rst { s with script := rest } = .next t →
    step s = .next { t with ibuf := [], epoch := s.epoch + 1 }

/-- The invariant holds after reset. -/
def Obligations.InvHoldsAtReset : Prop := Inv State.reset

/-- Every step keeps the invariant: canonical memories within their sizes, OBUF the output sequence,
the hidden registers at rest, BUSY 0, ERR with a recorded cause, NNODES = 2·NSYM - 1. -/
def Obligations.StepKeepsInv : Prop := ∀ s t : State, Inv s → step s = .next t → Inv t
end

