-- ==== Sys2Proof/Laws/State.lean ====
section
/-! SUPPORT. For each named update of the state and each field, what the field holds afterwards; each
is true by `rfl`, so no later proof unfolds a record update. -/

namespace Sys2Proof.Machine

variable (s : State)

/-! ### start -/

@[simp] theorem start_busy : (start s).busy = true := rfl
@[simp] theorem start_done : (start s).done = false := rfl
@[simp] theorem start_err : (start s).err = s.err := rfl
@[simp] theorem start_empty : (start s).empty = s.empty := rfl
@[simp] theorem start_single : (start s).single = s.single := rfl
@[simp] theorem start_errcode : (start s).errcode = s.errcode := rfl
@[simp] theorem start_errinfo : (start s).errinfo = s.errinfo := rfl
@[simp] theorem start_errpos : (start s).errpos = s.errpos := rfl
@[simp] theorem start_icap : (start s).icap = s.icap := rfl
@[simp] theorem start_ocap : (start s).ocap = s.ocap := rfl
@[simp] theorem start_inLen : (start s).inLen = s.inLen := rfl
@[simp] theorem start_outLen : (start s).outLen = s.outLen := rfl
@[simp] theorem start_nbits : (start s).nbits = s.nbits := rfl
@[simp] theorem start_root : (start s).root = s.root := rfl
@[simp] theorem start_nnodes : (start s).nnodes = s.nnodes := rfl
@[simp] theorem start_nsym : (start s).nsym = s.nsym := rfl
@[simp] theorem start_heapSize : (start s).heapSize = s.heapSize := rfl
@[simp] theorem start_acc : (start s).acc = s.acc := rfl
@[simp] theorem start_bitcnt : (start s).bitcnt = s.bitcnt := rfl
@[simp] theorem start_cur : (start s).cur = s.cur := rfl
@[simp] theorem start_freq : (start s).freq = s.freq := rfl
@[simp] theorem start_node : (start s).node = s.node := rfl
@[simp] theorem start_code : (start s).code = s.code := rfl
@[simp] theorem start_heap : (start s).heap = s.heap := rfl
@[simp] theorem start_ibuf : (start s).ibuf = s.ibuf := rfl
@[simp] theorem start_obuf : (start s).obuf = s.obuf := rfl
@[simp] theorem start_script : (start s).script = s.script := rfl
@[simp] theorem start_readData : (start s).readData = s.readData := rfl
@[simp] theorem start_draws : (start s).draws = s.draws := rfl
@[simp] theorem start_epoch : (start s).epoch = s.epoch := rfl
@[simp] theorem start_freqAt (b' : Nat) : freqAt (start s) b' = freqAt s b' := rfl
@[simp] theorem start_nodeAt (j' : Idx) : nodeAt (start s) j' = nodeAt s j' := rfl
@[simp] theorem start_codeAt (c' : Byte) : codeAt (start s) c' = codeAt s c' := rfl
@[simp] theorem start_ibufByte (k' : Nat) : ibufByte (start s) k' = ibufByte s k' := rfl
@[simp] theorem start_obufByte (k' : Nat) : obufByte (start s) k' = obufByte s k' := rfl

/-! ### complete -/

@[simp] theorem complete_busy : (complete s).busy = false := rfl
@[simp] theorem complete_done : (complete s).done = true := rfl
@[simp] theorem complete_err : (complete s).err = s.err := rfl
@[simp] theorem complete_empty : (complete s).empty = s.empty := rfl
@[simp] theorem complete_single : (complete s).single = s.single := rfl
@[simp] theorem complete_errcode : (complete s).errcode = s.errcode := rfl
@[simp] theorem complete_errinfo : (complete s).errinfo = s.errinfo := rfl
@[simp] theorem complete_errpos : (complete s).errpos = s.errpos := rfl
@[simp] theorem complete_icap : (complete s).icap = s.icap := rfl
@[simp] theorem complete_ocap : (complete s).ocap = s.ocap := rfl
@[simp] theorem complete_inLen : (complete s).inLen = s.inLen := rfl
@[simp] theorem complete_outLen : (complete s).outLen = s.outLen := rfl
@[simp] theorem complete_nbits : (complete s).nbits = s.nbits := rfl
@[simp] theorem complete_root : (complete s).root = s.root := rfl
@[simp] theorem complete_nnodes : (complete s).nnodes = s.nnodes := rfl
@[simp] theorem complete_nsym : (complete s).nsym = s.nsym := rfl
@[simp] theorem complete_heapSize : (complete s).heapSize = s.heapSize := rfl
@[simp] theorem complete_acc : (complete s).acc = s.acc := rfl
@[simp] theorem complete_bitcnt : (complete s).bitcnt = s.bitcnt := rfl
@[simp] theorem complete_cur : (complete s).cur = s.cur := rfl
@[simp] theorem complete_freq : (complete s).freq = s.freq := rfl
@[simp] theorem complete_node : (complete s).node = s.node := rfl
@[simp] theorem complete_code : (complete s).code = s.code := rfl
@[simp] theorem complete_heap : (complete s).heap = s.heap := rfl
@[simp] theorem complete_ibuf : (complete s).ibuf = s.ibuf := rfl
@[simp] theorem complete_obuf : (complete s).obuf = s.obuf := rfl
@[simp] theorem complete_script : (complete s).script = s.script := rfl
@[simp] theorem complete_readData : (complete s).readData = s.readData := rfl
@[simp] theorem complete_draws : (complete s).draws = s.draws := rfl
@[simp] theorem complete_epoch : (complete s).epoch = s.epoch := rfl
@[simp] theorem complete_freqAt (b' : Nat) : freqAt (complete s) b' = freqAt s b' := rfl
@[simp] theorem complete_nodeAt (j' : Idx) : nodeAt (complete s) j' = nodeAt s j' := rfl
@[simp] theorem complete_codeAt (c' : Byte) : codeAt (complete s) c' = codeAt s c' := rfl
@[simp] theorem complete_ibufByte (k' : Nat) : ibufByte (complete s) k' = ibufByte s k' := rfl
@[simp] theorem complete_obufByte (k' : Nat) : obufByte (complete s) k' = obufByte s k' := rfl

/-! ### clearFault -/

@[simp] theorem clearFault_busy : (clearFault s).busy = s.busy := rfl
@[simp] theorem clearFault_done : (clearFault s).done = s.done := rfl
@[simp] theorem clearFault_err : (clearFault s).err = false := rfl
@[simp] theorem clearFault_empty : (clearFault s).empty = s.empty := rfl
@[simp] theorem clearFault_single : (clearFault s).single = s.single := rfl
@[simp] theorem clearFault_errcode : (clearFault s).errcode = 0#4 := rfl
@[simp] theorem clearFault_errinfo : (clearFault s).errinfo = 0#32 := rfl
@[simp] theorem clearFault_errpos : (clearFault s).errpos = 0#32 := rfl
@[simp] theorem clearFault_icap : (clearFault s).icap = s.icap := rfl
@[simp] theorem clearFault_ocap : (clearFault s).ocap = s.ocap := rfl
@[simp] theorem clearFault_inLen : (clearFault s).inLen = s.inLen := rfl
@[simp] theorem clearFault_outLen : (clearFault s).outLen = s.outLen := rfl
@[simp] theorem clearFault_nbits : (clearFault s).nbits = s.nbits := rfl
@[simp] theorem clearFault_root : (clearFault s).root = s.root := rfl
@[simp] theorem clearFault_nnodes : (clearFault s).nnodes = s.nnodes := rfl
@[simp] theorem clearFault_nsym : (clearFault s).nsym = s.nsym := rfl
@[simp] theorem clearFault_heapSize : (clearFault s).heapSize = s.heapSize := rfl
@[simp] theorem clearFault_acc : (clearFault s).acc = s.acc := rfl
@[simp] theorem clearFault_bitcnt : (clearFault s).bitcnt = s.bitcnt := rfl
@[simp] theorem clearFault_cur : (clearFault s).cur = s.cur := rfl
@[simp] theorem clearFault_freq : (clearFault s).freq = s.freq := rfl
@[simp] theorem clearFault_node : (clearFault s).node = s.node := rfl
@[simp] theorem clearFault_code : (clearFault s).code = s.code := rfl
@[simp] theorem clearFault_heap : (clearFault s).heap = s.heap := rfl
@[simp] theorem clearFault_ibuf : (clearFault s).ibuf = s.ibuf := rfl
@[simp] theorem clearFault_obuf : (clearFault s).obuf = s.obuf := rfl
@[simp] theorem clearFault_script : (clearFault s).script = s.script := rfl
@[simp] theorem clearFault_readData : (clearFault s).readData = s.readData := rfl
@[simp] theorem clearFault_draws : (clearFault s).draws = s.draws := rfl
@[simp] theorem clearFault_epoch : (clearFault s).epoch = s.epoch := rfl
@[simp] theorem clearFault_freqAt (b' : Nat) : freqAt (clearFault s) b' = freqAt s b' := rfl
@[simp] theorem clearFault_nodeAt (j' : Idx) : nodeAt (clearFault s) j' = nodeAt s j' := rfl
@[simp] theorem clearFault_codeAt (c' : Byte) : codeAt (clearFault s) c' = codeAt s c' := rfl
@[simp] theorem clearFault_ibufByte (k' : Nat) : ibufByte (clearFault s) k' = ibufByte s k' := rfl
@[simp] theorem clearFault_obufByte (k' : Nat) : obufByte (clearFault s) k' = obufByte s k' := rfl

/-! ### clearOutput -/

@[simp] theorem clearOutput_busy : (clearOutput s).busy = s.busy := rfl
@[simp] theorem clearOutput_done : (clearOutput s).done = s.done := rfl
@[simp] theorem clearOutput_err : (clearOutput s).err = s.err := rfl
@[simp] theorem clearOutput_empty : (clearOutput s).empty = s.empty := rfl
@[simp] theorem clearOutput_single : (clearOutput s).single = s.single := rfl
@[simp] theorem clearOutput_errcode : (clearOutput s).errcode = s.errcode := rfl
@[simp] theorem clearOutput_errinfo : (clearOutput s).errinfo = s.errinfo := rfl
@[simp] theorem clearOutput_errpos : (clearOutput s).errpos = s.errpos := rfl
@[simp] theorem clearOutput_icap : (clearOutput s).icap = s.icap := rfl
@[simp] theorem clearOutput_ocap : (clearOutput s).ocap = s.ocap := rfl
@[simp] theorem clearOutput_inLen : (clearOutput s).inLen = s.inLen := rfl
@[simp] theorem clearOutput_outLen : (clearOutput s).outLen = 0#32 := rfl
@[simp] theorem clearOutput_nbits : (clearOutput s).nbits = s.nbits := rfl
@[simp] theorem clearOutput_root : (clearOutput s).root = s.root := rfl
@[simp] theorem clearOutput_nnodes : (clearOutput s).nnodes = s.nnodes := rfl
@[simp] theorem clearOutput_nsym : (clearOutput s).nsym = s.nsym := rfl
@[simp] theorem clearOutput_heapSize : (clearOutput s).heapSize = s.heapSize := rfl
@[simp] theorem clearOutput_acc : (clearOutput s).acc = s.acc := rfl
@[simp] theorem clearOutput_bitcnt : (clearOutput s).bitcnt = s.bitcnt := rfl
@[simp] theorem clearOutput_cur : (clearOutput s).cur = s.cur := rfl
@[simp] theorem clearOutput_freq : (clearOutput s).freq = s.freq := rfl
@[simp] theorem clearOutput_node : (clearOutput s).node = s.node := rfl
@[simp] theorem clearOutput_code : (clearOutput s).code = s.code := rfl
@[simp] theorem clearOutput_heap : (clearOutput s).heap = s.heap := rfl
@[simp] theorem clearOutput_ibuf : (clearOutput s).ibuf = s.ibuf := rfl
@[simp] theorem clearOutput_obuf : (clearOutput s).obuf = [] := rfl
@[simp] theorem clearOutput_script : (clearOutput s).script = s.script := rfl
@[simp] theorem clearOutput_readData : (clearOutput s).readData = s.readData := rfl
@[simp] theorem clearOutput_draws : (clearOutput s).draws = s.draws := rfl
@[simp] theorem clearOutput_epoch : (clearOutput s).epoch = s.epoch := rfl
@[simp] theorem clearOutput_freqAt (b' : Nat) : freqAt (clearOutput s) b' = freqAt s b' := rfl
@[simp] theorem clearOutput_nodeAt (j' : Idx) : nodeAt (clearOutput s) j' = nodeAt s j' := rfl
@[simp] theorem clearOutput_codeAt (c' : Byte) : codeAt (clearOutput s) c' = codeAt s c' := rfl
@[simp] theorem clearOutput_ibufByte (k' : Nat) : ibufByte (clearOutput s) k' = ibufByte s k' := rfl

/-! ### clearAcc -/

@[simp] theorem clearAcc_busy : (clearAcc s).busy = s.busy := rfl
@[simp] theorem clearAcc_done : (clearAcc s).done = s.done := rfl
@[simp] theorem clearAcc_err : (clearAcc s).err = s.err := rfl
@[simp] theorem clearAcc_empty : (clearAcc s).empty = s.empty := rfl
@[simp] theorem clearAcc_single : (clearAcc s).single = s.single := rfl
@[simp] theorem clearAcc_errcode : (clearAcc s).errcode = s.errcode := rfl
@[simp] theorem clearAcc_errinfo : (clearAcc s).errinfo = s.errinfo := rfl
@[simp] theorem clearAcc_errpos : (clearAcc s).errpos = s.errpos := rfl
@[simp] theorem clearAcc_icap : (clearAcc s).icap = s.icap := rfl
@[simp] theorem clearAcc_ocap : (clearAcc s).ocap = s.ocap := rfl
@[simp] theorem clearAcc_inLen : (clearAcc s).inLen = s.inLen := rfl
@[simp] theorem clearAcc_outLen : (clearAcc s).outLen = s.outLen := rfl
@[simp] theorem clearAcc_nbits : (clearAcc s).nbits = s.nbits := rfl
@[simp] theorem clearAcc_root : (clearAcc s).root = s.root := rfl
@[simp] theorem clearAcc_nnodes : (clearAcc s).nnodes = s.nnodes := rfl
@[simp] theorem clearAcc_nsym : (clearAcc s).nsym = s.nsym := rfl
@[simp] theorem clearAcc_heapSize : (clearAcc s).heapSize = s.heapSize := rfl
@[simp] theorem clearAcc_acc : (clearAcc s).acc = 0#8 := rfl
@[simp] theorem clearAcc_bitcnt : (clearAcc s).bitcnt = 0#4 := rfl
@[simp] theorem clearAcc_cur : (clearAcc s).cur = s.cur := rfl
@[simp] theorem clearAcc_freq : (clearAcc s).freq = s.freq := rfl
@[simp] theorem clearAcc_node : (clearAcc s).node = s.node := rfl
@[simp] theorem clearAcc_code : (clearAcc s).code = s.code := rfl
@[simp] theorem clearAcc_heap : (clearAcc s).heap = s.heap := rfl
@[simp] theorem clearAcc_ibuf : (clearAcc s).ibuf = s.ibuf := rfl
@[simp] theorem clearAcc_obuf : (clearAcc s).obuf = s.obuf := rfl
@[simp] theorem clearAcc_script : (clearAcc s).script = s.script := rfl
@[simp] theorem clearAcc_readData : (clearAcc s).readData = s.readData := rfl
@[simp] theorem clearAcc_draws : (clearAcc s).draws = s.draws := rfl
@[simp] theorem clearAcc_epoch : (clearAcc s).epoch = s.epoch := rfl
@[simp] theorem clearAcc_freqAt (b' : Nat) : freqAt (clearAcc s) b' = freqAt s b' := rfl
@[simp] theorem clearAcc_nodeAt (j' : Idx) : nodeAt (clearAcc s) j' = nodeAt s j' := rfl
@[simp] theorem clearAcc_codeAt (c' : Byte) : codeAt (clearAcc s) c' = codeAt s c' := rfl
@[simp] theorem clearAcc_ibufByte (k' : Nat) : ibufByte (clearAcc s) k' = ibufByte s k' := rfl
@[simp] theorem clearAcc_obufByte (k' : Nat) : obufByte (clearAcc s) k' = obufByte s k' := rfl

/-! ### clearCur -/

@[simp] theorem clearCur_busy : (clearCur s).busy = s.busy := rfl
@[simp] theorem clearCur_done : (clearCur s).done = s.done := rfl
@[simp] theorem clearCur_err : (clearCur s).err = s.err := rfl
@[simp] theorem clearCur_empty : (clearCur s).empty = s.empty := rfl
@[simp] theorem clearCur_single : (clearCur s).single = s.single := rfl
@[simp] theorem clearCur_errcode : (clearCur s).errcode = s.errcode := rfl
@[simp] theorem clearCur_errinfo : (clearCur s).errinfo = s.errinfo := rfl
@[simp] theorem clearCur_errpos : (clearCur s).errpos = s.errpos := rfl
@[simp] theorem clearCur_icap : (clearCur s).icap = s.icap := rfl
@[simp] theorem clearCur_ocap : (clearCur s).ocap = s.ocap := rfl
@[simp] theorem clearCur_inLen : (clearCur s).inLen = s.inLen := rfl
@[simp] theorem clearCur_outLen : (clearCur s).outLen = s.outLen := rfl
@[simp] theorem clearCur_nbits : (clearCur s).nbits = s.nbits := rfl
@[simp] theorem clearCur_root : (clearCur s).root = s.root := rfl
@[simp] theorem clearCur_nnodes : (clearCur s).nnodes = s.nnodes := rfl
@[simp] theorem clearCur_nsym : (clearCur s).nsym = s.nsym := rfl
@[simp] theorem clearCur_heapSize : (clearCur s).heapSize = s.heapSize := rfl
@[simp] theorem clearCur_acc : (clearCur s).acc = s.acc := rfl
@[simp] theorem clearCur_bitcnt : (clearCur s).bitcnt = s.bitcnt := rfl
@[simp] theorem clearCur_cur : (clearCur s).cur = Config.nil := rfl
@[simp] theorem clearCur_freq : (clearCur s).freq = s.freq := rfl
@[simp] theorem clearCur_node : (clearCur s).node = s.node := rfl
@[simp] theorem clearCur_code : (clearCur s).code = s.code := rfl
@[simp] theorem clearCur_heap : (clearCur s).heap = s.heap := rfl
@[simp] theorem clearCur_ibuf : (clearCur s).ibuf = s.ibuf := rfl
@[simp] theorem clearCur_obuf : (clearCur s).obuf = s.obuf := rfl
@[simp] theorem clearCur_script : (clearCur s).script = s.script := rfl
@[simp] theorem clearCur_readData : (clearCur s).readData = s.readData := rfl
@[simp] theorem clearCur_draws : (clearCur s).draws = s.draws := rfl
@[simp] theorem clearCur_epoch : (clearCur s).epoch = s.epoch := rfl
@[simp] theorem clearCur_freqAt (b' : Nat) : freqAt (clearCur s) b' = freqAt s b' := rfl
@[simp] theorem clearCur_nodeAt (j' : Idx) : nodeAt (clearCur s) j' = nodeAt s j' := rfl
@[simp] theorem clearCur_codeAt (c' : Byte) : codeAt (clearCur s) c' = codeAt s c' := rfl
@[simp] theorem clearCur_ibufByte (k' : Nat) : ibufByte (clearCur s) k' = ibufByte s k' := rfl
@[simp] theorem clearCur_obufByte (k' : Nat) : obufByte (clearCur s) k' = obufByte s k' := rfl

/-! ### shiftIn -/

@[simp] theorem shiftIn_busy (bit : Bool) : (shiftIn bit s).busy = s.busy := rfl
@[simp] theorem shiftIn_done (bit : Bool) : (shiftIn bit s).done = s.done := rfl
@[simp] theorem shiftIn_err (bit : Bool) : (shiftIn bit s).err = s.err := rfl
@[simp] theorem shiftIn_empty (bit : Bool) : (shiftIn bit s).empty = s.empty := rfl
@[simp] theorem shiftIn_single (bit : Bool) : (shiftIn bit s).single = s.single := rfl
@[simp] theorem shiftIn_errcode (bit : Bool) : (shiftIn bit s).errcode = s.errcode := rfl
@[simp] theorem shiftIn_errinfo (bit : Bool) : (shiftIn bit s).errinfo = s.errinfo := rfl
@[simp] theorem shiftIn_errpos (bit : Bool) : (shiftIn bit s).errpos = s.errpos := rfl
@[simp] theorem shiftIn_icap (bit : Bool) : (shiftIn bit s).icap = s.icap := rfl
@[simp] theorem shiftIn_ocap (bit : Bool) : (shiftIn bit s).ocap = s.ocap := rfl
@[simp] theorem shiftIn_inLen (bit : Bool) : (shiftIn bit s).inLen = s.inLen := rfl
@[simp] theorem shiftIn_outLen (bit : Bool) : (shiftIn bit s).outLen = s.outLen := rfl
@[simp] theorem shiftIn_nbits (bit : Bool) : (shiftIn bit s).nbits = s.nbits + 1#32 := rfl
@[simp] theorem shiftIn_root (bit : Bool) : (shiftIn bit s).root = s.root := rfl
@[simp] theorem shiftIn_nnodes (bit : Bool) : (shiftIn bit s).nnodes = s.nnodes := rfl
@[simp] theorem shiftIn_nsym (bit : Bool) : (shiftIn bit s).nsym = s.nsym := rfl
@[simp] theorem shiftIn_heapSize (bit : Bool) : (shiftIn bit s).heapSize = s.heapSize := rfl
@[simp] theorem shiftIn_acc (bit : Bool) : (shiftIn bit s).acc = (s.acc <<< 1) ||| (BitVec.ofBool bit).setWidth 8 := rfl
@[simp] theorem shiftIn_bitcnt (bit : Bool) : (shiftIn bit s).bitcnt = s.bitcnt + 1#4 := rfl
@[simp] theorem shiftIn_cur (bit : Bool) : (shiftIn bit s).cur = s.cur := rfl
@[simp] theorem shiftIn_freq (bit : Bool) : (shiftIn bit s).freq = s.freq := rfl
@[simp] theorem shiftIn_node (bit : Bool) : (shiftIn bit s).node = s.node := rfl
@[simp] theorem shiftIn_code (bit : Bool) : (shiftIn bit s).code = s.code := rfl
@[simp] theorem shiftIn_heap (bit : Bool) : (shiftIn bit s).heap = s.heap := rfl
@[simp] theorem shiftIn_ibuf (bit : Bool) : (shiftIn bit s).ibuf = s.ibuf := rfl
@[simp] theorem shiftIn_obuf (bit : Bool) : (shiftIn bit s).obuf = s.obuf := rfl
@[simp] theorem shiftIn_script (bit : Bool) : (shiftIn bit s).script = s.script := rfl
@[simp] theorem shiftIn_readData (bit : Bool) : (shiftIn bit s).readData = s.readData := rfl
@[simp] theorem shiftIn_draws (bit : Bool) : (shiftIn bit s).draws = s.draws := rfl
@[simp] theorem shiftIn_epoch (bit : Bool) : (shiftIn bit s).epoch = s.epoch := rfl
@[simp] theorem shiftIn_freqAt (bit : Bool) (b' : Nat) : freqAt (shiftIn bit s) b' = freqAt s b' := rfl
@[simp] theorem shiftIn_nodeAt (bit : Bool) (j' : Idx) : nodeAt (shiftIn bit s) j' = nodeAt s j' := rfl
@[simp] theorem shiftIn_codeAt (bit : Bool) (c' : Byte) : codeAt (shiftIn bit s) c' = codeAt s c' := rfl
@[simp] theorem shiftIn_ibufByte (bit : Bool) (k' : Nat) : ibufByte (shiftIn bit s) k' = ibufByte s k' := rfl
@[simp] theorem shiftIn_obufByte (bit : Bool) (k' : Nat) : obufByte (shiftIn bit s) k' = obufByte s k' := rfl

/-! ### setFreq -/

@[simp] theorem setFreq_busy (b : Nat) (v : Word) : (setFreq s b v).busy = s.busy := rfl
@[simp] theorem setFreq_done (b : Nat) (v : Word) : (setFreq s b v).done = s.done := rfl
@[simp] theorem setFreq_err (b : Nat) (v : Word) : (setFreq s b v).err = s.err := rfl
@[simp] theorem setFreq_empty (b : Nat) (v : Word) : (setFreq s b v).empty = s.empty := rfl
@[simp] theorem setFreq_single (b : Nat) (v : Word) : (setFreq s b v).single = s.single := rfl
@[simp] theorem setFreq_errcode (b : Nat) (v : Word) : (setFreq s b v).errcode = s.errcode := rfl
@[simp] theorem setFreq_errinfo (b : Nat) (v : Word) : (setFreq s b v).errinfo = s.errinfo := rfl
@[simp] theorem setFreq_errpos (b : Nat) (v : Word) : (setFreq s b v).errpos = s.errpos := rfl
@[simp] theorem setFreq_icap (b : Nat) (v : Word) : (setFreq s b v).icap = s.icap := rfl
@[simp] theorem setFreq_ocap (b : Nat) (v : Word) : (setFreq s b v).ocap = s.ocap := rfl
@[simp] theorem setFreq_inLen (b : Nat) (v : Word) : (setFreq s b v).inLen = s.inLen := rfl
@[simp] theorem setFreq_outLen (b : Nat) (v : Word) : (setFreq s b v).outLen = s.outLen := rfl
@[simp] theorem setFreq_nbits (b : Nat) (v : Word) : (setFreq s b v).nbits = s.nbits := rfl
@[simp] theorem setFreq_root (b : Nat) (v : Word) : (setFreq s b v).root = s.root := rfl
@[simp] theorem setFreq_nnodes (b : Nat) (v : Word) : (setFreq s b v).nnodes = s.nnodes := rfl
@[simp] theorem setFreq_nsym (b : Nat) (v : Word) : (setFreq s b v).nsym = s.nsym := rfl
@[simp] theorem setFreq_heapSize (b : Nat) (v : Word) : (setFreq s b v).heapSize = s.heapSize := rfl
@[simp] theorem setFreq_acc (b : Nat) (v : Word) : (setFreq s b v).acc = s.acc := rfl
@[simp] theorem setFreq_bitcnt (b : Nat) (v : Word) : (setFreq s b v).bitcnt = s.bitcnt := rfl
@[simp] theorem setFreq_cur (b : Nat) (v : Word) : (setFreq s b v).cur = s.cur := rfl
@[simp] theorem setFreq_freq (b : Nat) (v : Word) : (setFreq s b v).freq = Table.put 0#32 s.freq b v := rfl
@[simp] theorem setFreq_node (b : Nat) (v : Word) : (setFreq s b v).node = s.node := rfl
@[simp] theorem setFreq_code (b : Nat) (v : Word) : (setFreq s b v).code = s.code := rfl
@[simp] theorem setFreq_heap (b : Nat) (v : Word) : (setFreq s b v).heap = s.heap := rfl
@[simp] theorem setFreq_ibuf (b : Nat) (v : Word) : (setFreq s b v).ibuf = s.ibuf := rfl
@[simp] theorem setFreq_obuf (b : Nat) (v : Word) : (setFreq s b v).obuf = s.obuf := rfl
@[simp] theorem setFreq_script (b : Nat) (v : Word) : (setFreq s b v).script = s.script := rfl
@[simp] theorem setFreq_readData (b : Nat) (v : Word) : (setFreq s b v).readData = s.readData := rfl
@[simp] theorem setFreq_draws (b : Nat) (v : Word) : (setFreq s b v).draws = s.draws := rfl
@[simp] theorem setFreq_epoch (b : Nat) (v : Word) : (setFreq s b v).epoch = s.epoch := rfl
@[simp] theorem setFreq_nodeAt (b : Nat) (v : Word) (j' : Idx) : nodeAt (setFreq s b v) j' = nodeAt s j' := rfl
@[simp] theorem setFreq_codeAt (b : Nat) (v : Word) (c' : Byte) : codeAt (setFreq s b v) c' = codeAt s c' := rfl
@[simp] theorem setFreq_ibufByte (b : Nat) (v : Word) (k' : Nat) : ibufByte (setFreq s b v) k' = ibufByte s k' := rfl
@[simp] theorem setFreq_obufByte (b : Nat) (v : Word) (k' : Nat) : obufByte (setFreq s b v) k' = obufByte s k' := rfl

/-! ### setNode -/

@[simp] theorem setNode_busy (i : Nat) (r : NodeRec) : (setNode s i r).busy = s.busy := rfl
@[simp] theorem setNode_done (i : Nat) (r : NodeRec) : (setNode s i r).done = s.done := rfl
@[simp] theorem setNode_err (i : Nat) (r : NodeRec) : (setNode s i r).err = s.err := rfl
@[simp] theorem setNode_empty (i : Nat) (r : NodeRec) : (setNode s i r).empty = s.empty := rfl
@[simp] theorem setNode_single (i : Nat) (r : NodeRec) : (setNode s i r).single = s.single := rfl
@[simp] theorem setNode_errcode (i : Nat) (r : NodeRec) : (setNode s i r).errcode = s.errcode := rfl
@[simp] theorem setNode_errinfo (i : Nat) (r : NodeRec) : (setNode s i r).errinfo = s.errinfo := rfl
@[simp] theorem setNode_errpos (i : Nat) (r : NodeRec) : (setNode s i r).errpos = s.errpos := rfl
@[simp] theorem setNode_icap (i : Nat) (r : NodeRec) : (setNode s i r).icap = s.icap := rfl
@[simp] theorem setNode_ocap (i : Nat) (r : NodeRec) : (setNode s i r).ocap = s.ocap := rfl
@[simp] theorem setNode_inLen (i : Nat) (r : NodeRec) : (setNode s i r).inLen = s.inLen := rfl
@[simp] theorem setNode_outLen (i : Nat) (r : NodeRec) : (setNode s i r).outLen = s.outLen := rfl
@[simp] theorem setNode_nbits (i : Nat) (r : NodeRec) : (setNode s i r).nbits = s.nbits := rfl
@[simp] theorem setNode_root (i : Nat) (r : NodeRec) : (setNode s i r).root = s.root := rfl
@[simp] theorem setNode_nnodes (i : Nat) (r : NodeRec) : (setNode s i r).nnodes = s.nnodes := rfl
@[simp] theorem setNode_nsym (i : Nat) (r : NodeRec) : (setNode s i r).nsym = s.nsym := rfl
@[simp] theorem setNode_heapSize (i : Nat) (r : NodeRec) : (setNode s i r).heapSize = s.heapSize := rfl
@[simp] theorem setNode_acc (i : Nat) (r : NodeRec) : (setNode s i r).acc = s.acc := rfl
@[simp] theorem setNode_bitcnt (i : Nat) (r : NodeRec) : (setNode s i r).bitcnt = s.bitcnt := rfl
@[simp] theorem setNode_cur (i : Nat) (r : NodeRec) : (setNode s i r).cur = s.cur := rfl
@[simp] theorem setNode_freq (i : Nat) (r : NodeRec) : (setNode s i r).freq = s.freq := rfl
@[simp] theorem setNode_node (i : Nat) (r : NodeRec) : (setNode s i r).node = Table.put clearedNode s.node i r := rfl
@[simp] theorem setNode_code (i : Nat) (r : NodeRec) : (setNode s i r).code = s.code := rfl
@[simp] theorem setNode_heap (i : Nat) (r : NodeRec) : (setNode s i r).heap = s.heap := rfl
@[simp] theorem setNode_ibuf (i : Nat) (r : NodeRec) : (setNode s i r).ibuf = s.ibuf := rfl
@[simp] theorem setNode_obuf (i : Nat) (r : NodeRec) : (setNode s i r).obuf = s.obuf := rfl
@[simp] theorem setNode_script (i : Nat) (r : NodeRec) : (setNode s i r).script = s.script := rfl
@[simp] theorem setNode_readData (i : Nat) (r : NodeRec) : (setNode s i r).readData = s.readData := rfl
@[simp] theorem setNode_draws (i : Nat) (r : NodeRec) : (setNode s i r).draws = s.draws := rfl
@[simp] theorem setNode_epoch (i : Nat) (r : NodeRec) : (setNode s i r).epoch = s.epoch := rfl
@[simp] theorem setNode_freqAt (i : Nat) (r : NodeRec) (b' : Nat) : freqAt (setNode s i r) b' = freqAt s b' := rfl
@[simp] theorem setNode_codeAt (i : Nat) (r : NodeRec) (c' : Byte) : codeAt (setNode s i r) c' = codeAt s c' := rfl
@[simp] theorem setNode_ibufByte (i : Nat) (r : NodeRec) (k' : Nat) : ibufByte (setNode s i r) k' = ibufByte s k' := rfl
@[simp] theorem setNode_obufByte (i : Nat) (r : NodeRec) (k' : Nat) : obufByte (setNode s i r) k' = obufByte s k' := rfl

/-! ### setCode -/

@[simp] theorem setCode_busy (b : Nat) (e : CodeEntry) : (setCode s b e).busy = s.busy := rfl
@[simp] theorem setCode_done (b : Nat) (e : CodeEntry) : (setCode s b e).done = s.done := rfl
@[simp] theorem setCode_err (b : Nat) (e : CodeEntry) : (setCode s b e).err = s.err := rfl
@[simp] theorem setCode_empty (b : Nat) (e : CodeEntry) : (setCode s b e).empty = s.empty := rfl
@[simp] theorem setCode_single (b : Nat) (e : CodeEntry) : (setCode s b e).single = s.single := rfl
@[simp] theorem setCode_errcode (b : Nat) (e : CodeEntry) : (setCode s b e).errcode = s.errcode := rfl
@[simp] theorem setCode_errinfo (b : Nat) (e : CodeEntry) : (setCode s b e).errinfo = s.errinfo := rfl
@[simp] theorem setCode_errpos (b : Nat) (e : CodeEntry) : (setCode s b e).errpos = s.errpos := rfl
@[simp] theorem setCode_icap (b : Nat) (e : CodeEntry) : (setCode s b e).icap = s.icap := rfl
@[simp] theorem setCode_ocap (b : Nat) (e : CodeEntry) : (setCode s b e).ocap = s.ocap := rfl
@[simp] theorem setCode_inLen (b : Nat) (e : CodeEntry) : (setCode s b e).inLen = s.inLen := rfl
@[simp] theorem setCode_outLen (b : Nat) (e : CodeEntry) : (setCode s b e).outLen = s.outLen := rfl
@[simp] theorem setCode_nbits (b : Nat) (e : CodeEntry) : (setCode s b e).nbits = s.nbits := rfl
@[simp] theorem setCode_root (b : Nat) (e : CodeEntry) : (setCode s b e).root = s.root := rfl
@[simp] theorem setCode_nnodes (b : Nat) (e : CodeEntry) : (setCode s b e).nnodes = s.nnodes := rfl
@[simp] theorem setCode_nsym (b : Nat) (e : CodeEntry) : (setCode s b e).nsym = s.nsym := rfl
@[simp] theorem setCode_heapSize (b : Nat) (e : CodeEntry) : (setCode s b e).heapSize = s.heapSize := rfl
@[simp] theorem setCode_acc (b : Nat) (e : CodeEntry) : (setCode s b e).acc = s.acc := rfl
@[simp] theorem setCode_bitcnt (b : Nat) (e : CodeEntry) : (setCode s b e).bitcnt = s.bitcnt := rfl
@[simp] theorem setCode_cur (b : Nat) (e : CodeEntry) : (setCode s b e).cur = s.cur := rfl
@[simp] theorem setCode_freq (b : Nat) (e : CodeEntry) : (setCode s b e).freq = s.freq := rfl
@[simp] theorem setCode_node (b : Nat) (e : CodeEntry) : (setCode s b e).node = s.node := rfl
@[simp] theorem setCode_code (b : Nat) (e : CodeEntry) : (setCode s b e).code = Table.put clearedCode s.code b e := rfl
@[simp] theorem setCode_heap (b : Nat) (e : CodeEntry) : (setCode s b e).heap = s.heap := rfl
@[simp] theorem setCode_ibuf (b : Nat) (e : CodeEntry) : (setCode s b e).ibuf = s.ibuf := rfl
@[simp] theorem setCode_obuf (b : Nat) (e : CodeEntry) : (setCode s b e).obuf = s.obuf := rfl
@[simp] theorem setCode_script (b : Nat) (e : CodeEntry) : (setCode s b e).script = s.script := rfl
@[simp] theorem setCode_readData (b : Nat) (e : CodeEntry) : (setCode s b e).readData = s.readData := rfl
@[simp] theorem setCode_draws (b : Nat) (e : CodeEntry) : (setCode s b e).draws = s.draws := rfl
@[simp] theorem setCode_epoch (b : Nat) (e : CodeEntry) : (setCode s b e).epoch = s.epoch := rfl
@[simp] theorem setCode_freqAt (b : Nat) (e : CodeEntry) (b' : Nat) : freqAt (setCode s b e) b' = freqAt s b' := rfl
@[simp] theorem setCode_nodeAt (b : Nat) (e : CodeEntry) (j' : Idx) : nodeAt (setCode s b e) j' = nodeAt s j' := rfl
@[simp] theorem setCode_ibufByte (b : Nat) (e : CodeEntry) (k' : Nat) : ibufByte (setCode s b e) k' = ibufByte s k' := rfl
@[simp] theorem setCode_obufByte (b : Nat) (e : CodeEntry) (k' : Nat) : obufByte (setCode s b e) k' = obufByte s k' := rfl

/-! ### setIbuf -/

@[simp] theorem setIbuf_busy (k : Nat) (v : Byte) : (setIbuf s k v).busy = s.busy := rfl
@[simp] theorem setIbuf_done (k : Nat) (v : Byte) : (setIbuf s k v).done = s.done := rfl
@[simp] theorem setIbuf_err (k : Nat) (v : Byte) : (setIbuf s k v).err = s.err := rfl
@[simp] theorem setIbuf_empty (k : Nat) (v : Byte) : (setIbuf s k v).empty = s.empty := rfl
@[simp] theorem setIbuf_single (k : Nat) (v : Byte) : (setIbuf s k v).single = s.single := rfl
@[simp] theorem setIbuf_errcode (k : Nat) (v : Byte) : (setIbuf s k v).errcode = s.errcode := rfl
@[simp] theorem setIbuf_errinfo (k : Nat) (v : Byte) : (setIbuf s k v).errinfo = s.errinfo := rfl
@[simp] theorem setIbuf_errpos (k : Nat) (v : Byte) : (setIbuf s k v).errpos = s.errpos := rfl
@[simp] theorem setIbuf_icap (k : Nat) (v : Byte) : (setIbuf s k v).icap = s.icap := rfl
@[simp] theorem setIbuf_ocap (k : Nat) (v : Byte) : (setIbuf s k v).ocap = s.ocap := rfl
@[simp] theorem setIbuf_inLen (k : Nat) (v : Byte) : (setIbuf s k v).inLen = s.inLen := rfl
@[simp] theorem setIbuf_outLen (k : Nat) (v : Byte) : (setIbuf s k v).outLen = s.outLen := rfl
@[simp] theorem setIbuf_nbits (k : Nat) (v : Byte) : (setIbuf s k v).nbits = s.nbits := rfl
@[simp] theorem setIbuf_root (k : Nat) (v : Byte) : (setIbuf s k v).root = s.root := rfl
@[simp] theorem setIbuf_nnodes (k : Nat) (v : Byte) : (setIbuf s k v).nnodes = s.nnodes := rfl
@[simp] theorem setIbuf_nsym (k : Nat) (v : Byte) : (setIbuf s k v).nsym = s.nsym := rfl
@[simp] theorem setIbuf_heapSize (k : Nat) (v : Byte) : (setIbuf s k v).heapSize = s.heapSize := rfl
@[simp] theorem setIbuf_acc (k : Nat) (v : Byte) : (setIbuf s k v).acc = s.acc := rfl
@[simp] theorem setIbuf_bitcnt (k : Nat) (v : Byte) : (setIbuf s k v).bitcnt = s.bitcnt := rfl
@[simp] theorem setIbuf_cur (k : Nat) (v : Byte) : (setIbuf s k v).cur = s.cur := rfl
@[simp] theorem setIbuf_freq (k : Nat) (v : Byte) : (setIbuf s k v).freq = s.freq := rfl
@[simp] theorem setIbuf_node (k : Nat) (v : Byte) : (setIbuf s k v).node = s.node := rfl
@[simp] theorem setIbuf_code (k : Nat) (v : Byte) : (setIbuf s k v).code = s.code := rfl
@[simp] theorem setIbuf_heap (k : Nat) (v : Byte) : (setIbuf s k v).heap = s.heap := rfl
@[simp] theorem setIbuf_ibuf (k : Nat) (v : Byte) : (setIbuf s k v).ibuf = Table.insert s.ibuf k v := rfl
@[simp] theorem setIbuf_obuf (k : Nat) (v : Byte) : (setIbuf s k v).obuf = s.obuf := rfl
@[simp] theorem setIbuf_script (k : Nat) (v : Byte) : (setIbuf s k v).script = s.script := rfl
@[simp] theorem setIbuf_readData (k : Nat) (v : Byte) : (setIbuf s k v).readData = s.readData := rfl
@[simp] theorem setIbuf_draws (k : Nat) (v : Byte) : (setIbuf s k v).draws = s.draws := rfl
@[simp] theorem setIbuf_epoch (k : Nat) (v : Byte) : (setIbuf s k v).epoch = s.epoch := rfl
@[simp] theorem setIbuf_freqAt (k : Nat) (v : Byte) (b' : Nat) : freqAt (setIbuf s k v) b' = freqAt s b' := rfl
@[simp] theorem setIbuf_nodeAt (k : Nat) (v : Byte) (j' : Idx) : nodeAt (setIbuf s k v) j' = nodeAt s j' := rfl
@[simp] theorem setIbuf_codeAt (k : Nat) (v : Byte) (c' : Byte) : codeAt (setIbuf s k v) c' = codeAt s c' := rfl
@[simp] theorem setIbuf_obufByte (k : Nat) (v : Byte) (k' : Nat) : obufByte (setIbuf s k v) k' = obufByte s k' := rfl

/-! ### raise -/

@[simp] theorem raise_busy (d : Discard) (f : Trap) : (raise d f s).busy = false := rfl
@[simp] theorem raise_done (d : Discard) (f : Trap) : (raise d f s).done = false := rfl
@[simp] theorem raise_err (d : Discard) (f : Trap) : (raise d f s).err = true := rfl
@[simp] theorem raise_empty (d : Discard) (f : Trap) : (raise d f s).empty = s.empty := rfl
@[simp] theorem raise_single (d : Discard) (f : Trap) : (raise d f s).single = s.single := rfl
@[simp] theorem raise_errcode (d : Discard) (f : Trap) : (raise d f s).errcode = causeCode f.cause := rfl
@[simp] theorem raise_errinfo (d : Discard) (f : Trap) : (raise d f s).errinfo = f.info := rfl
@[simp] theorem raise_errpos (d : Discard) (f : Trap) : (raise d f s).errpos = f.pos := rfl
@[simp] theorem raise_icap (d : Discard) (f : Trap) : (raise d f s).icap = s.icap := rfl
@[simp] theorem raise_ocap (d : Discard) (f : Trap) : (raise d f s).ocap = s.ocap := rfl
@[simp] theorem raise_inLen (d : Discard) (f : Trap) : (raise d f s).inLen = s.inLen := rfl
@[simp] theorem raise_outLen (d : Discard) (f : Trap) : (raise d f s).outLen = if d = .nothing then s.outLen else 0#32 := rfl
@[simp] theorem raise_nbits (d : Discard) (f : Trap) : (raise d f s).nbits = if d = .outputAndBits then 0#32 else s.nbits := rfl
@[simp] theorem raise_root (d : Discard) (f : Trap) : (raise d f s).root = s.root := rfl
@[simp] theorem raise_nnodes (d : Discard) (f : Trap) : (raise d f s).nnodes = s.nnodes := rfl
@[simp] theorem raise_nsym (d : Discard) (f : Trap) : (raise d f s).nsym = s.nsym := rfl
@[simp] theorem raise_heapSize (d : Discard) (f : Trap) : (raise d f s).heapSize = s.heapSize := rfl
@[simp] theorem raise_acc (d : Discard) (f : Trap) : (raise d f s).acc = 0#8 := rfl
@[simp] theorem raise_bitcnt (d : Discard) (f : Trap) : (raise d f s).bitcnt = 0#4 := rfl
@[simp] theorem raise_cur (d : Discard) (f : Trap) : (raise d f s).cur = Config.nil := rfl
@[simp] theorem raise_freq (d : Discard) (f : Trap) : (raise d f s).freq = s.freq := rfl
@[simp] theorem raise_node (d : Discard) (f : Trap) : (raise d f s).node = s.node := rfl
@[simp] theorem raise_code (d : Discard) (f : Trap) : (raise d f s).code = s.code := rfl
@[simp] theorem raise_heap (d : Discard) (f : Trap) : (raise d f s).heap = s.heap := rfl
@[simp] theorem raise_ibuf (d : Discard) (f : Trap) : (raise d f s).ibuf = s.ibuf := rfl
@[simp] theorem raise_obuf (d : Discard) (f : Trap) : (raise d f s).obuf = if d = .nothing then s.obuf else [] := rfl
@[simp] theorem raise_script (d : Discard) (f : Trap) : (raise d f s).script = s.script := rfl
@[simp] theorem raise_readData (d : Discard) (f : Trap) : (raise d f s).readData = s.readData := rfl
@[simp] theorem raise_draws (d : Discard) (f : Trap) : (raise d f s).draws = s.draws := rfl
@[simp] theorem raise_epoch (d : Discard) (f : Trap) : (raise d f s).epoch = s.epoch := rfl
@[simp] theorem raise_freqAt (d : Discard) (f : Trap) (b' : Nat) : freqAt (raise d f s) b' = freqAt s b' := rfl
@[simp] theorem raise_nodeAt (d : Discard) (f : Trap) (j' : Idx) : nodeAt (raise d f s) j' = nodeAt s j' := rfl
@[simp] theorem raise_codeAt (d : Discard) (f : Trap) (c' : Byte) : codeAt (raise d f s) c' = codeAt s c' := rfl
@[simp] theorem raise_ibufByte (d : Discard) (f : Trap) (k' : Nat) : ibufByte (raise d f s) k' = ibufByte s k' := rfl

/-! ### bldClear -/

@[simp] theorem bldClear_busy : (bldClear s).busy = s.busy := rfl
@[simp] theorem bldClear_done : (bldClear s).done = s.done := rfl
@[simp] theorem bldClear_err : (bldClear s).err = s.err := rfl
@[simp] theorem bldClear_empty : (bldClear s).empty = false := rfl
@[simp] theorem bldClear_single : (bldClear s).single = false := rfl
@[simp] theorem bldClear_errcode : (bldClear s).errcode = s.errcode := rfl
@[simp] theorem bldClear_errinfo : (bldClear s).errinfo = s.errinfo := rfl
@[simp] theorem bldClear_errpos : (bldClear s).errpos = s.errpos := rfl
@[simp] theorem bldClear_icap : (bldClear s).icap = s.icap := rfl
@[simp] theorem bldClear_ocap : (bldClear s).ocap = s.ocap := rfl
@[simp] theorem bldClear_inLen : (bldClear s).inLen = s.inLen := rfl
@[simp] theorem bldClear_outLen : (bldClear s).outLen = s.outLen := rfl
@[simp] theorem bldClear_nbits : (bldClear s).nbits = s.nbits := rfl
@[simp] theorem bldClear_root : (bldClear s).root = Config.nil := rfl
@[simp] theorem bldClear_nnodes : (bldClear s).nnodes = 0#10 := rfl
@[simp] theorem bldClear_nsym : (bldClear s).nsym = 0#9 := rfl
@[simp] theorem bldClear_heapSize : (bldClear s).heapSize = 0#9 := rfl
@[simp] theorem bldClear_acc : (bldClear s).acc = s.acc := rfl
@[simp] theorem bldClear_bitcnt : (bldClear s).bitcnt = s.bitcnt := rfl
@[simp] theorem bldClear_cur : (bldClear s).cur = s.cur := rfl
@[simp] theorem bldClear_freq : (bldClear s).freq = s.freq := rfl
@[simp] theorem bldClear_node : (bldClear s).node = [] := rfl
@[simp] theorem bldClear_code : (bldClear s).code = [] := rfl
@[simp] theorem bldClear_heap : (bldClear s).heap = [] := rfl
@[simp] theorem bldClear_ibuf : (bldClear s).ibuf = s.ibuf := rfl
@[simp] theorem bldClear_obuf : (bldClear s).obuf = s.obuf := rfl
@[simp] theorem bldClear_script : (bldClear s).script = s.script := rfl
@[simp] theorem bldClear_readData : (bldClear s).readData = s.readData := rfl
@[simp] theorem bldClear_draws : (bldClear s).draws = s.draws := rfl
@[simp] theorem bldClear_epoch : (bldClear s).epoch = s.epoch := rfl
@[simp] theorem bldClear_freqAt (b' : Nat) : freqAt (bldClear s) b' = freqAt s b' := rfl
@[simp] theorem bldClear_ibufByte (k' : Nat) : ibufByte (bldClear s) k' = ibufByte s k' := rfl
@[simp] theorem bldClear_obufByte (k' : Nat) : obufByte (bldClear s) k' = obufByte s k' := rfl

/-! ### heapPush -/

@[simp] theorem heapPush_busy (i : Idx) : (heapPush s i).busy = s.busy := rfl
@[simp] theorem heapPush_done (i : Idx) : (heapPush s i).done = s.done := rfl
@[simp] theorem heapPush_err (i : Idx) : (heapPush s i).err = s.err := rfl
@[simp] theorem heapPush_empty (i : Idx) : (heapPush s i).empty = s.empty := rfl
@[simp] theorem heapPush_single (i : Idx) : (heapPush s i).single = s.single := rfl
@[simp] theorem heapPush_errcode (i : Idx) : (heapPush s i).errcode = s.errcode := rfl
@[simp] theorem heapPush_errinfo (i : Idx) : (heapPush s i).errinfo = s.errinfo := rfl
@[simp] theorem heapPush_errpos (i : Idx) : (heapPush s i).errpos = s.errpos := rfl
@[simp] theorem heapPush_icap (i : Idx) : (heapPush s i).icap = s.icap := rfl
@[simp] theorem heapPush_ocap (i : Idx) : (heapPush s i).ocap = s.ocap := rfl
@[simp] theorem heapPush_inLen (i : Idx) : (heapPush s i).inLen = s.inLen := rfl
@[simp] theorem heapPush_outLen (i : Idx) : (heapPush s i).outLen = s.outLen := rfl
@[simp] theorem heapPush_nbits (i : Idx) : (heapPush s i).nbits = s.nbits := rfl
@[simp] theorem heapPush_root (i : Idx) : (heapPush s i).root = s.root := rfl
@[simp] theorem heapPush_nnodes (i : Idx) : (heapPush s i).nnodes = s.nnodes := rfl
@[simp] theorem heapPush_nsym (i : Idx) : (heapPush s i).nsym = s.nsym := rfl
@[simp] theorem heapPush_heapSize (i : Idx) : (heapPush s i).heapSize = BitVec.ofNat 9 (pushed (less s.node) s.heap i).length := rfl
@[simp] theorem heapPush_acc (i : Idx) : (heapPush s i).acc = s.acc := rfl
@[simp] theorem heapPush_bitcnt (i : Idx) : (heapPush s i).bitcnt = s.bitcnt := rfl
@[simp] theorem heapPush_cur (i : Idx) : (heapPush s i).cur = s.cur := rfl
@[simp] theorem heapPush_freq (i : Idx) : (heapPush s i).freq = s.freq := rfl
@[simp] theorem heapPush_node (i : Idx) : (heapPush s i).node = s.node := rfl
@[simp] theorem heapPush_code (i : Idx) : (heapPush s i).code = s.code := rfl
@[simp] theorem heapPush_heap (i : Idx) : (heapPush s i).heap = pushed (less s.node) s.heap i := rfl
@[simp] theorem heapPush_ibuf (i : Idx) : (heapPush s i).ibuf = s.ibuf := rfl
@[simp] theorem heapPush_obuf (i : Idx) : (heapPush s i).obuf = s.obuf := rfl
@[simp] theorem heapPush_script (i : Idx) : (heapPush s i).script = s.script := rfl
@[simp] theorem heapPush_readData (i : Idx) : (heapPush s i).readData = s.readData := rfl
@[simp] theorem heapPush_draws (i : Idx) : (heapPush s i).draws = s.draws := rfl
@[simp] theorem heapPush_epoch (i : Idx) : (heapPush s i).epoch = s.epoch := rfl
@[simp] theorem heapPush_freqAt (i : Idx) (b' : Nat) : freqAt (heapPush s i) b' = freqAt s b' := rfl
@[simp] theorem heapPush_nodeAt (i : Idx) (j' : Idx) : nodeAt (heapPush s i) j' = nodeAt s j' := rfl
@[simp] theorem heapPush_codeAt (i : Idx) (c' : Byte) : codeAt (heapPush s i) c' = codeAt s c' := rfl
@[simp] theorem heapPush_ibufByte (i : Idx) (k' : Nat) : ibufByte (heapPush s i) k' = ibufByte s k' := rfl
@[simp] theorem heapPush_obufByte (i : Idx) (k' : Nat) : obufByte (heapPush s i) k' = obufByte s k' := rfl

end Sys2Proof.Machine
end

