-- ==== Sys2Proof/Laws/Table.lean ====
section
/-! SUPPORT. The laws of the sparse memories: a read after a write to the same index gives the value
written, a write leaves every other index alone, every operation keeps the canonical form, and two
canonical tables that read alike are equal. -/

namespace Sys2Proof.Machine

variable {α : Type}

@[simp] theorem Table.find_nil (k : Nat) : Table.find ([] : Table α) k = none := rfl

theorem Table.find_insert (t : Table α) (k : Nat) (v : α) (k' : Nat) :
    Table.find (Table.insert t k v) k' = if k' = k then some v else Table.find t k' := by
  induction t with
  | nil => simp [Table.insert, Table.find]
  | cons e t ih =>
    obtain ⟨j, u⟩ := e
    simp only [Table.insert]
    by_cases h3 : k' = k
    · subst h3
      rw [if_pos rfl] at ih ⊢
      split_ifs with h1 h2
      · simp [Table.find]
      · simp [Table.find]
      · simpa [Table.find, h2] using ih
    · split_ifs with h1 h2
      · simp [Table.find, h3]
      · subst h2; simp [Table.find, h3]
      · simp [Table.find, ih, h3]

theorem Table.find_erase (t : Table α) (k k' : Nat) :
    Table.find (Table.erase t k) k' = if k' = k then none else Table.find t k' := by
  induction t with
  | nil => simp [Table.erase, Table.find]
  | cons e t ih =>
    obtain ⟨j, u⟩ := e
    simp only [Table.erase]
    by_cases h2 : k' = k
    · subst h2
      rw [if_pos rfl] at ih ⊢
      split_ifs with h1
      · exact ih
      · simpa [Table.find, h1] using ih
    · split_ifs with h1
      · subst h1; simp [ih, h2, Table.find]
      · simp [Table.find, ih, h2]

theorem Table.get_put [DecidableEq α] (d : α) (t : Table α) (k : Nat) (v : α) (k' : Nat) :
    Table.get d (Table.put d t k v) k' = if k' = k then v else Table.get d t k' := by
  unfold Table.get Table.put
  split_ifs with h1 h2 h2
  · simp [Table.find_erase, h2, h1]
  · simp [Table.find_erase, h2]
  · simp [Table.find_insert, h2]
  · simp [Table.find_insert, h2]

@[simp] theorem Table.get_nil (d : α) (k : Nat) : Table.get d [] k = d := rfl

theorem Table.keys_insert_mem (t : Table α) (k : Nat) (v : α) (e : Nat × α)
    (h : e ∈ Table.insert t k v) : e = (k, v) ∨ e ∈ t := by
  induction t with
  | nil => simpa [Table.insert] using h
  | cons f t ih =>
    obtain ⟨j, u⟩ := f
    simp only [Table.insert] at h
    split_ifs at h with h1 h2
    · simpa using h
    · rcases List.mem_cons.1 h with h | h <;> simp [h]
    · rcases List.mem_cons.1 h with h | h
      · simp [h]
      · rcases ih h with h | h <;> simp [h]

theorem Table.mem_of_mem_erase (t : Table α) (k : Nat) (e : Nat × α)
    (h : e ∈ Table.erase t k) : e ∈ t := by
  induction t with
  | nil => simp [Table.erase] at h
  | cons f t ih =>
    obtain ⟨j, u⟩ := f
    simp only [Table.erase] at h
    split_ifs at h with h1
    · exact List.mem_cons_of_mem _ (ih h)
    · rcases List.mem_cons.1 h with h | h
      · simp [h]
      · exact List.mem_cons_of_mem _ (ih h)

theorem Table.rising_iff (t : Table α) :
    Table.rising t = true ↔ t.Pairwise (fun a b => a.1 < b.1) := by
  simp [Table.rising, List.pairwise_map]

theorem Table.rising_insert (t : Table α) (k : Nat) (v : α) (h : Table.rising t = true) :
    Table.rising (Table.insert t k v) = true := by
  rw [Table.rising_iff] at *
  induction t with
  | nil => simp [Table.insert]
  | cons f t ih =>
    obtain ⟨j, u⟩ := f
    obtain ⟨hj, ht⟩ := List.pairwise_cons.1 h
    simp only [Table.insert]
    split_ifs with h1 h2
    · refine List.pairwise_cons.2 ⟨fun e he => ?_, h⟩
      rcases List.mem_cons.1 he with rfl | he
      · exact h1
      · exact Nat.lt_trans h1 (hj e he)
    · subst h2; exact List.pairwise_cons.2 ⟨hj, ht⟩
    · refine List.pairwise_cons.2 ⟨fun e he => ?_, ih ht⟩
      rcases Table.keys_insert_mem _ _ _ _ he with rfl | he
      · show j < k; omega
      · exact hj e he

theorem Table.rising_erase (t : Table α) (k : Nat) (h : Table.rising t = true) :
    Table.rising (Table.erase t k) = true := by
  rw [Table.rising_iff] at *
  induction t with
  | nil => simp [Table.erase]
  | cons f t ih =>
    obtain ⟨j, u⟩ := f
    obtain ⟨hj, ht⟩ := List.pairwise_cons.1 h
    simp only [Table.erase]
    split_ifs with h1
    · exact ih ht
    · exact List.pairwise_cons.2 ⟨fun e he => hj e (Table.mem_of_mem_erase _ _ _ he), ih ht⟩

theorem Table.below_insert (n : Nat) (t : Table α) (k : Nat) (v : α) (hk : k < n)
    (h : Table.below n t = true) : Table.below n (Table.insert t k v) = true := by
  simp only [Table.below, List.all_eq_true, decide_eq_true_eq] at *
  intro e he
  rcases Table.keys_insert_mem _ _ _ _ he with rfl | he
  · exact hk
  · exact h e he

theorem Table.wf_iff [DecidableEq α] (n : Nat) (d : α) (t : Table α) :
    Table.wf n d t = true ↔
      Table.rising t = true ∧ ∀ e ∈ t, e.1 < n ∧ e.2 ≠ d := by
  simp only [Table.wf, Table.below, Bool.and_eq_true, List.all_eq_true, decide_eq_true_eq,
    and_assoc]
  constructor
  · rintro ⟨h1, h2, h3⟩; exact ⟨h1, fun e he => ⟨h2 e he, h3 e he⟩⟩
  · rintro ⟨h1, h2⟩; exact ⟨h1, fun e he => (h2 e he).1, fun e he => (h2 e he).2⟩

@[simp] theorem Table.wf_nil [DecidableEq α] (n : Nat) (d : α) : Table.wf n d [] = true := rfl

/-- A write to an index of the table keeps the canonical form. -/
theorem Table.wf_put [DecidableEq α] (n : Nat) (d : α) (t : Table α) (k : Nat) (v : α) (hk : k < n)
    (h : Table.wf n d t = true) : Table.wf n d (Table.put d t k v) = true := by
  rw [Table.wf_iff] at *
  obtain ⟨h1, h2⟩ := h
  unfold Table.put
  split_ifs with hv
  · exact ⟨Table.rising_erase _ _ h1, fun e he => h2 e (Table.mem_of_mem_erase _ _ _ he)⟩
  · refine ⟨Table.rising_insert _ _ _ h1, fun e he => ?_⟩
    rcases Table.keys_insert_mem _ _ _ _ he with rfl | he
    · exact ⟨hk, hv⟩
    · exact h2 e he

theorem Table.find_eq_none_of_lt (t : Table α) (k : Nat) (h : ∀ e ∈ t, k < e.1) :
    Table.find t k = none := by
  induction t with
  | nil => rfl
  | cons f t ih =>
    obtain ⟨j, u⟩ := f
    have hj : k < j := h (j, u) (by simp)
    simp only [Table.find]
    rw [if_neg (by omega)]
    exact ih fun e he => h e (by simp [he])

theorem Table.find_of_mem (t : Table α) (hr : Table.rising t = true) (e : Nat × α) (he : e ∈ t) :
    Table.find t e.1 = some e.2 := by
  rw [Table.rising_iff] at hr
  induction t with
  | nil => simp at he
  | cons f t ih =>
    obtain ⟨j, u⟩ := f
    obtain ⟨hj, ht⟩ := List.pairwise_cons.1 hr
    rcases List.mem_cons.1 he with rfl | he
    · simp [Table.find]
    · have : j < e.1 := hj e he
      simp only [Table.find]
      rw [if_neg (by omega)]
      exact ih ht he

/-- Two byte memories in canonical form that list the same bytes are equal. -/
theorem Table.ext_find (t t' : Table α) (h : Table.rising t = true) (h' : Table.rising t' = true)
    (hf : ∀ k, Table.find t k = Table.find t' k) : t = t' := by
  rw [Table.rising_iff] at h h'
  induction t generalizing t' with
  | nil =>
    cases t' with
    | nil => rfl
    | cons e t' => have := hf e.1; simp [Table.find] at this
  | cons e t ih =>
    obtain ⟨j, u⟩ := e
    cases t' with
    | nil => have := hf j; simp [Table.find] at this
    | cons e' t' =>
      obtain ⟨j', u'⟩ := e'
      obtain ⟨hj, ht⟩ := List.pairwise_cons.1 h
      obtain ⟨hj', ht'⟩ := List.pairwise_cons.1 h'
      have e1 : j = j' := by
        rcases Nat.lt_trichotomy j j' with hlt | heq | hgt
        · have := hf j
          simp only [Table.find, if_true] at this
          rw [if_neg (by omega), Table.find_eq_none_of_lt] at this
          · simp at this
          · intro e he; have := hj' e he; simp at this; omega
        · exact heq
        · have := hf j'
          simp only [Table.find, if_true] at this
          rw [if_neg (by omega), Table.find_eq_none_of_lt] at this
          · simp at this
          · intro e he; have := hj e he; simp at this; omega
      subst e1
      have e2 : u = u' := by simpa [Table.find] using hf j
      subst e2
      congr 1
      refine ih t' ht ht' fun k => ?_
      by_cases hk : k = j
      · subst hk
        rw [Table.find_eq_none_of_lt _ _ (fun e he => hj e he),
          Table.find_eq_none_of_lt _ _ (fun e he => hj' e he)]
      · simpa [Table.find, hk] using hf k

/-- Two canonical tables that read alike at every index are equal. -/
theorem Table.ext_get [DecidableEq α] (n : Nat) (d : α) (t t' : Table α)
    (h : Table.wf n d t = true) (h' : Table.wf n d t' = true)
    (hg : ∀ k, Table.get d t k = Table.get d t' k) : t = t' := by
  have aux : ∀ (t : Table α), Table.wf n d t = true → ∀ k, Table.find t k ≠ some d := by
    intro t ht k
    rw [Table.wf_iff] at ht
    have : ∀ t : Table α, (∀ e ∈ t, e.2 ≠ d) → Table.find t k ≠ some d := by
      intro t
      induction t with
      | nil => simp
      | cons e t ih =>
        obtain ⟨j, u⟩ := e
        intro hd
        simp only [Table.find]
        split_ifs
        · intro hc; exact hd (j, u) (by simp) (Option.some.inj hc)
        · exact ih fun e he => hd e (by simp [he])
    exact this t fun e he => (ht.2 e he).2
  refine Table.ext_find t t' (Table.wf_iff n d t |>.1 h).1 (Table.wf_iff n d t' |>.1 h').1 ?_
  intro k
  have h1 := aux t h k
  have h2 := aux t' h' k
  have h3 := hg k
  unfold Table.get at h3
  cases e1 : Table.find t k <;> cases e2 : Table.find t' k <;> simp_all

end Sys2Proof.Machine
end

