-- ==== Sys2Proof/Laws/Ops.lean ====
section
/-! SUPPORT. What each shared operation can do, said once: running a command, `emit`, the writes to
the memories and the canonical forms they keep. -/

namespace Sys2Proof.Machine

/-! ### Running a command -/

/-- Everything a run of a command can answer: refused, completed, or faulted. -/
theorem runCommand_cases {d : Discard} {body : State → Except Trap State} {s t : State}
    (h : runCommand d body s = .next t) :
    s.err = true ∧ t = s ∨
    s.err = false ∧ (∃ u, body (start s) = .ok u ∧ t = complete u) ∨
    s.err = false ∧ ∃ f, body (start s) = .error f ∧ t = raise d f s := by
  cases he : s.err with
  | true => exact .inl ⟨rfl, by simpa [runCommand, he] using h.symm⟩
  | false =>
    simp only [runCommand, finish, he, Bool.false_eq_true, if_false] at h
    cases hb : body (start s) with
    | ok u => exact .inr (.inl ⟨rfl, u, rfl, by simpa [hb] using h.symm⟩)
    | error f => exact .inr (.inr ⟨rfl, f, rfl, by simpa [hb] using h.symm⟩)

theorem runCommand_refused {d : Discard} {body : State → Except Trap State} {s : State}
    (he : s.err = true) : runCommand d body s = .next s := by simp [runCommand, he]

theorem runCommand_ok {d : Discard} {body : State → Except Trap State} {s u : State}
    (he : s.err = false) (h : body (start s) = .ok u) :
    runCommand d body s = .next (complete u) := by simp [runCommand, finish, he, h]

theorem runCommand_error {d : Discard} {body : State → Except Trap State} {s : State} {f : Trap}
    (he : s.err = false) (h : body (start s) = .error f) :
    runCommand d body s = .next (raise d f s) := by simp [runCommand, finish, he, h]

/-- A command always answers a next state. -/
theorem runCommand_next (d : Discard) (body : State → Except Trap State) (s : State) :
    ∃ t, runCommand d body s = .next t := by
  unfold runCommand finish
  split
  · exact ⟨_, rfl⟩
  · split <;> exact ⟨_, rfl⟩

theorem checkInLen_ok {s : State} (h : s.inLen ≤ s.icap) : checkInLen s = .ok s := by
  simp [checkInLen, BitVec.not_lt.2 h]

theorem checkInLen_error {s : State} (h : s.icap < s.inLen) :
    checkInLen s = .error ⟨.bufferOverflow, 3#32, s.inLen⟩ := by
  simp [checkInLen, h]

/-- The length test passes on the state unchanged, or faults. -/
theorem checkInLen_cases (s : State) :
    s.inLen ≤ s.icap ∧ checkInLen s = .ok s ∨
    s.icap < s.inLen ∧ checkInLen s = .error ⟨.bufferOverflow, 3#32, s.inLen⟩ := by
  by_cases h : s.icap < s.inLen
  · exact .inr ⟨h, checkInLen_error h⟩
  · exact .inl ⟨BitVec.not_lt.1 h, checkInLen_ok (BitVec.not_lt.1 h)⟩

/-! ### The output sequence -/

/-- The cells of OBUF that hold a byte sequence from index 0 on. -/
def cellsFrom : Nat → List Byte → Memory
  | _, [] => []
  | k, v :: vs => (k, v) :: cellsFrom (k + 1) vs

theorem cellsFrom_keys (k : Nat) (vs : List Byte) :
    (cellsFrom k vs).map Prod.fst = List.range' k vs.length := by
  induction vs generalizing k with
  | nil => rfl
  | cons v vs ih => simp [cellsFrom, ih, List.range'_succ]

theorem find_cellsFrom (k : Nat) (vs : List Byte) (j : Nat) :
    Table.find (cellsFrom k vs) (k + j) = vs[j]? := by
  induction vs generalizing k j with
  | nil => simp [cellsFrom]
  | cons v vs ih =>
    cases j with
    | zero => simp [cellsFrom, Table.find]
    | succ j =>
      have := ih (k + 1) j
      simp only [cellsFrom, Table.find]
      rw [if_neg (by omega), show k + (j + 1) = k + 1 + j by omega, this]
      simp

theorem insert_cellsFrom (k : Nat) (vs : List Byte) (v : Byte) :
    Table.insert (cellsFrom k vs) (k + vs.length) v = cellsFrom k (vs ++ [v]) := by
  induction vs generalizing k with
  | nil => simp [cellsFrom, Table.insert]
  | cons u vs ih =>
    simp only [cellsFrom, Table.insert, List.length_cons, List.cons_append]
    rw [if_neg (by omega), if_neg (by omega), ← ih (k + 1)]
    congr 2; omega

/-- OBUF and OUT_LEN hold the byte sequence vs. -/
structure Holds (s : State) (vs : List Byte) : Prop where
  len : s.outLen.toNat = vs.length
  cells : s.obuf = cellsFrom 0 vs

theorem Holds.obufByte {s : State} {vs : List Byte} (h : Holds s vs) {k : Nat}
    (hk : k < vs.length) : obufByte s k = vs[k] := by
  have := find_cellsFrom 0 vs k
  simp only [Nat.zero_add] at this
  simp [Machine.obufByte, h.cells, this, List.getElem?_eq_getElem hk]

theorem Holds.outputBytes {s : State} {vs : List Byte} (h : Holds s vs) : outputBytes s = vs := by
  unfold Machine.outputBytes
  rw [h.len]
  apply List.ext_getElem
  · simp
  · intro k h1 h2
    simp [h.obufByte h2]

theorem holds_clearOutput (s : State) : Holds (clearOutput s) [] := ⟨rfl, rfl⟩

/-- `emit` appends one byte, and nothing else, when OBUF has room. -/
theorem emit_ok {s : State} {vs : List Byte} (h : Holds s vs) (sub pos : Word) (v : Byte)
    (hroom : vs.length < s.ocap.toNat) :
    ∃ t, emit sub pos v s = .ok t ∧ Holds t (vs ++ [v]) ∧
      t = { s with obuf := t.obuf, outLen := t.outLen } := by
  have hne : s.outLen ≠ s.ocap := by
    intro hc; have := h.len; rw [hc] at this; omega
  refine ⟨{ s with obuf := Table.insert s.obuf s.outLen.toNat v, outLen := s.outLen + 1#32 }, ?_,
    ⟨?_, ?_⟩, rfl⟩
  · simp [emit, hne]
  · have := s.ocap.isLt
    simp only [List.length_append, List.length_cons, List.length_nil]
    rw [BitVec.toNat_add, h.len]
    simp only [BitVec.toNat_ofNat]
    omega
  · have := insert_cellsFrom 0 vs v
    simp only [Nat.zero_add] at this
    simp [h.cells, h.len, this]

/-- `emit` faults exactly when OUT_LEN = OBUF_CAP. -/
theorem emit_full {s : State} {vs : List Byte} (h : Holds s vs) (sub pos : Word) (v : Byte)
    (hfull : vs.length = s.ocap.toNat) : emit sub pos v s = .error ⟨.bufferOverflow, sub, pos⟩ := by
  have : s.outLen = s.ocap := BitVec.eq_of_toNat_eq (by rw [h.len, hfull])
  simp [emit, this]

/-- Everything `emit` can answer. -/
theorem emit_cases (sub pos : Word) (v : Byte) (s : State) :
    s.outLen = s.ocap ∧ emit sub pos v s = .error ⟨.bufferOverflow, sub, pos⟩ ∨
    s.outLen ≠ s.ocap ∧ emit sub pos v s = .ok
      { s with obuf := Table.insert s.obuf s.outLen.toNat v, outLen := s.outLen + 1#32 } := by
  unfold emit
  by_cases h : s.outLen = s.ocap
  · exact .inl ⟨h, by simp [h]⟩
  · exact .inr ⟨h, by simp [h]⟩

/-! ### Writes to IBUF -/

theorem setIbufBytes_frame (s : State) (k : Nat) (vs : List Byte) :
    setIbufBytes s k vs = { s with ibuf := (setIbufBytes s k vs).ibuf } := by
  induction vs generalizing s k with
  | nil => rfl
  | cons v vs ih => simp only [setIbufBytes]; rw [ih (setIbuf s k v) (k + 1)]; rfl

theorem ibufByte_setIbuf (s : State) (k : Nat) (v : Byte) (j : Nat) :
    ibufByte (setIbuf s k v) j = if j = k then v else ibufByte s j := by
  simp only [ibufByte, setIbuf_ibuf, setIbuf_epoch, Table.find_insert]
  split_ifs <;> rfl

/-- IBUF after a block of bytes is written from index k on. -/
theorem ibufByte_setIbufBytes (s : State) (k : Nat) (vs : List Byte) (j : Nat) :
    ibufByte (setIbufBytes s k vs) j =
      if k ≤ j ∧ j < k + vs.length then vs.getD (j - k) 0#8 else ibufByte s j := by
  induction vs generalizing s k with
  | nil => simp [setIbufBytes]
  | cons v vs ih =>
    simp only [setIbufBytes, ih, ibufByte_setIbuf, List.length_cons]
    by_cases h1 : j = k
    · subst h1; simp
    · by_cases h2 : k + 1 ≤ j ∧ j < k + 1 + vs.length
      · rw [if_pos h2, if_pos (by omega), show j - k = (j - (k + 1)) + 1 by omega]; simp
      · rw [if_neg h2, if_neg h1, if_neg (by omega)]

theorem setIbufBytes_wf (s : State) (k : Nat) (vs : List Byte) (n : Nat) (hk : k + vs.length ≤ n)
    (h : Memory.wf s.ibuf = true ∧ Table.below n s.ibuf = true) :
    Memory.wf (setIbufBytes s k vs).ibuf = true ∧
      Table.below n (setIbufBytes s k vs).ibuf = true := by
  induction vs generalizing s k with
  | nil => exact h
  | cons v vs ih =>
    simp only [List.length_cons] at hk
    refine ih (setIbuf s k v) (k + 1) (by omega) ⟨?_, ?_⟩
    · exact Table.rising_insert _ _ _ h.1
    · exact Table.below_insert _ _ _ _ (by omega) h.2

/-! ### Writes to FREQ, NODE and CODE -/

theorem freqAt_setFreq (s : State) (b : Nat) (v : Word) (c : Nat) :
    freqAt (setFreq s b v) c = if c = b then v else freqAt s c := Table.get_put _ _ _ _ _

theorem nodeAt_setNode (s : State) (i : Nat) (r : NodeRec) (j : Idx) :
    nodeAt (setNode s i r) j = if j.toNat = i then r else nodeAt s j := Table.get_put _ _ _ _ _

theorem codeAt_setCode (s : State) (b : Nat) (e : CodeEntry) (c : Byte) :
    codeAt (setCode s b e) c = if c.toNat = b then e else codeAt s c := Table.get_put _ _ _ _ _

/-! ### Every memory operation keeps the canonical form -/

theorem setFreq_wf (s : State) {b : Nat} (v : Word) (hb : b < 256)
    (h : Table.wf Config.nsymMax 0#32 s.freq = true) :
    Table.wf Config.nsymMax 0#32 (setFreq s b v).freq = true := Table.wf_put _ _ _ _ _ hb h

theorem setNode_wf (s : State) {i : Nat} (r : NodeRec) (hi : i < 511)
    (h : Table.wf Config.nodeMax clearedNode s.node = true) :
    Table.wf Config.nodeMax clearedNode (setNode s i r).node = true := Table.wf_put _ _ _ _ _ hi h

theorem setCode_wf (s : State) {b : Nat} (e : CodeEntry) (hb : b < 256)
    (h : Table.wf Config.nsymMax clearedCode s.code = true) :
    Table.wf Config.nsymMax clearedCode (setCode s b e).code = true := Table.wf_put _ _ _ _ _ hb h

theorem setIbuf_wf (s : State) (k : Nat) (v : Byte) (h : Memory.wf s.ibuf = true) :
    Memory.wf (setIbuf s k v).ibuf = true := Table.rising_insert _ _ _ h

theorem emit_wf {s t : State} {sub pos : Word} {v : Byte} (h : Memory.wf s.obuf = true)
    (ht : emit sub pos v s = .ok t) : Memory.wf t.obuf = true := by
  rcases emit_cases sub pos v s with ⟨_, e⟩ | ⟨_, e⟩
  · rw [e] at ht; cases ht
  · rw [e] at ht
    cases ht
    exact Table.rising_insert _ _ _ h

theorem clearOutput_wf (s : State) : Memory.wf (clearOutput s).obuf = true := rfl

/-- The memories of the reset state are in canonical form. -/
theorem reset_wf : Table.wf Config.nsymMax 0#32 State.reset.freq = true ∧
    Table.wf Config.nodeMax clearedNode State.reset.node = true ∧
    Table.wf Config.nsymMax clearedCode State.reset.code = true ∧
    Memory.wf State.reset.ibuf = true ∧ Memory.wf State.reset.obuf = true :=
  ⟨rfl, rfl, rfl, rfl, rfl⟩

end Sys2Proof.Machine
end

