-- ==== Sys2Proof/Laws/AddressMap.lean ====
section
/-! SUPPORT. Where the offsets of the window lead (R41), what a host write to one location does to
the reads of the others (R43, R52), and the fields of the record words (R48, R49). -/

namespace Sys2Proof.Machine

/-! ### Offsets -/

theorem admitted_iff (a w : Nat) :
    admitted a w = true ↔ w = 4 ∧ a % 4 = 0 ∧ a < 0x400000 := by
  have : decide (a < Config.windowSize) = true ↔ a < 0x400000 := decide_eq_true_iff
  simp only [admitted, Bool.and_eq_true, beq_iff_eq, and_assoc, this]

/-- Where an element's offset leads: `omega` settles every bound of the map on the way (R41). -/
theorem locate_freq (i o : Nat) {b : Nat} (hb : b < 256) : locate i o (0x400 + 4 * b) = .freq b := by
  simp (disch := omega) only [locate, if_pos, if_neg]
  congr 1; omega

theorem locate_heap (i o : Nat) {p : Nat} (hp : p < 256) : locate i o (0x800 + 4 * p) = .heap p := by
  simp (disch := omega) only [locate, if_pos, if_neg]
  congr 1; omega

theorem locate_node (i o : Nat) {k w : Nat} (hk : k < 511) (hw : w < 4) :
    locate i o (0x2000 + 16 * k + 4 * w) = .node k w := by
  simp (disch := omega) only [locate, if_pos, if_neg]
  congr 1 <;> omega

theorem locate_code (i o : Nat) {b w : Nat} (hb : b < 256) (hw : w < 9) :
    locate i o (0x4000 + 64 * b + 4 * w) = .code b w := by
  simp (disch := omega) only [locate, locateCode, if_pos, if_neg]
  congr 1 <;> omega

theorem locate_ibuf (i o : Nat) {w : Nat} (hi : 4 * w < i) (hw : 4 * w < 0x100000) :
    locate i o (0x100000 + 4 * w) = .ibuf w := by
  simp (disch := omega) only [locate, if_pos, if_neg]
  congr 1; omega

theorem locate_obuf (i o : Nat) {w : Nat} (ho : 4 * w < o) :
    locate i o (0x200000 + 4 * w) = .obuf w := by
  simp (disch := omega) only [locate, if_pos, if_neg]
  congr 1; omega

/-- The offset of a location. -/
def Loc.offset : Loc → Nat
  | .cmd => 0x00
  | .status => 0x04
  | .errcode => 0x08
  | .errinfo => 0x0C
  | .errpos => 0x10
  | .inLen => 0x14
  | .outLen => 0x18
  | .nbits => 0x1C
  | .root => 0x20
  | .nnodes => 0x24
  | .nsym => 0x28
  | .heapSize => 0x2C
  | .id => 0x30
  | .icap => 0x34
  | .ocap => 0x38
  | .freq b => 0x400 + 4 * b
  | .heap p => 0x800 + 4 * p
  | .node i w => 0x2000 + 16 * i + 4 * w
  | .code b w => 0x4000 + 64 * b + 4 * w
  | .ibuf w => 0x100000 + 4 * w
  | .obuf w => 0x200000 + 4 * w
  | .reserved => 0

theorem locateRegister_offset (a : Nat) (ha : a < 0x40) (h4 : a % 4 = 0) :
    locateRegister a = .reserved ∨ (locateRegister a).offset = a := by
  obtain ⟨q, rfl⟩ : ∃ q, a = 4 * q := ⟨a / 4, by omega⟩
  have hq : q < 16 := by omega
  interval_cases q <;> first | exact .inr rfl | exact .inl rfl

/-- No two aligned offsets lead to one location, but for the reserved ones (R41). -/
theorem locate_offset (i o a : Nat) (h4 : a % 4 = 0) :
    locate i o a = .reserved ∨ (locate i o a).offset = a := by
  unfold locate
  by_cases h0 : a < 0x40
  · rw [if_pos h0]
    exact locateRegister_offset a h0 h4
  rw [if_neg h0]
  by_cases h1 : a < 0x400
  · rw [if_pos h1]
    exact .inl rfl
  rw [if_neg h1]
  by_cases h2 : a < 0x800
  · rw [if_pos h2]
    right; simp only [Loc.offset]; omega
  rw [if_neg h2]
  by_cases h3 : a < 0xC00
  · rw [if_pos h3]
    right; simp only [Loc.offset]; omega
  rw [if_neg h3]
  by_cases h4 : a < 0x2000
  · rw [if_pos h4]
    exact .inl rfl
  rw [if_neg h4]
  by_cases h5 : a < 0x3FF0
  · rw [if_pos h5]
    right; simp only [Loc.offset]; omega
  rw [if_neg h5]
  by_cases h6 : a < 0x4000
  · rw [if_pos h6]
    exact .inl rfl
  rw [if_neg h6]
  by_cases h7 : a < 0x8000
  · rw [if_pos h7]
    unfold locateCode
    by_cases h : (a - 0x4000) % 64 / 4 < 9
    · rw [if_pos h]; right; simp only [Loc.offset]; omega
    · rw [if_neg h]; exact .inl rfl
  rw [if_neg h7]
  by_cases h8 : a < 0x100000
  · rw [if_pos h8]
    exact .inl rfl
  rw [if_neg h8]
  by_cases h9 : a < 0x200000
  · rw [if_pos h9]
    by_cases h : a < 0x100000 + i
    · rw [if_pos h]; right; simp only [Loc.offset]; omega
    · rw [if_neg h]; exact .inl rfl
  rw [if_neg h9]
  by_cases h10 : a < 0x200000 + o
  · rw [if_pos h10]
    right; simp only [Loc.offset]; omega
  rw [if_neg h10]
  exact .inl rfl

/-- The element numbers of a location are inside their memories, for capacities i and o. -/
def Loc.fits (i o : Nat) : Loc → Prop
  | .freq b => b < 256
  | .heap p => p < 256
  | .node k w => k < 511 ∧ w < 4
  | .code b w => b < 256 ∧ w < 9
  | .ibuf w => 4 * w < i ∧ 4 * w < 0x100000
  | .obuf w => 4 * w < o
  | _ => True

theorem locate_fits (i o a : Nat) : (locate i o a).fits i o := by
  unfold locate
  by_cases h0 : a < 0x40
  · rw [if_pos h0]
    have hq : a / 4 < 16 := by omega
    unfold locateRegister
    generalize a / 4 = q at hq
    interval_cases q <;> trivial
  rw [if_neg h0]
  by_cases h1 : a < 0x400
  · rw [if_pos h1]
    trivial
  rw [if_neg h1]
  by_cases h2 : a < 0x800
  · rw [if_pos h2]
    simp only [Loc.fits]; omega
  rw [if_neg h2]
  by_cases h3 : a < 0xC00
  · rw [if_pos h3]
    simp only [Loc.fits]; omega
  rw [if_neg h3]
  by_cases h4 : a < 0x2000
  · rw [if_pos h4]
    trivial
  rw [if_neg h4]
  by_cases h5 : a < 0x3FF0
  · rw [if_pos h5]
    simp only [Loc.fits]; omega
  rw [if_neg h5]
  by_cases h6 : a < 0x4000
  · rw [if_pos h6]
    trivial
  rw [if_neg h6]
  by_cases h7 : a < 0x8000
  · rw [if_pos h7]
    unfold locateCode
    by_cases h : (a - 0x4000) % 64 / 4 < 9
    · rw [if_pos h]; simp only [Loc.fits]; omega
    · rw [if_neg h]; trivial
  rw [if_neg h7]
  by_cases h8 : a < 0x100000
  · rw [if_pos h8]
    trivial
  rw [if_neg h8]
  by_cases h9 : a < 0x200000
  · rw [if_pos h9]
    by_cases h : a < 0x100000 + i
    · rw [if_pos h]; simp only [Loc.fits]; omega
    · rw [if_neg h]; trivial
  rw [if_neg h9]
  by_cases h10 : a < 0x200000 + o
  · rw [if_pos h10]
    simp only [Loc.fits]; omega
  rw [if_neg h10]
  trivial

/-! ### Record words -/

theorem extract_low (a : BitVec 8) (b : BitVec 32) : (a ++ b).extractLsb' 0 32 = b := by
  apply BitVec.eq_of_getLsbD_eq
  intro j hj
  simp only [BitVec.getLsbD_append, BitVec.getLsbD_extractLsb', hj, Nat.zero_add]
  simp [hj]

theorem extract_high (a : BitVec 8) (b : BitVec 32) : (a ++ b).extractLsb' 32 8 = a := by
  apply BitVec.eq_of_getLsbD_eq
  intro j hj
  simp only [BitVec.getLsbD_append, BitVec.getLsbD_extractLsb', hj]
  simp [hj]

/-- A write to one word of a node record, read back: the fields of the word (R48). -/
theorem nodeWord_nodeSetWord (r : NodeRec) (v : Word) {w : Nat} (hw : w < 4) :
    nodeWord (nodeSetWord r w v) w =
      v &&& [0xFF03#32, 0xFFFFFFFF#32, 0xFF#32, 0x07FFFFFF#32].getD w 0#32 := by
  have hk : ∀ b : BitVec 2, kindBits (kindOfBits b) = b := by decide
  interval_cases w
  · show 0#16 ++ v.extractLsb' 8 8 ++ 0#6 ++ kindBits (kindOfBits (v.extractLsb' 0 2)) =
      v &&& 0xFF03#32
    rw [hk]
    apply BitVec.eq_of_getLsbD_eq
    intro j hj
    interval_cases j <;>
      simp only [BitVec.getLsbD_append, BitVec.getLsbD_extractLsb', BitVec.getLsbD_and] <;> simp
  · show (r.freq.extractLsb' 32 8 ++ v).extractLsb' 0 32 = v &&& 0xFFFFFFFF#32
    rw [extract_low]
    exact BitVec.and_allOnes.symm
  · show 0#24 ++ (v.extractLsb' 0 8 ++ r.freq.extractLsb' 0 32).extractLsb' 32 8 = v &&& 0xFF#32
    rw [extract_high]
    apply BitVec.eq_of_getLsbD_eq
    intro j hj
    interval_cases j <;>
      simp only [BitVec.getLsbD_append, BitVec.getLsbD_extractLsb', BitVec.getLsbD_and] <;> simp
  · show 0#5 ++ v.extractLsb' 18 9 ++ v.extractLsb' 9 9 ++ v.extractLsb' 0 9 = v &&& 0x07FFFFFF#32
    apply BitVec.eq_of_getLsbD_eq
    intro j hj
    interval_cases j <;>
      simp only [BitVec.getLsbD_append, BitVec.getLsbD_extractLsb', BitVec.getLsbD_and] <;> simp

/-- A write to one word of a node record leaves the other words (R48). -/
theorem nodeWord_nodeSetWord_ne (r : NodeRec) (v : Word) {w w' : Nat} (hw : w < 4) (hw' : w' < 4)
    (h : w' ≠ w) : nodeWord (nodeSetWord r w v) w' = nodeWord r w' := by
  interval_cases w <;> interval_cases w' <;> first | exact absurd rfl h | rfl | skip
  · show 0#24 ++ (r.freq.extractLsb' 32 8 ++ v).extractLsb' 32 8 = 0#24 ++ r.freq.extractLsb' 32 8
    rw [extract_high]
  · show (v.extractLsb' 0 8 ++ r.freq.extractLsb' 0 32).extractLsb' 0 32 = r.freq.extractLsb' 0 32
    rw [extract_low]

/-- Bit j of CBITS after a write to a word of a code entry (R49). -/
theorem codeSetWord_getLsbD (e : CodeEntry) (v : Word) {w : Nat} (h0 : w ≠ 0) (hw : w < 9) (j : Nat)
    (hj : j < 256) :
    (codeSetWord e w v).cbits.getLsbD j =
      if 224 - 32 * (w - 1) ≤ j ∧ j < 224 - 32 * (w - 1) + 32 then
        v.getLsbD (j - (224 - 32 * (w - 1)))
      else e.cbits.getLsbD j := by
  simp only [codeSetWord, if_neg h0, BitVec.getLsbD_or, BitVec.getLsbD_and, BitVec.getLsbD_not,
    BitVec.getLsbD_shiftLeft, BitVec.getLsbD_setWidth, hj, decide_true, Bool.true_and]
  by_cases h1 : j < 224 - 32 * (w - 1)
  · rw [if_neg (by omega)]; simp [h1]
  · by_cases h2 : j < 224 - 32 * (w - 1) + 32
    · rw [if_pos (by omega)]
      have h3 : j - (224 - 32 * (w - 1)) < 32 := by omega
      have h4 : (0xFFFFFFFF#256).getLsbD (j - (224 - 32 * (w - 1))) = true := by
        generalize j - (224 - 32 * (w - 1)) = q at h3
        interval_cases q <;> rfl
      simp only [h1, h4, decide_false, Bool.not_false, Bool.not_true, Bool.true_and, Bool.and_false,
        Bool.false_or]
      have : j - (224 - 32 * (w - 1)) < 256 := by omega
      simp [this]
    · rw [if_neg (by omega)]
      have h4 : (0xFFFFFFFF#256).getLsbD (j - (224 - 32 * (w - 1))) = false := by
        have : (0xFFFFFFFF#256) = (0xFFFFFFFF#32).setWidth 256 := rfl
        rw [this, BitVec.getLsbD_setWidth, BitVec.getLsbD_of_ge _ _ (by omega)]; simp
      have h5 : v.getLsbD (j - (224 - 32 * (w - 1))) = false :=
        BitVec.getLsbD_of_ge _ _ (by omega)
      simp [h4, h5]

theorem codeSetWord_clen (e : CodeEntry) (v : Word) {w : Nat} (h0 : w ≠ 0) :
    (codeSetWord e w v).clen = e.clen := by simp [codeSetWord, h0]

/-- A write to one word of a code entry, read back (R49). -/
theorem codeWord_codeSetWord (e : CodeEntry) (v : Word) {w : Nat} (hw : w < 9) :
    codeWord (codeSetWord e w v) w = if w = 0 then v &&& 0xFF#32 else v := by
  by_cases h0 : w = 0
  · subst h0
    simp only [codeWord, codeSetWord, if_true]
    apply BitVec.eq_of_getLsbD_eq
    intro j hj
    interval_cases j <;> simp only [BitVec.getLsbD_append, BitVec.getLsbD_extractLsb', BitVec.getLsbD_and] <;> simp
  · simp only [codeWord, if_neg h0]
    apply BitVec.eq_of_getLsbD_eq
    intro j hj
    rw [BitVec.getLsbD_extractLsb', codeSetWord_getLsbD e v h0 hw _ (by omega), if_pos (by omega),
      Nat.add_sub_cancel_left]
    simp [hj]

/-- A write to one word of a code entry leaves the other words (R49). -/
theorem codeWord_codeSetWord_ne (e : CodeEntry) (v : Word) {w w' : Nat} (hw : w < 9) (hw' : w' < 9)
    (h : w' ≠ w) : codeWord (codeSetWord e w v) w' = codeWord e w' := by
  by_cases h0 : w = 0
  · subst h0; simp [codeWord, codeSetWord, h]
  · by_cases h0' : w' = 0
    · subst h0'; simp [codeWord, codeSetWord_clen e v h0]
    · simp only [codeWord, if_neg h0']
      apply BitVec.eq_of_getLsbD_eq
      intro j hj
      rw [BitVec.getLsbD_extractLsb', BitVec.getLsbD_extractLsb',
        codeSetWord_getLsbD e v h0 hw _ (by omega), if_neg (by omega)]

/-! ### Reads after writes -/

/-- A write moves no location and draws no free word. -/
theorem writeLoc_frame (s : State) (v : Word) (l : Loc) :
    writeLoc s v l = { s with
      inLen := (writeLoc s v l).inLen, nbits := (writeLoc s v l).nbits,
      root := (writeLoc s v l).root, freq := (writeLoc s v l).freq,
      node := (writeLoc s v l).node, code := (writeLoc s v l).code,
      ibuf := (writeLoc s v l).ibuf } := by
  cases l <;> rfl

theorem readLoc_setFreq (s : State) (b : Nat) (v : Word) {l : Loc} (h : l ≠ .freq b) :
    readLoc (setFreq s b v) l = readLoc s l := by
  cases l with
  | freq c =>
    show freqAt (setFreq s b v) c = freqAt s c
    rw [freqAt_setFreq, if_neg (fun e => h (by rw [e]))]
  | _ => rfl

theorem readLoc_setNode (s : State) (k : Nat) (r : NodeRec) {l : Loc}
    (h : ∀ w, l = .node k w → nodeWord r w = nodeWord (Table.get clearedNode s.node k) w) :
    readLoc (setNode s k r) l = readLoc s l := by
  cases l with
  | node k' w' =>
    show nodeWord (Table.get clearedNode (Table.put clearedNode s.node k r) k') w' = nodeWord _ w'
    rw [Table.get_put]
    split_ifs with e
    · subst e; exact h w' rfl
    · rfl
  | _ => rfl

theorem readLoc_setCode (s : State) (b : Nat) (e : CodeEntry) {l : Loc}
    (h : ∀ w, l = .code b w → codeWord e w = codeWord (Table.get clearedCode s.code b) w) :
    readLoc (setCode s b e) l = readLoc s l := by
  cases l with
  | code b' w' =>
    show codeWord (Table.get clearedCode (Table.put clearedCode s.code b e) b') w' = codeWord _ w'
    rw [Table.get_put]
    split_ifs with e
    · subst e; exact h w' rfl
    · rfl
  | _ => rfl

theorem readLoc_setIbufBytes (s : State) (w : Nat) (vs : List Byte) (hv : vs.length = 4) {l : Loc}
    (h : l ≠ .ibuf w) : readLoc (setIbufBytes s (4 * w) vs) l = readLoc s l := by
  cases l with
  | ibuf w' =>
    have hw : w' ≠ w := fun e => h (by rw [e])
    simp only [readLoc, ibufByte_setIbufBytes, hv]
    simp (disch := omega) only [if_neg]
  | _ => rw [setIbufBytes_frame]; rfl

/-- What a write to a location other than l' leaves of the read of l' (R43). -/
theorem readLoc_writeLoc_ne (s : State) (v : Word) (i o : Nat) {l l' : Loc} (hl : l.fits i o)
    (hl' : l'.fits i o) (h : l' ≠ l) : readLoc (writeLoc s v l) l' = readLoc s l' := by
  cases l with
  | inLen => cases l' with
    | inLen => exact absurd rfl h
    | _ => rfl
  | nbits => cases l' with
    | nbits => exact absurd rfl h
    | _ => rfl
  | root => cases l' with
    | root => exact absurd rfl h
    | _ => rfl
  | freq b => exact readLoc_setFreq s b v h
  | node k w =>
    refine readLoc_setNode s k _ (fun w' e => ?_)
    subst e
    exact nodeWord_nodeSetWord_ne _ _ hl.2 hl'.2 (fun e => h (by rw [e]))
  | code b w =>
    refine readLoc_setCode s b _ (fun w' e => ?_)
    subst e
    exact codeWord_codeSetWord_ne _ _ hl.2 hl'.2 (fun e => h (by rw [e]))
  | ibuf w => exact readLoc_setIbufBytes s w _ rfl h
  | _ => rfl

theorem byteLane_wordOfBytes (b0 b1 b2 b3 : Byte) :
    byteLane (wordOfBytes b0 b1 b2 b3) 0 = b0 ∧ byteLane (wordOfBytes b0 b1 b2 b3) 1 = b1 ∧
    byteLane (wordOfBytes b0 b1 b2 b3) 2 = b2 ∧ byteLane (wordOfBytes b0 b1 b2 b3) 3 = b3 := by
  refine ⟨?_, ?_, ?_, ?_⟩ <;>
  · apply BitVec.eq_of_getLsbD_eq
    intro j hj
    simp only [byteLane, wordOfBytes]
    interval_cases j <;>
      simp only [BitVec.getLsbD_append, BitVec.getLsbD_extractLsb'] <;> simp

theorem wordOfBytes_byteLane (v : Word) :
    wordOfBytes (byteLane v 0) (byteLane v 1) (byteLane v 2) (byteLane v 3) = v := by
  apply BitVec.eq_of_getLsbD_eq
  intro j hj
  simp only [byteLane, wordOfBytes]
  interval_cases j <;>
    simp only [BitVec.getLsbD_append, BitVec.getLsbD_extractLsb'] <;> simp

theorem byteLane_mod (v : Word) (k : Nat) : byteLane v (k % 4) = byteLane v k := by
  simp [byteLane]

/-- The byte of lane k in a word of four. -/
theorem byteLane_eq (f : Nat → Byte) (k : Nat) :
    byteLane (wordOfBytes (f (4 * (k / 4))) (f (4 * (k / 4) + 1)) (f (4 * (k / 4) + 2))
      (f (4 * (k / 4) + 3))) k = f k := by
  obtain ⟨h0, h1, h2, h3⟩ := byteLane_wordOfBytes (f (4 * (k / 4))) (f (4 * (k / 4) + 1))
    (f (4 * (k / 4) + 2)) (f (4 * (k / 4) + 3))
  rw [← byteLane_mod]
  have : k % 4 < 4 := Nat.mod_lt _ (by omega)
  have hk : 4 * (k / 4) + k % 4 = k := Nat.div_add_mod k 4
  generalize k % 4 = r at *
  interval_cases r
  · rw [h0]; rw [← hk]
    congr 1
    omega
  · rw [h1, hk]
  · rw [h2, hk]
  · rw [h3, hk]

end Sys2Proof.Machine
end

