-- ==== Sys2Proof/Laws/Heap.lean ====
section
/-! SUPPORT. The array heap: HEAP_PUSH and HEAP_POP permute the entries, keep the heap order, and
the top entry has the least key. The order is any `lt` that is asymmetric and cotransitive, as
`less` is. -/

namespace Sys2Proof.Machine

/-- What the heap needs of its order. -/
structure HeapOrder (lt : Idx → Idx → Bool) : Prop where
  asymm : ∀ a b, lt a b = true → lt b a = false
  cotrans : ∀ a b c, lt a b = false → lt b c = false → lt a c = false

theorem HeapOrder.irrefl {lt : Idx → Idx → Bool} (o : HeapOrder lt) (a : Idx) : lt a a = false := by
  cases h : lt a a with
  | false => rfl
  | true => rw [o.asymm a a h] at h; exact h.symm

theorem heapAt_set (h : List Idx) (p : Nat) (x : Idx) (k : Nat) (hp : p < h.length) :
    heapAt (h.set p x) k = if k = p then x else heapAt h k := by
  simp only [heapAt, List.getD_eq_getElem?_getD, List.getElem?_set]
  by_cases hk : p = k
  · subst hk; simp [hp]
  · simp [hk, Ne.symm hk]

theorem length_heapSwap (h : List Idx) (p q : Nat) : (heapSwap h p q).length = h.length := by
  simp [heapSwap]

theorem heapAt_heapSwap (h : List Idx) {p q : Nat} (hp : p < h.length) (hq : q < h.length) (k : Nat) :
    heapAt (heapSwap h p q) k =
      if k = q then heapAt h p else if k = p then heapAt h q else heapAt h k := by
  rw [heapSwap, heapAt_set _ _ _ _ (by simpa using hq), heapAt_set _ _ _ _ hp]

theorem heapSwap_perm (h : List Idx) {p q : Nat} (hp : p < h.length) (hq : q < h.length) :
    (heapSwap h p q).Perm h := by
  have e1 : heapAt h p = h[p] := by simp [heapAt, hp]
  have e2 : heapAt h q = h[q] := by simp [heapAt, hq]
  rw [heapSwap, e1, e2]
  exact List.set_set_perm hp hq

/-! ### Entries -/

theorem siftUp_perm (lt : Idx → Idx → Bool) (fuel p : Nat) (h : List Idx) (hp : p < h.length) :
    (siftUp lt fuel p h).Perm h := by
  induction fuel generalizing p h with
  | zero => exact List.Perm.refl _
  | succ f ih =>
    simp only [siftUp]
    split_ifs with h0 h1
    · exact List.Perm.refl _
    · refine (ih _ _ ?_).trans (heapSwap_perm h hp (by omega))
      rw [length_heapSwap]; omega
    · exact List.Perm.refl _

theorem lesserSlot_lt (lt : Idx → Idx → Bool) (h : List Idx) (m c : Nat) (hm : m < h.length) :
    lesserSlot lt h m c < h.length := by
  unfold lesserSlot
  split_ifs with hc
  · simp only [Bool.and_eq_true, decide_eq_true_eq] at hc; exact hc.1
  · exact hm

theorem siftDown_perm (lt : Idx → Idx → Bool) (fuel p : Nat) (h : List Idx) (hp : p < h.length) :
    (siftDown lt fuel p h).Perm h := by
  induction fuel generalizing p h with
  | zero => exact List.Perm.refl _
  | succ f ih =>
    simp only [siftDown]
    split_ifs with h0
    · exact List.Perm.refl _
    · have hm := lesserSlot_lt lt h _ (2 * p + 2) (lesserSlot_lt lt h p (2 * p + 1) hp)
      exact (ih _ _ (by rw [length_heapSwap]; exact hm)).trans (heapSwap_perm h hp hm)

/-- HEAP_PUSH adds its entry and keeps the others. -/
theorem pushed_perm (lt : Idx → Idx → Bool) (h : List Idx) (i : Idx) :
    (pushed lt h i).Perm (i :: h) :=
  (siftUp_perm lt _ _ _ (by simp)).trans (List.perm_append_singleton i h)

theorem pushed_length (lt : Idx → Idx → Bool) (h : List Idx) (i : Idx) :
    (pushed lt h i).length = h.length + 1 := by rw [(pushed_perm lt h i).length_eq]; rfl

/-- HEAP_POP takes the entry of slot 0 and keeps the others. -/
theorem popped_perm (lt : Idx → Idx → Bool) (h : List Idx) (hne : h ≠ []) :
    (heapAt h 0 :: popped lt h).Perm h := by
  obtain ⟨r, x, rfl⟩ : ∃ r x, h = r ++ [x] :=
    ⟨h.dropLast, h.getLast hne, (List.dropLast_append_getLast hne).symm⟩
  simp only [popped, List.dropLast_concat]
  cases r with
  | nil => simp [heapAt]
  | cons a r =>
    have e1 : heapAt ((a :: r) ++ [x]) 0 = a := rfl
    have e2 : heapAt ((a :: r) ++ [x]) (a :: r).length = x := by simp [heapAt]
    rw [e1, e2, if_neg (by simp), List.set_cons_zero]
    refine ((siftDown_perm lt _ 0 (x :: r) (by simp)).cons a).trans ?_
    exact ((List.perm_append_singleton x r).symm.cons a)

theorem popped_length (lt : Idx → Idx → Bool) (h : List Idx) (hne : h ≠ []) :
    (popped lt h).length + 1 = h.length := by
  rw [← (popped_perm lt h hne).length_eq]; rfl

/-! ### Order -/

/-- The heap order but for slot p against its parent. -/
structure HeapUp (lt : Idx → Idx → Bool) (h : List Idx) (p : Nat) : Prop where
  rest : ∀ k, 0 < k → k < h.length → k ≠ p → lt (heapAt h k) (heapAt h ((k - 1) / 2)) = false
  above : 0 < p → ∀ k, 0 < k → k < h.length → (k - 1) / 2 = p →
    lt (heapAt h k) (heapAt h ((p - 1) / 2)) = false

theorem siftUp_isHeap {lt : Idx → Idx → Bool} (o : HeapOrder lt) (fuel p : Nat) (h : List Idx)
    (hf : p ≤ fuel) (hp : p < h.length) (hu : HeapUp lt h p) : isHeap lt (siftUp lt fuel p h) := by
  induction fuel generalizing p h with
  | zero => exact fun k h0 h1 => hu.rest k h0 h1 (by omega)
  | succ f ih =>
    simp only [siftUp]
    split_ifs with h0 h1
    · exact fun k hk0 hk1 => hu.rest k hk0 hk1 (by omega)
    · have hq : (p - 1) / 2 < h.length := by omega
      have hqp : (p - 1) / 2 ≠ p := by omega
      have at_ := heapAt_heapSwap h hp hq
      refine ih _ _ (by omega) (by rw [length_heapSwap]; omega) ⟨?_, ?_⟩
      · intro k hk0 hk1 hkq
        rw [length_heapSwap] at hk1
        rw [at_, at_, if_neg hkq]
        by_cases e1 : k = p
        · subst e1; simpa using o.asymm _ _ h1
        · rw [if_neg e1]
          by_cases e2 : (k - 1) / 2 = (p - 1) / 2
          · rw [if_pos e2]
            refine o.cotrans _ _ _ ?_ (o.asymm _ _ h1)
            rw [← e2]; exact hu.rest k hk0 hk1 e1
          · rw [if_neg e2]
            by_cases e3 : (k - 1) / 2 = p
            · rw [if_pos e3]; exact hu.above (by omega) k hk0 hk1 e3
            · rw [if_neg e3]; exact hu.rest k hk0 hk1 e1
      · intro hq0 k hk0 hk1 hkq
        rw [length_heapSwap] at hk1
        have base := hu.rest ((p - 1) / 2) hq0 hq hqp
        have top : heapAt (heapSwap h p ((p - 1) / 2)) (((p - 1) / 2 - 1) / 2) =
            heapAt h (((p - 1) / 2 - 1) / 2) := by
          rw [at_, if_neg (by omega), if_neg (by omega)]
        rw [top, at_, if_neg (by omega)]
        by_cases e1 : k = p
        · rw [if_pos e1]; exact base
        · rw [if_neg e1]
          refine o.cotrans _ _ _ ?_ base
          rw [← hkq]; exact hu.rest k hk0 hk1 e1
    · intro k hk0 hk1
      by_cases e : k = p
      · subst e; simpa using h1
      · exact hu.rest k hk0 hk1 e

/-- HEAP_PUSH keeps the heap order. -/
theorem pushed_isHeap {lt : Idx → Idx → Bool} (o : HeapOrder lt) (h : List Idx) (i : Idx)
    (hh : isHeap lt h) : isHeap lt (pushed lt h i) := by
  have at_ : ∀ k, k < h.length → heapAt (h ++ [i]) k = heapAt h k := by
    intro k hk; simp [heapAt, List.getElem?_append_left hk]
  refine siftUp_isHeap o _ _ _ (Nat.le_refl _) (by simp) ⟨?_, ?_⟩
  · intro k h0 h1 hk
    simp only [List.length_append, List.length_cons, List.length_nil] at h1
    rw [at_ k (by omega), at_ _ (by omega)]
    exact hh k h0 (by omega)
  · intro _ k h0 h1 hk
    simp only [List.length_append, List.length_cons, List.length_nil] at h1
    omega

/-- The heap order but for the children of slot p. -/
structure HeapDown (lt : Idx → Idx → Bool) (h : List Idx) (p : Nat) : Prop where
  rest : ∀ k, 0 < k → k < h.length → (k - 1) / 2 ≠ p →
    lt (heapAt h k) (heapAt h ((k - 1) / 2)) = false
  above : 0 < p → ∀ k, 0 < k → k < h.length → (k - 1) / 2 = p →
    lt (heapAt h k) (heapAt h ((p - 1) / 2)) = false

theorem lesserSlot_spec {lt : Idx → Idx → Bool} (o : HeapOrder lt) (h : List Idx) (m c : Nat) :
    (lesserSlot lt h m c = m ∨ lesserSlot lt h m c = c) ∧
      lt (heapAt h m) (heapAt h (lesserSlot lt h m c)) = false ∧
      (c < h.length → lt (heapAt h c) (heapAt h (lesserSlot lt h m c)) = false) := by
  unfold lesserSlot
  split_ifs with hc
  · simp only [Bool.and_eq_true, decide_eq_true_eq] at hc
    exact ⟨.inr rfl, o.asymm _ _ hc.2, fun _ => o.irrefl _⟩
  · refine ⟨.inl rfl, o.irrefl _, fun hl => ?_⟩
    simpa [hl] using hc

theorem siftDown_isHeap {lt : Idx → Idx → Bool} (o : HeapOrder lt) (fuel p : Nat) (h : List Idx)
    (hf : h.length ≤ fuel + p) (hd : HeapDown lt h p) : isHeap lt (siftDown lt fuel p h) := by
  induction fuel generalizing p h with
  | zero => exact fun k h0 h1 => hd.rest k h0 h1 (by simp only [siftDown] at h1; omega)
  | succ f ih =>
    have s1 := lesserSlot_spec o h p (2 * p + 1)
    have s2 := lesserSlot_spec o h (lesserSlot lt h p (2 * p + 1)) (2 * p + 2)
    simp only [siftDown]
    generalize hm1 : lesserSlot lt h p (2 * p + 1) = m1 at *
    generalize hm : lesserSlot lt h m1 (2 * p + 2) = m at *
    have hpm : lt (heapAt h p) (heapAt h m) = false := o.cotrans _ _ _ s1.2.1 s2.2.1
    have child : ∀ k, 0 < k → k < h.length → (k - 1) / 2 = p →
        lt (heapAt h k) (heapAt h m) = false := by
      intro k h0 h1 hk
      have : k = 2 * p + 1 ∨ k = 2 * p + 2 := by omega
      rcases this with rfl | rfl
      · exact o.cotrans _ _ _ (s1.2.2 h1) s2.2.1
      · exact s2.2.2 h1
    split_ifs with hmp
    · subst hmp
      intro k h0 h1
      by_cases e : (k - 1) / 2 = m
      · rw [e]; exact child k h0 h1 e
      · exact hd.rest k h0 h1 e
    · have hmv : m = 2 * p + 1 ∨ m = 2 * p + 2 := by
        rcases s2.1 with e | e
        · rcases s1.1 with e' | e' <;> omega
        · exact .inr e
      by_cases hpl : p < h.length
      · have hml : m < h.length := by
          have := lesserSlot_lt lt h m1 (2 * p + 2)
            (by rw [← hm1]; exact lesserSlot_lt lt h p (2 * p + 1) hpl)
          rwa [hm] at this
        have at_ := heapAt_heapSwap h hpl hml
        refine ih _ _ (by rw [length_heapSwap]; omega) ⟨?_, ?_⟩
        · intro k h0 h1 hkm
          rw [length_heapSwap] at h1
          rw [at_, at_, if_neg hkm]
          by_cases e1 : k = m
          · rw [if_pos e1, if_pos (by omega)]; exact hpm
          · rw [if_neg e1]
            by_cases e2 : (k - 1) / 2 = p
            · rw [if_pos e2, if_neg (by omega)]; exact child k h0 h1 e2
            · rw [if_neg e2]
              by_cases e3 : k = p
              · rw [if_pos e3, e3]
                exact hd.above (by omega) m (by omega) hml (by omega)
              · rw [if_neg e3]; exact hd.rest k h0 h1 e2
        · intro hm0 k h0 h1 hkm
          rw [length_heapSwap] at h1
          have hpar : (m - 1) / 2 = p := by omega
          rw [at_, at_, hpar, if_neg (by omega), if_neg (by omega), if_neg (by omega), if_pos rfl]
          rw [← hkm]; exact hd.rest k h0 h1 (by omega)
      · -- slot p is beyond the array: no child of p exists
        exfalso
        have e1 : m1 = p := by
          rcases s1.1 with e | e
          · exact e
          · rw [← hm1]; unfold lesserSlot; simp; omega
        have e2 : m = p := by
          rw [← hm, e1]; unfold lesserSlot; simp; omega
        exact hmp e2

/-- HEAP_POP keeps the heap order. -/
theorem popped_isHeap {lt : Idx → Idx → Bool} (o : HeapOrder lt) (h : List Idx)
    (hh : isHeap lt h) : isHeap lt (popped lt h) := by
  simp only [popped]
  split_ifs with h0
  · intro k _ h1; omega
  · have at_ : ∀ k, k ≠ 0 → k < h.dropLast.length →
        heapAt (h.dropLast.set 0 (heapAt h h.dropLast.length)) k = heapAt h k := by
      intro k hk hl
      rw [heapAt_set _ _ _ _ (by omega), if_neg hk]
      simp only [List.length_dropLast] at hl
      simp [heapAt, List.getD_eq_getElem?_getD, hl,
        List.getElem?_eq_getElem (show k < h.length by omega)]
    refine siftDown_isHeap o _ _ _ (by simp) ⟨?_, fun h => absurd h (by omega)⟩
    intro k h0 h1 hk
    rw [List.length_set] at h1
    rw [at_ k (by omega) h1, at_ _ hk (by omega)]
    refine hh k h0 ?_
    simp only [List.length_dropLast] at h1
    omega

/-- Slot 0 of a heap holds an entry that no other is less than. -/
theorem isHeap_least {lt : Idx → Idx → Bool} (o : HeapOrder lt) (h : List Idx) (hh : isHeap lt h)
    (k : Nat) (hk : k < h.length) : lt (heapAt h k) (heapAt h 0) = false := by
  induction k using Nat.strong_induction_on with
  | _ k ih =>
    by_cases h0 : k = 0
    · subst h0; exact o.irrefl _
    · exact o.cotrans _ _ _ (hh k (by omega) hk) (ih _ (by omega) (by omega))

theorem isHeap_least_mem {lt : Idx → Idx → Bool} (o : HeapOrder lt) (h : List Idx)
    (hh : isHeap lt h) (x : Idx) (hx : x ∈ h) : lt x (heapAt h 0) = false := by
  obtain ⟨k, hk, rfl⟩ := List.getElem_of_mem hx
  have := isHeap_least o h hh k hk
  simpa [heapAt, hk] using this

/-! ### The builder's order -/

/-- The key of a node as one number pair, compared as R94 says. -/
theorem less_iff (node : Table NodeRec) (i j : Idx) :
    less node i j = true ↔
      (Table.get clearedNode node i.toNat).freq.toNat <
          (Table.get clearedNode node j.toNat).freq.toNat ∨
        (Table.get clearedNode node i.toNat).freq.toNat =
          (Table.get clearedNode node j.toNat).freq.toNat ∧ i.toNat < j.toNat := by
  simp only [less, Bool.or_eq_true, Bool.and_eq_true, decide_eq_true_eq, beq_iff_eq,
    BitVec.lt_def]
  constructor
  · rintro (h | ⟨h1, h2⟩)
    · exact .inl h
    · exact .inr ⟨congrArg BitVec.toNat h1, h2⟩
  · rintro (h | ⟨h1, h2⟩)
    · exact .inl h
    · exact .inr ⟨BitVec.eq_of_toNat_eq h1, h2⟩

theorem less_false_iff (node : Table NodeRec) (i j : Idx) :
    less node i j = false ↔
      (Table.get clearedNode node j.toNat).freq.toNat <
          (Table.get clearedNode node i.toNat).freq.toNat ∨
        (Table.get clearedNode node i.toNat).freq.toNat =
          (Table.get clearedNode node j.toNat).freq.toNat ∧ j.toNat ≤ i.toNat := by
  rw [← Bool.not_eq_true, less_iff]; omega

/-- `less` is asymmetric and cotransitive (R94: a strict total order). -/
theorem less_order (node : Table NodeRec) : HeapOrder (less node) where
  asymm := by intro a b; rw [less_iff, less_false_iff]; omega
  cotrans := by intro a b c; simp only [less_false_iff]; omega

/-- Two different nodes are always ordered (R94). -/
theorem less_total (node : Table NodeRec) (i j : Idx) (hne : i ≠ j) (h : less node i j = false) :
    less node j i = true := by
  rw [less_false_iff] at h
  rw [less_iff]
  have : i.toNat ≠ j.toNat := fun e => hne (BitVec.eq_of_toNat_eq e)
  omega

end Sys2Proof.Machine
end

