-- ==== Sys2Proof/Laws/Forest.lean ====
section
/-! SUPPORT. What the builder's node arena and queue are while BLD runs: a forest of leaves in byte
order and of merged nodes, whose roots are the entries of the queue (R93, R97 to R99). -/

namespace Sys2Proof.Machine

/-- Record i of an arena, for a natural index. -/
def recAt (node : Table NodeRec) (i : Nat) : NodeRec := Table.get clearedNode node i

theorem nodeAt_eq (s : State) (i : Idx) : nodeAt s i = recAt s.node i.toNat := rfl

theorem recAt_put (node : Table NodeRec) (k : Nat) (r : NodeRec) (i : Nat) :
    recAt (Table.put clearedNode node k r) i = if i = k then r else recAt node i :=
  Table.get_put _ _ _ _ _

/-- Record i is what one pass of the merge loop makes it (R97 to R99). -/
structure Merged (node : Table NodeRec) (i : Nat) : Prop where
  kind : (recAt node i).kind = .internal
  sym : (recAt node i).sym = 0#8
  leftLt : (recAt node i).left.toNat < i
  rightLt : (recAt node i).right.toNat < i
  leftParent : (recAt node (recAt node i).left.toNat).parent.toNat = i
  rightParent : (recAt node (recAt node i).right.toNat).parent.toNat = i
  freq : (recAt node i).freq.toNat = (recAt node (recAt node i).left.toNat).freq.toNat +
    (recAt node (recAt node i).right.toNat).freq.toNat
  ordered : less node (recAt node i).left (recAt node i).right = true
  least : ∀ x : Idx, x.toNat < i → i ≤ (recAt node x.toNat).parent.toNat →
    x ≠ (recAt node i).left → x ≠ (recAt node i).right → less node (recAt node i).right x = true

/-- The leaf of byte b, up to its parent (R93). -/
structure Seeded (node : Table NodeRec) (i : Nat) (b : Nat) (f : Word) : Prop where
  kind : (recAt node i).kind = .leaf
  sym : (recAt node i).sym = BitVec.ofNat 8 b
  freq : (recAt node i).freq = f.setWidth 40
  left : (recAt node i).left = Config.nil
  right : (recAt node i).right = Config.nil

/-- Record i has no parent, or is a child of its parent, which is a later record. -/
def Hangs (node : Table NodeRec) (n k i : Nat) : Prop :=
  (recAt node i).parent = Config.nil ∨
    i < (recAt node i).parent.toNat ∧ n ≤ (recAt node i).parent.toNat ∧
    (recAt node i).parent.toNat < k ∧
    ((recAt node (recAt node i).parent.toNat).left.toNat = i ∨
      (recAt node (recAt node i).parent.toNat).right.toNat = i)

/-- The arena and the queue with the next free index k, the leaves those of the bytes `pres`. -/
structure Forest (pres : List Nat) (s : State) (k : Nat) : Prop where
  arena : Table.wf Config.nodeMax clearedNode s.node = true
  small : pres.length ≤ 256
  seeded : pres.length ≤ k
  leaf : ∀ m (hm : m < pres.length), Seeded s.node m pres[m] (freqAt s pres[m])
  merged : ∀ i, pres.length ≤ i → i < k → Merged s.node i
  fresh : ∀ i, k ≤ i → recAt s.node i = clearedNode
  hangs : ∀ i, i < k → Hangs s.node pres.length k i
  nodup : s.heap.Nodup
  queue : ∀ x : Idx, x ∈ s.heap ↔ x.toNat < k ∧ (recAt s.node x.toNat).parent = Config.nil
  count : k + s.heap.length = 2 * pres.length
  size : s.heapSize = BitVec.ofNat 9 s.heap.length
  order : isHeap (less s.node) s.heap
  total : (s.heap.map (fun x => (recAt s.node x.toNat).freq.toNat)).sum =
    (pres.map (fun b => (freqAt s b).toNat)).sum

/-! ### The order sees only frequencies -/

theorem less_congr {node node' : Table NodeRec} {x y : Idx}
    (hx : (recAt node' x.toNat).freq = (recAt node x.toNat).freq)
    (hy : (recAt node' y.toNat).freq = (recAt node y.toNat).freq) :
    less node' x y = less node x y := by
  simp only [recAt] at hx hy
  simp only [less, hx, hy]

theorem heapAt_mem {h : List Idx} {k : Nat} (hk : k < h.length) : heapAt h k ∈ h := by
  simp [heapAt, hk]

theorem isHeap_congr {node node' : Table NodeRec} {h : List Idx}
    (hf : ∀ x ∈ h, (recAt node' x.toNat).freq = (recAt node x.toNat).freq)
    (hh : isHeap (less node) h) : isHeap (less node') h := by
  intro p h0 h1
  rw [less_congr (hf _ (heapAt_mem h1)) (hf _ (heapAt_mem (by omega)))]
  exact hh p h0 h1

/-- A merged record stays one when the records below it keep their frequencies and no parent moves
across it. -/
theorem Merged.congr {node node' : Table NodeRec} {i : Nat} (h : Merged node i)
    (hk : (recAt node' i).kind = (recAt node i).kind) (hs : (recAt node' i).sym = (recAt node i).sym)
    (hl : (recAt node' i).left = (recAt node i).left)
    (hr : (recAt node' i).right = (recAt node i).right)
    (hf : ∀ j, j ≤ i → (recAt node' j).freq = (recAt node j).freq)
    (hp : ∀ j, j < i → (i ≤ (recAt node' j).parent.toNat ↔ i ≤ (recAt node j).parent.toNat) ∧
      ((recAt node j).parent.toNat = i → (recAt node' j).parent.toNat = i)) : Merged node' i where
  kind := hk.trans h.kind
  sym := hs.trans h.sym
  leftLt := by rw [hl]; exact h.leftLt
  rightLt := by rw [hr]; exact h.rightLt
  leftParent := by rw [hl]; exact (hp _ h.leftLt).2 h.leftParent
  rightParent := by rw [hr]; exact (hp _ h.rightLt).2 h.rightParent
  freq := by
    rw [hl, hr, hf _ (Nat.le_refl i), hf _ (Nat.le_of_lt h.leftLt), hf _ (Nat.le_of_lt h.rightLt)]
    exact h.freq
  ordered := by
    rw [hl, hr, less_congr (hf _ (Nat.le_of_lt h.leftLt)) (hf _ (Nat.le_of_lt h.rightLt))]
    exact h.ordered
  least := by
    intro x hx hpx hxl hxr
    rw [hl] at hxl
    rw [hr] at hxr ⊢
    rw [less_congr (hf _ (Nat.le_of_lt h.rightLt)) (hf _ (Nat.le_of_lt hx))]
    exact h.least x hx ((hp _ hx).1.1 hpx) hxl hxr

/-! ### Phase 1 -/

theorem ofNat9_toNat {k : Nat} (h : k < 512) : (BitVec.ofNat 9 k).toNat = k := by
  simp; omega

/-- The empty forest. -/
theorem forest_nil (s : State) (hn : s.node = []) (hh : s.heap = []) (hs : s.heapSize = 0#9) :
    Forest [] s 0 where
  arena := by rw [hn]; rfl
  small := by simp
  seeded := by simp
  leaf := fun m hm => absurd hm (by simp)
  merged := fun i _ hi => absurd hi (by omega)
  fresh := fun i _ => by rw [hn]; rfl
  hangs := fun i hi => absurd hi (by omega)
  nodup := by rw [hh]; exact List.nodup_nil
  queue := fun x => by simp [hh]
  count := by simp [hh]
  size := by rw [hs, hh]; rfl
  order := by intro p _ h1; simp [hh] at h1
  total := by simp [hh]

/-- Seeding one byte that is present (R93). -/
theorem Forest.seed {pres : List Nat} {s : State} (F : Forest pres s pres.length) (b : Nat)
    (hsm : pres.length < 256) :
    Forest (pres ++ [b])
      (heapPush (setNode s pres.length (leafNode b (freqAt s b))) (BitVec.ofNat 9 pres.length))
      (pres.length + 1) := by
  have hix : (BitVec.ofNat 9 pres.length).toNat = pres.length := ofNat9_toNat (by omega)
  have hrec : ∀ i, recAt (Table.put clearedNode s.node pres.length (leafNode b (freqAt s b))) i =
      if i = pres.length then leafNode b (freqAt s b) else recAt s.node i :=
    recAt_put _ _ _
  have hlt : ∀ x ∈ s.heap, x.toNat < pres.length := fun x hx => ((F.queue x).1 hx).1
  have hperm := pushed_perm
    (less (Table.put clearedNode s.node pres.length (leafNode b (freqAt s b)))) s.heap
    (BitVec.ofNat 9 pres.length)
  have hnew : BitVec.ofNat 9 pres.length ∉ s.heap := by
    intro hm; have := hlt _ hm; omega
  refine ⟨?_, by simp; omega, by simp, ?_, ?_, ?_, ?_, ?_, ?_, ?_, rfl, ?_, ?_⟩
  · rw [heapPush_node, setNode_node]
    exact Table.wf_put _ _ _ _ _ (show pres.length < 511 by omega) F.arena
  · intro m hm
    simp only [List.length_append, List.length_cons, List.length_nil] at hm
    simp only [heapPush_node, setNode_node, heapPush_freqAt, setNode_freqAt]
    by_cases e : m = pres.length
    · subst e
      simp only [List.getElem_concat_length]
      constructor <;> rw [hrec, if_pos rfl] <;> rfl
    · have hm' : m < pres.length := by omega
      rw [List.getElem_append_left hm']
      have := F.leaf m hm'
      exact ⟨by rw [hrec, if_neg e]; exact this.kind, by rw [hrec, if_neg e]; exact this.sym,
        by rw [hrec, if_neg e]; exact this.freq, by rw [hrec, if_neg e]; exact this.left,
        by rw [hrec, if_neg e]; exact this.right⟩
  · intro i h1 h2
    simp only [List.length_append, List.length_cons, List.length_nil] at h1
    omega
  · intro i hi
    simp only [heapPush_node, setNode_node]
    rw [hrec, if_neg (by omega)]
    exact F.fresh i (by omega)
  · intro i hi
    simp only [heapPush_node, setNode_node, Hangs]
    rw [hrec]
    by_cases e : i = pres.length
    · rw [if_pos e]; exact .inl rfl
    · rw [if_neg e]
      rcases F.hangs i (by omega) with h | ⟨_, h2, h3, _⟩
      · exact .inl h
      · omega
  · rw [heapPush_heap, setNode_node, setNode_heap, hperm.nodup_iff, List.nodup_cons]
    exact ⟨hnew, F.nodup⟩
  · intro x
    rw [heapPush_heap, setNode_node, setNode_heap, hperm.mem_iff, List.mem_cons, F.queue x,
      heapPush_node, setNode_node, hrec]
    by_cases e : x.toNat = pres.length
    · rw [if_pos e]
      exact ⟨fun _ => ⟨by omega, rfl⟩, fun _ => .inl (BitVec.eq_of_toNat_eq (by rw [e, hix]))⟩
    · rw [if_neg e]
      constructor
      · rintro (rfl | ⟨h1, h2⟩)
        · exact absurd hix e
        · exact ⟨by omega, h2⟩
      · rintro ⟨h1, h2⟩
        exact .inr ⟨by omega, h2⟩
  · have := F.count
    rw [heapPush_heap, pushed_length, setNode_heap, List.length_append]
    simp; omega
  · rw [heapPush_heap, heapPush_node, setNode_node, setNode_heap]
    refine pushed_isHeap (less_order _) _ _ (isHeap_congr ?_ F.order)
    intro x hx
    rw [hrec, if_neg (by have := hlt x hx; omega)]
  · rw [heapPush_heap, setNode_node, setNode_heap]
    simp only [heapPush_node, setNode_node, heapPush_freqAt, setNode_freqAt]
    rw [(hperm.map _).sum_eq, List.map_cons, List.sum_cons, hix, hrec, if_pos rfl,
      List.map_append, List.sum_append, ← F.total, List.map_cons, List.map_nil, List.sum_cons,
      List.sum_nil, Nat.add_comm]
    congr 1
    · refine congrArg List.sum (List.map_congr_left ?_)
      intro x hx
      rw [hrec, if_neg (by have := hlt x hx; omega)]

/-- The bytes below m with a non-zero entry, in ascending order. -/
def presentBelow (s : State) (m : Nat) : List Nat :=
  (List.range m).filter (fun b => freqAt s b ≠ 0#32)

theorem presentBelow_succ (s : State) (m : Nat) :
    presentBelow s (m + 1) = presentBelow s m ++ if freqAt s m = 0#32 then [] else [m] := by
  simp only [presentBelow, List.range_succ, List.filter_append]
  congr 1
  by_cases h : freqAt s m = 0#32 <;> simp [h]

theorem presentBelow_length_le (s : State) (m : Nat) : (presentBelow s m).length ≤ m := by
  have := List.length_filter_le (fun b => freqAt s b ≠ 0#32) (List.range m)
  simpa [presentBelow] using this

theorem seed_below (s : State) (hn : s.node = []) (hh : s.heap = []) (hs : s.heapSize = 0#9)
    (m : Nat) (hm : m ≤ 256) :
    ((List.range m).foldl seedByte (s, 0)).2 = (presentBelow s m).length ∧
    (∀ b, freqAt ((List.range m).foldl seedByte (s, 0)).1 b = freqAt s b) ∧
    Forest (presentBelow s m) ((List.range m).foldl seedByte (s, 0)).1
      (presentBelow s m).length := by
  induction m with
  | zero => exact ⟨rfl, fun _ => rfl, forest_nil s hn hh hs⟩
  | succ m ih =>
    obtain ⟨h1, h2, h3⟩ := ih (by omega)
    rw [List.range_succ, List.foldl_append, presentBelow_succ]
    generalize hr : (List.range m).foldl seedByte (s, 0) = r at h1 h2 h3
    obtain ⟨u, n⟩ := r
    simp only at h1 h2 h3
    simp only [List.foldl_cons, List.foldl_nil, seedByte, h2 m]
    by_cases hz : freqAt s m = 0#32
    · simp only [if_pos hz, List.append_nil]
      exact ⟨h1, h2, h3⟩
    · simp only [if_neg hz]
      have hle := presentBelow_length_le s m
      have := h3.seed m (by omega)
      rw [h2 m] at this
      subst h1
      refine ⟨by simp, fun b => ?_, ?_⟩
      · rw [heapPush_freqAt, setNode_freqAt]; exact h2 b
      · rw [List.length_append]; exact this

/-- After phase 1 the forest is one leaf for each present byte (R93). -/
theorem seed_forest (s : State) (hn : s.node = []) (hh : s.heap = []) (hs : s.heapSize = 0#9) :
    (seed s).2 = (presentBelow s 256).length ∧ (∀ b, freqAt (seed s).1 b = freqAt s b) ∧
    Forest (presentBelow s 256) (seed s).1 (presentBelow s 256).length :=
  seed_below s hn hh hs 256 (Nat.le_refl _)

/-! ### Phase 2 -/

/-- The arena after a pass that merges a and b into record k. -/
def mergedArena (node : Table NodeRec) (a b : Idx) (k : Nat) : Table NodeRec :=
  let n1 := Table.put clearedNode node k
    ⟨.internal, 0#8, (recAt node a.toNat).freq + (recAt node b.toNat).freq, a, b, Config.nil⟩
  let n2 := Table.put clearedNode n1 a.toNat
    { recAt n1 a.toNat with parent := BitVec.ofNat 9 k }
  Table.put clearedNode n2 b.toNat { recAt n2 b.toNat with parent := BitVec.ofNat 9 k }

theorem mergeOnce_eq (s : State) (k : Nat) :
    mergeOnce s k =
      heapPush { s with
        node := mergedArena s.node (heapAt s.heap 0) (heapAt (popped (less s.node) s.heap) 0) k,
        heap := popped (less s.node) (popped (less s.node) s.heap),
        heapSize := BitVec.ofNat 9 (popped (less s.node) (popped (less s.node) s.heap)).length }
        (BitVec.ofNat 9 k) := rfl

theorem recAt_mergedArena (node : Table NodeRec) {a b : Idx} {k : Nat} (hab : a ≠ b)
    (ha : a.toNat < k) (hb : b.toNat < k) (i : Nat) :
    recAt (mergedArena node a b k) i =
      if i = k then
        ⟨.internal, 0#8, (recAt node a.toNat).freq + (recAt node b.toNat).freq, a, b, Config.nil⟩
      else if i = a.toNat ∨ i = b.toNat then { recAt node i with parent := BitVec.ofNat 9 k }
      else recAt node i := by
  have hab' : a.toNat ≠ b.toNat := fun e => hab (BitVec.eq_of_toNat_eq e)
  simp only [mergedArena, recAt_put]
  by_cases h1 : i = k
  · subst h1
    rw [if_neg (by omega), if_neg (by omega), if_pos rfl, if_pos rfl]
  · rw [if_neg h1]
    by_cases h2 : i = b.toNat
    · subst h2
      rw [if_pos rfl, if_neg (Ne.symm hab'), if_neg h1, if_neg h1, if_pos (.inr rfl)]
    · rw [if_neg h2]
      by_cases h3 : i = a.toNat
      · subst h3
        rw [if_pos rfl, if_neg h1, if_neg h1, if_pos (.inl rfl)]
      · rw [if_neg h3, if_neg h1, if_neg (by rintro (h | h) <;> contradiction)]

/-- One pass of the merge loop (R97). -/
theorem Forest.merge {pres : List Nat} {s : State} {k : Nat} (F : Forest pres s k)
    (h2 : 2 ≤ s.heap.length)
    (htot : (pres.map (fun b => (freqAt s b).toNat)).sum < 2 ^ 40) :
    Forest pres (mergeOnce s k) (k + 1) := by
  have o := less_order s.node
  have ne0 : s.heap ≠ [] := by intro h; rw [h] at h2; simp at h2
  rw [mergeOnce_eq]
  have len1 := popped_length (less s.node) s.heap ne0
  have perm1 := popped_perm (less s.node) s.heap ne0
  have ord1 := popped_isHeap o s.heap F.order
  generalize hh1 : popped (less s.node) s.heap = h1 at *
  have ne1 : h1 ≠ [] := by intro h; rw [h] at len1; simp at len1; omega
  have len2 := popped_length (less s.node) h1 ne1
  have perm2 := popped_perm (less s.node) h1 ne1
  have ord2 := popped_isHeap o h1 ord1
  generalize hh2 : popped (less s.node) h1 = q at *
  have ma : heapAt s.heap 0 ∈ s.heap := heapAt_mem (by omega)
  have leastA : ∀ x ∈ s.heap, less s.node x (heapAt s.heap 0) = false :=
    fun x hx => isHeap_least_mem o _ F.order x hx
  have mb : heapAt h1 0 ∈ h1 := heapAt_mem (by omega)
  have leastB : ∀ x ∈ h1, less s.node x (heapAt h1 0) = false :=
    fun x hx => isHeap_least_mem o _ ord1 x hx
  generalize ha : heapAt s.heap 0 = a at *
  generalize hb : heapAt h1 0 = b at *
  have perm : (a :: b :: q).Perm s.heap := (perm2.cons a).trans perm1
  have nd : (a :: b :: q).Nodup := perm.nodup_iff.2 F.nodup
  simp only [List.nodup_cons, List.mem_cons, not_or] at nd
  obtain ⟨⟨hab, haq⟩, hbq, hqn⟩ := nd
  have mb' : b ∈ s.heap := perm.mem_iff.1 (by simp)
  have mq : ∀ x ∈ q, x ∈ s.heap := fun x hx => perm.mem_iff.1 (by simp [hx])
  obtain ⟨hak, hap⟩ := (F.queue a).1 ma
  obtain ⟨hbk, hbp⟩ := (F.queue b).1 mb'
  have hcount := F.count
  have hsm := F.small
  have hkk : k < 511 := by omega
  have hix : (BitVec.ofNat 9 k).toNat = k := ofNat9_toNat (by omega)
  have hnil : (Config.nil).toNat = 511 := rfl
  have hrec := recAt_mergedArena s.node hab hak hbk
  generalize hN : mergedArena s.node a b k = N at *
  have hsame : ∀ i, i ≠ k → (recAt N i).kind = (recAt s.node i).kind ∧
      (recAt N i).sym = (recAt s.node i).sym ∧ (recAt N i).freq = (recAt s.node i).freq ∧
      (recAt N i).left = (recAt s.node i).left ∧ (recAt N i).right = (recAt s.node i).right := by
    intro i hi
    rw [hrec, if_neg hi]
    split_ifs <;> exact ⟨rfl, rfl, rfl, rfl, rfl⟩
  have hfreq := fun i hi => (hsame i hi).2.2.1
  have hsum : (recAt s.node a.toNat).freq.toNat + (recAt s.node b.toNat).freq.toNat +
      (q.map (fun x => (recAt s.node x.toNat).freq.toNat)).sum =
      (pres.map (fun b => (freqAt s b).toNat)).sum := by
    rw [← F.total, ← (perm.map _).sum_eq]
    simp [Nat.add_assoc]
  have hqk : ∀ x ∈ q, x.toNat < k := fun x hx => ((F.queue x).1 (mq x hx)).1
  have hpar : ∀ j, j < k → (recAt N j).parent =
      if j = a.toNat ∨ j = b.toNat then BitVec.ofNat 9 k else (recAt s.node j).parent := by
    intro j hj
    rw [hrec, if_neg (by omega)]
    split_ifs <;> rfl
  have hparOld : ∀ j, j = a.toNat ∨ j = b.toNat → (recAt s.node j).parent = Config.nil := by
    rintro j (rfl | rfl)
    · exact hap
    · exact hbp
  have hperm := pushed_perm (less N) q (BitVec.ofNat 9 k)
  refine ⟨?_, hsm, by have := F.seeded; omega, ?_, ?_, ?_, ?_, ?_, ?_, ?_, rfl, ?_, ?_⟩
  · rw [heapPush_node, ← hN]
    exact Table.wf_put _ _ _ _ _ (show b.toNat < 511 by omega)
      (Table.wf_put _ _ _ _ _ (show a.toNat < 511 by omega)
        (Table.wf_put _ _ _ _ _ hkk F.arena))
  · intro m hm
    have hmk : m < k := by have := F.seeded; omega
    have L := F.leaf m hm
    simp only [heapPush_node, heapPush_freqAt]
    obtain ⟨e1, e2, e3, e4, e5⟩ := hsame m (Nat.ne_of_lt hmk)
    exact ⟨e1.trans L.kind, e2.trans L.sym, e3.trans L.freq, e4.trans L.left, e5.trans L.right⟩
  · intro i hi1 hi2
    simp only [heapPush_node]
    by_cases e : i = k
    · subst e
      have hrk := hrec i
      rw [if_pos rfl] at hrk
      have hl : (recAt N i).left = a := by rw [hrk]
      have hr : (recAt N i).right = b := by rw [hrk]
      have fa := hfreq _ (Nat.ne_of_lt hak)
      have fb := hfreq _ (Nat.ne_of_lt hbk)
      constructor
      · rw [hrk]
      · rw [hrk]
      · rw [hl]; exact hak
      · rw [hr]; exact hbk
      · rw [hl, hpar _ hak, if_pos (.inl rfl)]; exact hix
      · rw [hr, hpar _ hbk, if_pos (.inr rfl)]; exact hix
      · rw [hl, hr, fa, fb, hrk]
        simp only [BitVec.toNat_add]
        rw [Nat.mod_eq_of_lt]
        omega
      · rw [hl, hr, less_congr fa fb]
        exact less_total _ _ _ (Ne.symm hab) (leastA b mb')
      · intro x hx hpx hxl hxr
        rw [hl] at hxl
        rw [hr] at hxr ⊢
        rw [less_congr fb (hfreq _ (Nat.ne_of_lt hx))]
        rw [hpar _ hx, if_neg] at hpx
        · have hxp : (recAt s.node x.toNat).parent = Config.nil := by
            rcases F.hangs _ hx with h | ⟨_, _, h, _⟩
            · exact h
            · omega
          have hxm : x ∈ s.heap := (F.queue x).2 ⟨hx, hxp⟩
          have hxq : x ∈ h1 := by
            have := perm1.mem_iff.2 hxm
            simp only [List.mem_cons] at this
            exact this.resolve_left hxl
          exact less_total _ _ _ hxr (leastB x hxq)
        · rintro (h | h)
          · exact hxl (BitVec.eq_of_toNat_eq h)
          · exact hxr (BitVec.eq_of_toNat_eq h)
    · have M := F.merged i hi1 (by omega)
      obtain ⟨e1, e2, _, e4, e5⟩ := hsame i e
      refine M.congr e1 e2 e4 e5 (fun j hj => hfreq j (by omega)) ?_
      · intro j hj
        rw [hpar j (by omega)]
        by_cases c : j = a.toNat ∨ j = b.toNat
        · rw [if_pos c, hparOld j c, hix, hnil]
          constructor
          · omega
          · omega
        · rw [if_neg c]
          exact ⟨Iff.rfl, id⟩
  · intro i hi
    simp only [heapPush_node]
    rw [hrec, if_neg (by omega), if_neg (by omega)]
    exact F.fresh i (by omega)
  · intro i hi
    simp only [heapPush_node, Hangs]
    by_cases e : i = k
    · subst e; left; rw [hrec, if_pos rfl]
    · have hik : i < k := by omega
      rw [hpar i hik]
      by_cases c : i = a.toNat ∨ i = b.toNat
      · right
        rw [if_pos c, hix, hrec k, if_pos rfl]
        refine ⟨hik, F.seeded, by omega, ?_⟩
        rcases c with c | c
        · exact .inl c.symm
        · exact .inr c.symm
      · rw [if_neg c]
        rcases F.hangs i hik with h | ⟨h1, h2, h3, h4⟩
        · exact .inl h
        · right
          refine ⟨h1, h2, by omega, ?_⟩
          obtain ⟨_, _, _, e4, e5⟩ := hsame (recAt s.node i).parent.toNat (by omega)
          rw [e4, e5]
          exact h4
  · rw [heapPush_heap, hperm.nodup_iff, List.nodup_cons]
    exact ⟨fun hm => by have := hqk _ hm; omega, hqn⟩
  · intro x
    rw [heapPush_heap, heapPush_node, hperm.mem_iff, List.mem_cons]
    by_cases e : x.toNat = k
    · rw [e, hrec, if_pos rfl]
      exact ⟨fun _ => ⟨by omega, rfl⟩, fun _ => .inl (BitVec.eq_of_toNat_eq (by rw [e, hix]))⟩
    · constructor
      · rintro (rfl | hx)
        · exact absurd hix e
        · have hxk := hqk x hx
          refine ⟨by omega, ?_⟩
          rw [hpar _ hxk, if_neg]
          · exact ((F.queue x).1 (mq x hx)).2
          · rintro (h | h)
            · exact haq (by rw [← BitVec.eq_of_toNat_eq h]; exact hx)
            · exact hbq (by rw [← BitVec.eq_of_toNat_eq h]; exact hx)
      · rintro ⟨hx1, hx2⟩
        have hxk : x.toNat < k := by omega
        rw [hpar _ hxk] at hx2
        split_ifs at hx2 with c
        · have := congrArg BitVec.toNat hx2
          rw [hix, hnil] at this; omega
        · have := perm.mem_iff.2 ((F.queue x).2 ⟨hxk, hx2⟩)
          simp only [List.mem_cons] at this
          rcases this with rfl | rfl | h
          · exact absurd (.inl rfl) c
          · exact absurd (.inr rfl) c
          · exact .inr h
  · rw [heapPush_heap, pushed_length]
    simp only
    omega
  · rw [heapPush_heap, heapPush_node]
    refine pushed_isHeap (less_order _) _ _ (isHeap_congr ?_ ord2)
    intro x hx
    exact hfreq _ (by have := hqk x hx; omega)
  · rw [heapPush_heap]
    simp only [heapPush_node, heapPush_freqAt]
    rw [(hperm.map _).sum_eq, List.map_cons, List.sum_cons, hix, hrec, if_pos rfl]
    have e1 : q.map (fun x => (recAt N x.toNat).freq.toNat) =
        q.map (fun x => (recAt s.node x.toNat).freq.toNat) :=
      List.map_congr_left (fun x hx => by rw [hfreq _ (by have := hqk x hx; omega)])
    rw [e1]
    simp only [BitVec.toNat_add]
    rw [Nat.mod_eq_of_lt (by omega)]
    exact hsum

end Sys2Proof.Machine
end

