-- ==== Sys2Proof/Laws/Paths.lean ====
section
/-! SUPPORT. Paths in a built tree (R23, R103, R107, R112): every record is reached from the root by
exactly one path, the paths are short, and a path is what its code entry holds. -/

namespace Sys2Proof.Machine

/-- The path p from record i ends at record j, with internal records before its end. -/
def Reaches (node : Table NodeRec) : Nat → List Bool → Nat → Prop
  | i, [], j => i = j
  | i, b :: p, j => (recAt node i).kind = .internal ∧
      Reaches node (childOf (recAt node i) b).toNat p j

theorem Reaches.snoc {node : Table NodeRec} {i j : Nat} {p : List Bool} (b : Bool)
    (h : Reaches node i p j) (hj : (recAt node j).kind = .internal) :
    Reaches node i (p ++ [b]) (childOf (recAt node j) b).toNat := by
  induction p generalizing i with
  | nil => simp only [Reaches] at h; subst h; exact ⟨hj, rfl⟩
  | cons c p ih => exact ⟨h.1, ih h.2⟩

theorem Reaches.of_snoc {node : Table NodeRec} {i l : Nat} {p : List Bool} {b : Bool}
    (h : Reaches node i (p ++ [b]) l) :
    ∃ j, Reaches node i p j ∧ (recAt node j).kind = .internal ∧
      (childOf (recAt node j) b).toNat = l := by
  induction p generalizing i with
  | nil => exact ⟨i, rfl, h.1, h.2⟩
  | cons c p ih =>
    obtain ⟨j, h1, h2⟩ := ih h.2
    exact ⟨j, ⟨h.1, h1⟩, h2⟩

/-- A path that goes on from its end does so from an internal record. -/
theorem Reaches.of_append {node : Table NodeRec} {i l : Nat} {p q : List Bool}
    (h : Reaches node i (p ++ q) l) : ∃ j, Reaches node i p j ∧ Reaches node j q l := by
  induction p generalizing i with
  | nil => exact ⟨i, rfl, h⟩
  | cons c p ih =>
    obtain ⟨j, h1, h2⟩ := ih h.2
    exact ⟨j, ⟨h.1, h1⟩, h2⟩

theorem Reaches.unique {node : Table NodeRec} {i j l : Nat} {p : List Bool}
    (h : Reaches node i p j) (h' : Reaches node i p l) : j = l := by
  induction p generalizing i with
  | nil => simp only [Reaches] at h h'; omega
  | cons c p ih => exact ih h.2 h'.2

theorem Reaches.walkTo {s : State} {i : Idx} {j : Nat} {p : List Bool}
    (h : Reaches s.node i.toNat p j) : (walkTo s i p).toNat = j := by
  induction p generalizing i with
  | nil => exact h
  | cons b p ih => exact ih h.2

/-! ### Paths in the forest -/

variable {pres : List Nat} {s : State} {k : Nat}

theorem Forest.le_510 (F : Forest pres s k) (hh : 1 ≤ s.heap.length) : k ≤ 511 := by
  have := F.count; have := F.small; omega

/-- A record below k is a leaf below n, an internal record from n on. -/
theorem Forest.kind (F : Forest pres s k) {i : Nat} (hi : i < k) :
    (i < pres.length ∧ (recAt s.node i).kind = .leaf) ∨
    (pres.length ≤ i ∧ (recAt s.node i).kind = .internal) := by
  by_cases h : i < pres.length
  · exact .inl ⟨h, (F.leaf i h).kind⟩
  · exact .inr ⟨by omega, (F.merged i (by omega) hi).kind⟩

theorem Forest.internal (F : Forest pres s k) {i : Nat} (hi : (recAt s.node i).kind = .internal) :
    pres.length ≤ i ∧ i < k := by
  by_cases h : i < k
  · rcases F.kind h with ⟨_, h'⟩ | ⟨h', _⟩
    · rw [hi] at h'; cases h'
    · exact ⟨h', h⟩
  · rw [F.fresh i (by omega)] at hi; cases hi

theorem Forest.child_lt (F : Forest pres s k) {i : Nat} (hi : (recAt s.node i).kind = .internal)
    (b : Bool) : (childOf (recAt s.node i) b).toNat < i := by
  have M := F.merged i (F.internal hi).1 (F.internal hi).2
  cases b
  · exact M.leftLt
  · exact M.rightLt

theorem Forest.child_parent (F : Forest pres s k) {i : Nat}
    (hi : (recAt s.node i).kind = .internal) (b : Bool) :
    (recAt s.node (childOf (recAt s.node i) b).toNat).parent.toNat = i := by
  have M := F.merged i (F.internal hi).1 (F.internal hi).2
  cases b
  · exact M.leftParent
  · exact M.rightParent

theorem Merged.left_ne_right {node : Table NodeRec} {i : Nat} (M : Merged node i) :
    (recAt node i).left ≠ (recAt node i).right := by
  intro h
  have := M.ordered
  rw [h, (less_order node).irrefl] at this
  cases this

theorem Forest.reaches_le (F : Forest pres s k) {i j : Nat} {p : List Bool}
    (h : Reaches s.node i p j) : j ≤ i := by
  induction p generalizing i with
  | nil => simp only [Reaches] at h; omega
  | cons b p ih => have := ih h.2; have := F.child_lt h.1 b; omega

/-- A path of L edges from record i passes L internal records (R106). -/
theorem Forest.path_length (F : Forest pres s k) {i j : Nat} {p : List Bool}
    (h : Reaches s.node i p j) (hp : p ≠ []) : p.length + pres.length ≤ i + 1 := by
  induction p generalizing i with
  | nil => exact absurd rfl hp
  | cons b p ih =>
    have h1 := (F.internal h.1).1
    have h2 := F.child_lt h.1 b
    cases p with
    | nil => simp; omega
    | cons c p =>
      have := ih h.2 (by simp)
      simp only [List.length_cons] at this ⊢
      omega

/-- Two paths from a record without parent to the same record are the same path (R23). -/
theorem Forest.path_unique (F : Forest pres s k) (hk : k ≤ 511) {r j : Nat}
    (hr : (recAt s.node r).parent = Config.nil) (p q : List Bool)
    (hp : Reaches s.node r p j) (hq : Reaches s.node r q j) : p = q := by
  have notRoot : ∀ (p : List Bool) (b : Bool), ¬ Reaches s.node r (p ++ [b]) r := by
    intro p b h
    obtain ⟨x, _, hx, hc⟩ := h.of_snoc
    have := F.child_parent hx b
    rw [hc, hr] at this
    have hx := (F.internal hx).2
    have : (Config.nil).toNat = 511 := rfl
    omega
  induction p using List.reverseRecOn generalizing q j with
  | nil =>
    simp only [Reaches] at hp
    subst hp
    cases q using List.reverseRecOn with
    | nil => rfl
    | append_singleton q b => exact absurd hq (notRoot q b)
  | append_singleton p b ih =>
    cases q using List.reverseRecOn with
    | nil =>
      simp only [Reaches] at hq
      subst hq
      exact absurd hp (notRoot p b)
    | append_singleton q c =>
      obtain ⟨x, hx1, hx2, hx3⟩ := hp.of_snoc
      obtain ⟨y, hy1, hy2, hy3⟩ := hq.of_snoc
      have e1 := F.child_parent hx2 b
      have e2 := F.child_parent hy2 c
      rw [hx3] at e1
      rw [hy3] at e2
      have exy : x = y := by rw [← e1, ← e2]
      subst exy
      rw [ih q hx1 hy1]
      have hne := (F.merged x (F.internal hx2).1 (F.internal hx2).2).left_ne_right
      have : b = c := by
        cases b <;> cases c <;> first | rfl | skip
        · exact absurd (BitVec.eq_of_toNat_eq (hx3.trans hy3.symm)) hne
        · exact absurd (BitVec.eq_of_toNat_eq (hx3.trans hy3.symm)) (Ne.symm hne)
      rw [this]

/-- With one entry left in the queue, it is the last record (R97). -/
theorem Forest.root (F : Forest pres s k) {r : Idx} (hh : s.heap = [r]) :
    r.toNat + 1 = k ∧ k + 1 = 2 * pres.length := by
  have hc := F.count
  rw [hh] at hc
  simp only [List.length_cons, List.length_nil] at hc
  have hk : 1 ≤ k := by have := F.seeded; omega
  have h511 : k ≤ 511 := F.le_510 (by rw [hh]; simp)
  refine ⟨?_, by omega⟩
  have hx : (BitVec.ofNat 9 (k - 1)).toNat = k - 1 := ofNat9_toNat (by omega)
  have : BitVec.ofNat 9 (k - 1) ∈ s.heap := by
    rw [F.queue, hx]
    refine ⟨by omega, ?_⟩
    rcases F.hangs (k - 1) (by omega) with h | ⟨h1, _, h3, _⟩
    · exact h
    · omega
  rw [hh, List.mem_singleton] at this
  rw [← this, hx]
  omega

/-- Every record of a built tree is reached from its root (R23). -/
theorem Forest.reached (F : Forest pres s k) {r : Idx} (hh : s.heap = [r]) (i : Nat) (hi : i < k) :
    ∃ p, Reaches s.node r.toNat p i := by
  have hroot := (F.root hh).1
  have h511 : k ≤ 511 := F.le_510 (by rw [hh]; simp)
  induction hd : k - i using Nat.strong_induction_on generalizing i with
  | _ d ih =>
    by_cases e : i = r.toNat
    · exact ⟨[], e.symm⟩
    · rcases F.hangs i hi with h | ⟨h1, h2, h3, h4⟩
      · exfalso
        have hx : (BitVec.ofNat 9 i).toNat = i := ofNat9_toNat (by omega)
        have : BitVec.ofNat 9 i ∈ s.heap := by rw [F.queue, hx]; exact ⟨hi, h⟩
        rw [hh, List.mem_singleton] at this
        exact e (by rw [← this, hx])
      · obtain ⟨p, hp⟩ := ih (k - (recAt s.node i).parent.toNat) (by omega) _ h3 rfl
        have hint : (recAt s.node (recAt s.node i).parent.toNat).kind = .internal :=
          (F.merged _ h2 h3).kind
        rcases h4 with h4 | h4
        · exact ⟨p ++ [false], by have := hp.snoc false hint; simp only [childOf, Bool.false_eq_true, if_false, h4] at this; exact this⟩
        · exact ⟨p ++ [true], by have := hp.snoc true hint; simp only [childOf, if_true, h4] at this; exact this⟩

/-- A path to a leaf is a codeword path of the walk (R112, R140). -/
theorem Forest.leadsTo (F : Forest pres s k) (hk : k ≤ 511) {i : Idx} {j : Nat} {p : List Bool}
    (h : Reaches s.node i.toNat p j) (hj : (recAt s.node j).kind = .leaf) :
    leadsTo s i p (recAt s.node j).sym = true := by
  induction p generalizing i with
  | nil =>
    simp only [Reaches] at h
    subst h
    simp [Machine.leadsTo, nodeAt_eq, hj]
  | cons b p ih =>
    have hlt := F.child_lt h.1 b
    have hi := (F.internal h.1).2
    simp only [Machine.leadsTo, Bool.and_eq_true, beq_iff_eq, bne_iff_ne, nodeAt_eq]
    refine ⟨⟨h.1, ?_⟩, ih h.2⟩
    intro e
    rw [e] at hlt
    have : (Config.nil).toNat = 511 := rfl
    omega

/-! ### Code bits -/

theorem leftJustify_getLsbD (p : List Bool) (hp : p.length ≤ 256) (j : Nat) (hj : j < 256) :
    (leftJustify p).getLsbD (255 - j) = p.getD j false := by
  induction p generalizing j with
  | nil => simp [leftJustify]
  | cons b p ih =>
    simp only [leftJustify, BitVec.getLsbD_or, BitVec.getLsbD_shiftLeft, BitVec.getLsbD_setWidth,
      BitVec.getLsbD_ushiftRight, List.length_cons] at *
    by_cases h0 : j = 0
    · subst h0
      cases b <;> simp [BitVec.getLsbD_of_ge]
    · have e : 1 + (255 - j) = 255 - (j - 1) := by omega
      rw [e, ih (by omega) (j - 1) (by omega)]
      obtain ⟨j', rfl⟩ : ∃ j', j = j' + 1 := ⟨j - 1, by omega⟩
      simp
      omega

/-- The code bits of a path's entry are the path (R103). -/
theorem codeBits_codeOfPath (p : List Bool) (hp : p.length ≤ 255) : codeBits (codeOfPath p) = p := by
  have hl : (BitVec.ofNat 8 p.length).toNat = p.length := by simp; omega
  unfold codeBits codeOfPath
  simp only [hl]
  apply List.ext_getElem
  · simp
  · intro j h1 h2
    simp only [List.getElem_map, List.getElem_range, codeBit]
    rw [leftJustify_getLsbD p (by omega) j (by omega)]
    simp [h2]

end Sys2Proof.Machine
end

