-- ==== Sys2Proof/Laws/Builder.lean ====
section
/-! SUPPORT. BLD as a whole (R90): what its body leaves in the arena, the queue, the tree registers
and the code table; that it depends on FREQ alone (R105); that it keeps the canonical forms. -/

namespace Sys2Proof.Machine

/-! ### Phase 2 -/

theorem Forest.heapSize_toNat {pres : List Nat} {s : State} {k : Nat} (F : Forest pres s k) :
    s.heapSize.toNat = s.heap.length := by
  rw [F.size]
  exact ofNat9_toNat (by have := F.count; have := F.seeded; have := F.small; omega)

theorem mergeOnce_freqAt (s : State) (k b : Nat) : freqAt (mergeOnce s k) b = freqAt s b := by
  rw [mergeOnce_eq, heapPush_freqAt]; rfl

/-- The merge loop ends with one entry in the queue (R97). -/
theorem Forest.mergeLoop {pres : List Nat} (fuel : Nat) {s : State} {k : Nat} (F : Forest pres s k)
    (h0 : s.heap ≠ []) (hf : s.heap.length ≤ fuel + 1)
    (htot : (pres.map (fun b => (freqAt s b).toNat)).sum < 2 ^ 40) :
    Forest pres (mergeLoop fuel s k).1 (mergeLoop fuel s k).2 ∧
      (mergeLoop fuel s k).1.heap.length = 1 ∧
      ∀ b, freqAt (mergeLoop fuel s k).1 b = freqAt s b := by
  induction fuel generalizing s k with
  | zero =>
    have : 0 < s.heap.length := List.length_pos_of_ne_nil h0
    exact ⟨F, by simp only [Machine.mergeLoop]; omega, fun _ => rfl⟩
  | succ f ih =>
    have hpos : 0 < s.heap.length := List.length_pos_of_ne_nil h0
    simp only [Machine.mergeLoop, F.heapSize_toNat]
    by_cases h1 : 1 < s.heap.length
    · rw [if_pos h1]
      have F' := F.merge h1 htot
      have c := F.count
      have c' := F'.count
      obtain ⟨g1, g2, g3⟩ := ih F' (by intro h; rw [h] at c'; simp at c'; omega) (by omega)
        (by simpa only [mergeOnce_freqAt] using htot)
      exact ⟨g1, g2, fun b => by rw [g3, mergeOnce_freqAt]⟩
    · simp only [if_neg h1]
      exact ⟨F, by omega, fun _ => trivial⟩

theorem sum_le_of_le (l : List Nat) (f : Nat → Nat) (m : Nat) (h : ∀ x ∈ l, f x ≤ m) :
    (l.map f).sum ≤ l.length * m := by
  induction l with
  | nil => simp
  | cons a l ih =>
    have h1 := h a (by simp)
    have h2 := ih (fun x hx => h x (by simp [hx]))
    simp only [List.map_cons, List.sum_cons, List.length_cons, Nat.add_mul, Nat.one_mul]
    omega

/-- The frequencies of a table sum to less than 2^40 (R99). -/
theorem total_lt (s : State) (pres : List Nat) (h : pres.length ≤ 256) :
    (pres.map (fun b => (freqAt s b).toNat)).sum < 2 ^ 40 := by
  have h1 := sum_le_of_le pres (fun b => (freqAt s b).toNat) (2 ^ 32 - 1)
    (fun x _ => by have := (freqAt s x).isLt; omega)
  have : pres.length * (2 ^ 32 - 1) ≤ 256 * (2 ^ 32 - 1) := Nat.mul_le_mul_right _ h
  omega

/-! ### Phase 3 -/

/-- The pairs of a byte and a path that GEN writes, in its order (R103). -/
def leavesBelow (node : Table NodeRec) : (fuel : Nat) → Idx → List Bool → List (Byte × List Bool)
  | 0, _, _ => []
  | fuel + 1, i, path =>
    if (recAt node i.toNat).kind = .leaf then [((recAt node i.toNat).sym, path)]
    else leavesBelow node fuel (recAt node i.toNat).left (path ++ [false]) ++
      leavesBelow node fuel (recAt node i.toNat).right (path ++ [true])

/-- The codes of a list of bytes and paths, written in order. -/
def writeCodes (s : State) (l : List (Byte × List Bool)) : State :=
  l.foldl (fun s e => setCode s e.1.toNat (codeOfPath e.2)) s

theorem writeCodes_frame (l : List (Byte × List Bool)) (s : State) :
    writeCodes s l = { s with code := (writeCodes s l).code } := by
  induction l generalizing s with
  | nil => rfl
  | cons e l ih =>
    have := ih (setCode s e.1.toNat (codeOfPath e.2))
    simpa only [writeCodes, List.foldl_cons, setCode] using this

theorem writeCodes_node (l : List (Byte × List Bool)) (s : State) :
    (writeCodes s l).node = s.node := by rw [writeCodes_frame]

theorem writeCodes_append (l l' : List (Byte × List Bool)) (s : State) :
    writeCodes s (l ++ l') = writeCodes (writeCodes s l) l' := by
  simp only [writeCodes, List.foldl_append]

theorem gen_eq (fuel : Nat) (s : State) (i : Idx) (path : List Bool) :
    gen fuel s i path = writeCodes s (leavesBelow s.node fuel i path) := by
  induction fuel generalizing s i path with
  | zero => rfl
  | succ f ih =>
    by_cases h : (nodeAt s i).kind = .leaf
    · have h' : (recAt s.node i.toNat).kind = .leaf := h
      simp only [gen, if_pos h, leavesBelow, if_pos h']
      rfl
    · have h' : ¬ (recAt s.node i.toNat).kind = .leaf := h
      simp only [gen, if_neg h, leavesBelow, if_neg h']
      rw [ih, ih, writeCodes_node, writeCodes_append]
      rfl

/-- A byte that no pair names keeps its entry; a byte whose pairs all name the path p has p's. -/
theorem codeAt_writeCodes (l : List (Byte × List Bool)) (s : State) (v : Byte) :
    ((∀ e ∈ l, e.1 ≠ v) → codeAt (writeCodes s l) v = codeAt s v) ∧
    (∀ p, (∀ e ∈ l, e.1 = v → e.2 = p) → (∃ e ∈ l, e.1 = v) →
      codeAt (writeCodes s l) v = codeOfPath p) := by
  induction l generalizing s with
  | nil => exact ⟨fun _ => rfl, fun p _ ⟨e, he, _⟩ => absurd he (by simp)⟩
  | cons e l ih =>
    obtain ⟨h1, h2⟩ := ih (setCode s e.1.toNat (codeOfPath e.2))
    have hstep : writeCodes s (e :: l) = writeCodes (setCode s e.1.toNat (codeOfPath e.2)) l := rfl
    constructor
    · intro hn
      rw [hstep, h1 (fun x hx => hn x (by simp [hx])), codeAt_setCode, if_neg]
      exact fun h => hn e (by simp) (BitVec.eq_of_toNat_eq h).symm
    · intro p hp _
      by_cases hv : ∃ x ∈ l, x.1 = v
      · rw [hstep]; exact h2 p (fun x hx => hp x (by simp [hx])) hv
      · have hev : e.1 = v := by
          obtain ⟨x, hx, hxv⟩ := ‹∃ x ∈ e :: l, x.1 = v›
          rcases List.mem_cons.1 hx with rfl | hx
          · exact hxv
          · exact absurd ⟨x, hx, hxv⟩ hv
        rw [hstep, h1 (fun x hx h => hv ⟨x, hx, h⟩), codeAt_setCode, if_pos (by rw [hev]),
          hp e (by simp) hev]

theorem mem_leavesBelow {pres : List Nat} {s : State} {k : Nat} (F : Forest pres s k) (fuel : Nat)
    (i : Idx) (path : List Bool) (hi : i.toNat < k) (hf : i.toNat < fuel) (v : Byte)
    (q : List Bool) :
    (v, q) ∈ leavesBelow s.node fuel i path ↔
      ∃ p j, q = path ++ p ∧ Reaches s.node i.toNat p j ∧ (recAt s.node j).kind = .leaf ∧
        (recAt s.node j).sym = v := by
  induction fuel generalizing i path with
  | zero => omega
  | succ f ih =>
    simp only [leavesBelow]
    by_cases hl : (recAt s.node i.toNat).kind = .leaf
    · rw [if_pos hl, List.mem_singleton]
      constructor
      · intro h
        obtain ⟨rfl, rfl⟩ := Prod.mk.inj h
        exact ⟨[], i.toNat, by simp, rfl, hl, rfl⟩
      · rintro ⟨p, j, rfl, hr, hj, rfl⟩
        cases p with
        | nil => simp only [Reaches] at hr; subst hr; simp
        | cons b p => have := hr.1; rw [hl] at this; cases this
    · have hint : (recAt s.node i.toNat).kind = .internal := by
        rcases F.kind hi with ⟨_, h⟩ | ⟨_, h⟩
        · exact absurd h hl
        · exact h
      have c0 := F.child_lt hint false
      have c1 := F.child_lt hint true
      simp only [childOf, Bool.false_eq_true, if_false, if_true] at c0 c1
      rw [if_neg hl, List.mem_append, ih _ _ (by omega) (by omega), ih _ _ (by omega) (by omega)]
      constructor
      · rintro (⟨p, j, rfl, hr, hj⟩ | ⟨p, j, rfl, hr, hj⟩)
        · exact ⟨false :: p, j, by simp, ⟨hint, by simpa [childOf] using hr⟩, hj⟩
        · exact ⟨true :: p, j, by simp, ⟨hint, by simpa [childOf] using hr⟩, hj⟩
      · rintro ⟨p, j, rfl, hr, hj⟩
        cases p with
        | nil =>
          simp only [Reaches] at hr
          subst hr
          exact absurd hj.1 hl
        | cons b p =>
          cases b
          · exact .inl ⟨p, j, by simp, by simpa [childOf] using hr.2, hj⟩
          · exact .inr ⟨p, j, by simp, by simpa [childOf] using hr.2, hj⟩

/-! ### The whole -/

/-- What BLD leaves: the tree of the present bytes and their codes (R90). -/
structure Built (s t : State) : Prop where
  frame : t = { s with
    node := t.node, code := t.code, heap := t.heap, heapSize := t.heapSize, root := t.root,
    nnodes := t.nnodes, nsym := t.nsym, empty := t.empty, single := t.single }
  nsym : t.nsym = BitVec.ofNat 9 (presentBelow s 256).length
  nnodes : t.nnodes = BitVec.ofNat 10 (2 * (presentBelow s 256).length - 1)
  empty : t.empty = emptyFlag (presentBelow s 256).length
  single : t.single = singleFlag (presentBelow s 256).length
  none : (presentBelow s 256).length = 0 →
    t.node = [] ∧ t.code = [] ∧ t.heap = [] ∧ t.heapSize = 0#9 ∧ t.root = Config.nil
  forest : (presentBelow s 256).length ≠ 0 →
    Forest (presentBelow s 256) t (2 * (presentBelow s 256).length - 1)
  heap : (presentBelow s 256).length ≠ 0 → t.heap = [t.root] ∧ t.heapSize = 1#9
  one : (presentBelow s 256).length = 1 →
    t.code = Table.put clearedCode [] (recAt t.node 0).sym.toNat ⟨1#8, 0#256⟩
  codes : 2 ≤ (presentBelow s 256).length →
    t.code = (writeCodes { t with code := [] }
      (leavesBelow t.node t.nnodes.toNat t.root [])).code

theorem Forest.of_eq {pres : List Nat} {s t : State} {k : Nat} (F : Forest pres s k)
    (hn : t.node = s.node) (hh : t.heap = s.heap) (hs : t.heapSize = s.heapSize)
    (hf : t.freq = s.freq) : Forest pres t k := by
  have hfa : ∀ b, freqAt t b = freqAt s b := fun b => by simp only [freqAt, hf]
  exact ⟨by rw [hn]; exact F.arena, F.small, F.seeded, fun m hm => by rw [hn, hfa]; exact F.leaf m hm,
    fun i h1 h2 => by rw [hn]; exact F.merged i h1 h2, fun i hi => by rw [hn]; exact F.fresh i hi,
    fun i hi => by rw [hn]; exact F.hangs i hi, by rw [hh]; exact F.nodup,
    fun x => by rw [hh, hn]; exact F.queue x, by rw [hh]; exact F.count,
    by rw [hs, hh]; exact F.size, by rw [hn, hh]; exact F.order,
    by simp only [hh, hn, hfa]; exact F.total⟩

/-- t differs from s in the arena and the queue only. -/
def QueueFrame (s t : State) : Prop :=
  t = { s with node := t.node, heap := t.heap, heapSize := t.heapSize }

theorem QueueFrame.trans {s t u : State} (h1 : QueueFrame s t) (h2 : QueueFrame t u) :
    QueueFrame s u := by
  unfold QueueFrame at *
  rw [h2]
  conv_lhs => rw [h1]

theorem seed_frame (s : State) : QueueFrame s (seed s).1 := by
  simp only [seed]
  generalize List.range Config.nsymMax = l
  suffices ∀ r : State × Nat, QueueFrame r.1 (l.foldl seedByte r).1 from this (s, 0)
  induction l with
  | nil => exact fun _ => rfl
  | cons b l ih =>
    intro r
    refine QueueFrame.trans ?_ (ih (seedByte r b))
    obtain ⟨s, n⟩ := r
    simp only [seedByte]
    split_ifs <;> rfl

theorem mergeLoop_frame (fuel : Nat) (s : State) (k : Nat) :
    QueueFrame s (mergeLoop fuel s k).1 := by
  induction fuel generalizing s k with
  | zero => rfl
  | succ f ih =>
    simp only [mergeLoop]
    split_ifs
    · refine QueueFrame.trans ?_ (ih _ _)
      rw [mergeOnce_eq]
      rfl
    · rfl

theorem seedByte_absent {s : State} (hz : ∀ b, b < 256 → freqAt s b = 0#32) : seed s = (s, 0) := by
  have : ∀ m, m ≤ 256 → (List.range m).foldl seedByte (s, 0) = (s, 0) := by
    intro m hm
    induction m with
    | zero => rfl
    | succ m ih =>
      rw [List.range_succ, List.foldl_append, ih (by omega)]
      simp [seedByte, hz m (by omega)]
  exact this 256 (Nat.le_refl _)

theorem presentBelow_eq_nil {s : State} :
    presentBelow s 256 = [] ↔ ∀ b, b < 256 → freqAt s b = 0#32 := by
  simp [presentBelow, List.filter_eq_nil_iff]

/-- The tree and the codes of n ≥ 1 leaves (R97 to R103). -/
theorem bldTree_built {s u : State} (hq : QueueFrame (bldClear s) u)
    (F : Forest (presentBelow s 256) u (presentBelow s 256).length)
    (h0 : (presentBelow s 256).length ≠ 0) :
    Built s (bldTree { u with
      nsym := BitVec.ofNat 9 (presentBelow s 256).length,
      empty := emptyFlag (presentBelow s 256).length } (presentBelow s 256).length) := by
  generalize hn : (presentBelow s 256).length = n at *
  generalize hu' : ({ u with nsym := BitVec.ofNat 9 n, empty := emptyFlag n } : State) = u'
  have F' : Forest (presentBelow s 256) u' n := F.of_eq (by rw [← hu']) (by rw [← hu'])
    (by rw [← hu']) (by rw [← hu'])
  have hlen : u'.heap.length = n := by have := F'.count; omega
  have hfr := mergeLoop_frame n u' n
  obtain ⟨G, hone, hfreq⟩ := F'.mergeLoop n (by intro h; rw [h] at hlen; simp at hlen; omega)
    (by omega) (total_lt u' _ F'.small)
  simp only [bldTree]
  generalize mergeLoop n u' n = m at *
  obtain ⟨w, k⟩ := m
  simp only at G hone hfreq hfr ⊢
  obtain ⟨r, hr⟩ : ∃ r, w.heap = [r] := by
    match hw : w.heap, hone with
    | [r], _ => exact ⟨r, rfl⟩
  have hroot := G.root hr
  have hk : k = 2 * n - 1 := by have := hroot.2; omega
  subst hk
  have hat : heapAt w.heap 0 = r := by rw [hr]; rfl
  rw [hat]
  have hw : w = { s with
      node := w.node, code := [], heap := w.heap, heapSize := w.heapSize, root := Config.nil,
      nnodes := 0#10, nsym := BitVec.ofNat 9 n, empty := emptyFlag n, single := false } := by
    unfold QueueFrame at hfr hq
    rw [hfr, ← hu']
    conv_lhs => rw [hq]
    rfl
  generalize hv : ({ w with
    root := r, nnodes := BitVec.ofNat 10 (2 * n - 1), single := singleFlag n } : State) = v
  have hvn : v.node = w.node := by rw [← hv]
  have hvh : v.heap = w.heap := by rw [← hv]
  have hvs : v.heapSize = w.heapSize := by rw [← hv]
  have hvf : v.freq = w.freq := by rw [← hv]
  have hvr : v.root = r := by rw [← hv]
  have hvk : v.nnodes = BitVec.ofNat 10 (2 * n - 1) := by rw [← hv]
  have hvc : v.code = [] := by rw [← hv]; exact congrArg State.code hw
  have H : Forest (presentBelow s 256) v (2 * n - 1) := G.of_eq hvn hvh hvs hvf
  have hvframe : v = { s with
      node := v.node, code := [], heap := v.heap, heapSize := v.heapSize, root := v.root,
      nnodes := v.nnodes, nsym := BitVec.ofNat 9 n, empty := emptyFlag n,
      single := singleFlag n } := by
    rw [← hv]
    conv_lhs => rw [hw]
  have hcodes : bldCodes v n = { v with code := (bldCodes v n).code } := by
    simp only [bldCodes]
    split_ifs
    · rfl
    · rw [gen_eq]; exact writeCodes_frame _ _
  generalize hc : (bldCodes v n).code = c at hcodes
  have key : c = if n = 1 then Table.put clearedCode [] (recAt v.node 0).sym.toNat ⟨1#8, 0#256⟩
      else (writeCodes v (leavesBelow v.node v.nnodes.toNat v.root [])).code := by
    rw [← hc]
    simp only [bldCodes]
    split_ifs
    · rw [setCode_code, hvc]; rfl
    · rw [gen_eq]
  rw [hcodes]
  constructor
  · have e : ({ v with code := c } : State) = { s with
        node := v.node, code := c, heap := v.heap, heapSize := v.heapSize, root := v.root,
        nnodes := v.nnodes, nsym := BitVec.ofNat 9 n, empty := emptyFlag n,
        single := singleFlag n } := congrArg (fun x : State => { x with code := c }) hvframe
    rw [e]
  · show v.nsym = _
    rw [hvframe, hn]
  · show v.nnodes = _
    rw [hvk, hn]
  · show v.empty = _
    rw [hvframe, hn]
  · show v.single = _
    rw [hvframe, hn]
  · intro h; omega
  · intro _
    rw [hn]
    exact H.of_eq rfl rfl rfl rfl
  · intro _
    refine ⟨by show v.heap = [v.root]; rw [hvh, hvr, hr], ?_⟩
    show v.heapSize = 1#9
    rw [H.size, hvh, hr]; rfl
  · intro h
    rw [if_pos (by omega)] at key
    exact key
  · intro h
    rw [if_neg (by omega)] at key
    show c = _
    have e : ({ v with code := [] } : State) = v := by rw [← hvc]
    rw [key]
    show _ = (writeCodes { v with code := [] } _).code
    rw [e]

/-- What BLD's body leaves (R90): it never faults. -/
theorem bldBody_built (s : State) : ∃ t, bldBody s = .ok t ∧ Built s t := by
  obtain ⟨h1, h2, F⟩ := seed_forest (bldClear s) rfl rfl rfl
  have hq := seed_frame (bldClear s)
  have hp : presentBelow (bldClear s) 256 = presentBelow s 256 := rfl
  rw [hp] at h1 F
  by_cases h0 : (presentBelow s 256).length = 0
  · have hz := presentBelow_eq_nil.1 (List.eq_nil_of_length_eq_zero h0)
    have hseed : seed (bldClear s) = (bldClear s, 0) := seedByte_absent (s := bldClear s) hz
    refine ⟨{ bldClear s with nsym := BitVec.ofNat 9 0, empty := emptyFlag 0 }, ?_, ?_⟩
    · simp only [bldBody, bldAfterSeed, hseed, if_true]
    · constructor
      · rfl
      · rw [h0]
      · rw [h0]; rfl
      · rw [h0]
      · rw [h0]; rfl
      · exact fun _ => ⟨rfl, rfl, rfl, rfl, rfl⟩
      · exact fun h => absurd h0 h
      · exact fun h => absurd h0 h
      · omega
      · omega
  · refine ⟨_, ?_, bldTree_built hq F h0⟩
    simp only [bldBody, bldAfterSeed, h1, if_neg h0]

/-! ### The codes -/

theorem mem_presentBelow {s : State} {m : Nat} : m ∈ presentBelow s 256 ↔
    m < 256 ∧ freqAt s m ≠ 0#32 := by
  simp [presentBelow]

section
variable {s t : State} (B : Built s t)
include B

theorem Built.root_toNat (h0 : (presentBelow s 256).length ≠ 0) :
    t.root.toNat + 1 = 2 * (presentBelow s 256).length - 1 := ((B.forest h0).root (B.heap h0).1).1

theorem Built.nnodes_toNat : t.nnodes.toNat = 2 * (presentBelow s 256).length - 1 := by
  have := presentBelow_length_le s 256
  rw [B.nnodes]
  simp; omega

theorem Built.nsym_toNat : t.nsym.toNat = (presentBelow s 256).length := by
  have := presentBelow_length_le s 256
  rw [B.nsym]
  simp; omega

theorem Built.freqAt (b : Nat) : freqAt t b = freqAt s b := by rw [B.frame]; rfl

/-- The SYM of leaf m is the m-th present byte (R93). -/
theorem Built.sym {m : Nat} (hm : m < (presentBelow s 256).length) :
    (recAt t.node m).sym = BitVec.ofNat 8 (presentBelow s 256)[m] :=
  ((B.forest (by omega)).leaf m hm).sym

theorem Built.sym_toNat {m : Nat} (hm : m < (presentBelow s 256).length) :
    (recAt t.node m).sym.toNat = (presentBelow s 256)[m] := by
  have := (mem_presentBelow.1 (List.getElem_mem hm)).1
  rw [B.sym hm]
  simp; omega

theorem Built.leaf_lt {j : Nat} (hj : (recAt t.node j).kind = .leaf) :
    j < (presentBelow s 256).length := by
  by_cases h0 : (presentBelow s 256).length = 0
  · rw [(B.none h0).1] at hj; cases hj
  · by_cases hk : j < 2 * (presentBelow s 256).length - 1
    · rcases (B.forest h0).kind hk with ⟨h, _⟩ | ⟨_, h⟩
      · exact h
      · rw [hj] at h; cases h
    · rw [(B.forest h0).fresh j (by omega)] at hj; cases hj

theorem Built.sym_present {j : Nat} (hj : (recAt t.node j).kind = .leaf) :
    Machine.freqAt s (recAt t.node j).sym.toNat ≠ 0#32 := by
  have h := B.leaf_lt hj
  rw [B.sym_toNat h]
  exact (mem_presentBelow.1 (List.getElem_mem h)).2

theorem Built.sym_inj {i j : Nat} (hi : (recAt t.node i).kind = .leaf)
    (hj : (recAt t.node j).kind = .leaf) (h : (recAt t.node i).sym = (recAt t.node j).sym) :
    i = j := by
  have h1 := B.leaf_lt hi
  have h2 := B.leaf_lt hj
  have e := congrArg BitVec.toNat h
  rw [B.sym_toNat h1, B.sym_toNat h2] at e
  have nd : (presentBelow s 256).Nodup := List.nodup_range.filter _
  exact (nd.getElem_inj_iff).1 e

theorem Built.exists_leaf {b : Byte} (hb : Machine.freqAt s b.toNat ≠ 0#32) :
    ∃ j, (recAt t.node j).kind = .leaf ∧ (recAt t.node j).sym = b := by
  obtain ⟨m, hm, e⟩ := List.getElem_of_mem (mem_presentBelow.2 ⟨b.isLt, hb⟩)
  refine ⟨m, ((B.forest (by omega)).leaf m hm).kind, ?_⟩
  rw [B.sym hm, e]
  exact BitVec.eq_of_toNat_eq (by simp)

theorem Built.mem_leaves (h2 : 2 ≤ (presentBelow s 256).length) (v : Byte) (q : List Bool) :
    (v, q) ∈ leavesBelow t.node t.nnodes.toNat t.root [] ↔
      ∃ j, Reaches t.node t.root.toNat q j ∧ (recAt t.node j).kind = .leaf ∧
        (recAt t.node j).sym = v := by
  have hr := B.root_toNat (by omega)
  rw [mem_leavesBelow (B.forest (by omega)) _ _ _ (by omega) (by rw [B.nnodes_toNat]; omega)]
  constructor
  · rintro ⟨p, j, rfl, h⟩; exact ⟨j, h⟩
  · rintro ⟨j, h⟩; exact ⟨q, j, rfl, h⟩

theorem Built.root_parent (h0 : (presentBelow s 256).length ≠ 0) :
    (recAt t.node t.root.toNat).parent = Config.nil := by
  have F := B.forest h0
  have : t.root ∈ t.heap := by rw [(B.heap h0).1]; simp
  exact ((F.queue _).1 this).2

/-- The code of a leaf's byte is the path to the leaf (R103). -/
theorem Built.code_path (h2 : 2 ≤ (presentBelow s 256).length) {j : Nat} {p : List Bool}
    (hr : Reaches t.node t.root.toNat p j) (hj : (recAt t.node j).kind = .leaf) :
    codeAt t (recAt t.node j).sym = codeOfPath p := by
  have h0 : (presentBelow s 256).length ≠ 0 := by omega
  have F := B.forest h0
  have hk : 2 * (presentBelow s 256).length - 1 ≤ 511 := by have := F.small; omega
  have e : codeAt t (recAt t.node j).sym =
      codeAt (writeCodes { t with code := [] } (leavesBelow t.node t.nnodes.toNat t.root []))
        (recAt t.node j).sym := by
    simp only [codeAt]; rw [B.codes h2]
  rw [e]
  refine (codeAt_writeCodes _ _ _).2 p ?_ ⟨_, (B.mem_leaves h2 _ p).2 ⟨j, hr, hj, rfl⟩, rfl⟩
  rintro ⟨v, q⟩ hm hv
  obtain ⟨i, hi1, hi2, hi3⟩ := (B.mem_leaves h2 v q).1 hm
  have : i = j := B.sym_inj hi2 hj (hi3.trans hv)
  subst this
  exact F.path_unique hk (B.root_parent h0) q p hi1 hr

/-- A byte that is not present has no code (R92, R101). -/
theorem Built.code_absent {b : Byte} (hb : Machine.freqAt s b.toNat = 0#32) :
    codeAt t b = clearedCode := by
  by_cases h0 : (presentBelow s 256).length = 0
  · simp only [codeAt, (B.none h0).2.1]; rfl
  · by_cases h1 : (presentBelow s 256).length = 1
    · simp only [codeAt, B.one h1, Table.get_put]
      rw [if_neg]
      · rfl
      · intro e
        have := B.sym_present ((B.forest h0).leaf 0 (by omega)).kind
        rw [← e] at this
        exact this hb
    · have h2 : 2 ≤ (presentBelow s 256).length := by omega
      have e : codeAt t b =
          codeAt (writeCodes { t with code := [] } (leavesBelow t.node t.nnodes.toNat t.root [])) b := by
        simp only [codeAt]; rw [B.codes h2]
      rw [e, (codeAt_writeCodes _ _ _).1]
      · rfl
      · rintro ⟨v, q⟩ hm hv
        obtain ⟨i, _, hi2, hi3⟩ := (B.mem_leaves h2 v q).1 hm
        have := B.sym_present hi2
        rw [hi3, show v = b from hv] at this
        exact this hb

/-- With two or more present bytes, each has the path to its leaf as its code, of 1 to n - 1 bits
(R103, R106). -/
theorem Built.code_present (h2 : 2 ≤ (presentBelow s 256).length) {b : Byte}
    (hb : Machine.freqAt s b.toNat ≠ 0#32) :
    ∃ j p, Reaches t.node t.root.toNat p j ∧ (recAt t.node j).kind = .leaf ∧
      (recAt t.node j).sym = b ∧ codeAt t b = codeOfPath p ∧ codeBits (codeAt t b) = p ∧
      1 ≤ p.length ∧ p.length + 1 ≤ (presentBelow s 256).length := by
  have h0 : (presentBelow s 256).length ≠ 0 := by omega
  have F := B.forest h0
  have hroot := B.root_toNat h0
  obtain ⟨j, hj, hs⟩ := B.exists_leaf hb
  have hlt := B.leaf_lt hj
  obtain ⟨p, hp⟩ := F.reached (B.heap h0).1 j (by omega)
  have hne : p ≠ [] := by
    rintro rfl
    simp only [Reaches] at hp
    omega
  have hlen := F.path_length hp hne
  have hc := B.code_path h2 hp hj
  rw [hs] at hc
  have hsm := F.small
  refine ⟨j, p, hp, hj, hs, hc, ?_, List.length_pos_of_ne_nil hne, by omega⟩
  rw [hc]
  exact codeBits_codeOfPath p (by omega)

/-- The one-leaf tree: its byte has the code "0" (R102). -/
theorem Built.code_one (h1 : (presentBelow s 256).length = 1) {b : Byte}
    (hb : Machine.freqAt s b.toNat ≠ 0#32) :
    codeAt t b = ⟨1#8, 0#256⟩ ∧ t.root = 0#9 ∧ (nodeAt t t.root).kind = .leaf ∧
      (nodeAt t t.root).sym = b := by
  obtain ⟨j, hj, hs⟩ := B.exists_leaf hb
  have hlt := B.leaf_lt hj
  obtain rfl : j = 0 := by omega
  have hr : t.root = 0#9 := BitVec.eq_of_toNat_eq (by
    have := B.root_toNat (by omega); simp; omega)
  refine ⟨?_, hr, by rw [hr]; exact hj, by rw [hr]; exact hs⟩
  simp only [codeAt, B.one h1, Table.get_put, hs, if_true]

/-- The code of a present byte is its codeword for the walk (R112, R140, R141). -/
theorem Built.codeword {b : Byte} (hb : Machine.freqAt s b.toNat ≠ 0#32) :
    Machine.codeword t (codeBits (codeAt t b)) b = true := by
  have hmem := mem_presentBelow.2 ⟨b.isLt, hb⟩
  have h0 : (presentBelow s 256).length ≠ 0 := by
    intro h; rw [List.eq_nil_of_length_eq_zero h] at hmem; simp at hmem
  by_cases h1 : (presentBelow s 256).length = 1
  · obtain ⟨e1, _, e3, e4⟩ := B.code_one h1 hb
    rw [Machine.codeword, if_pos e3, e1, e4]
    simp
    decide
  · obtain ⟨j, p, hp, hj, hs, _, hc, hl, _⟩ := B.code_present (by omega) hb
    have hne : ¬ (nodeAt t t.root).kind = .leaf := by
      intro h
      cases p with
      | nil => simp at hl
      | cons c p => have := hp.1; rw [← nodeAt_eq, h] at this; cases this
    rw [Machine.codeword, if_neg hne, hc, ← hs]
    exact (B.forest h0).leadsTo (by have := (B.forest h0).small; omega) hp hj

/-- A byte has a code exactly when it is present. -/
theorem Built.hasCode_iff (b : Byte) :
    hasCode t b = true ↔ Machine.freqAt s b.toNat ≠ 0#32 := by
  constructor
  · intro h hb
    rw [hasCode, B.code_absent hb] at h
    cases h
  · intro hb
    have hmem := mem_presentBelow.2 ⟨b.isLt, hb⟩
    have h0 : (presentBelow s 256).length ≠ 0 := by
      intro h; rw [List.eq_nil_of_length_eq_zero h] at hmem; simp at hmem
    by_cases h1 : (presentBelow s 256).length = 1
    · rw [hasCode, (B.code_one h1 hb).1]; rfl
    · obtain ⟨_, p, _, _, _, hc, _, hl, hl2⟩ := B.code_present (by omega) hb
      have := (B.forest h0).small
      rw [hasCode, hc, codeOfPath, bne_iff_ne]
      intro e
      have := congrArg BitVec.toNat e
      simp at this
      omega

end

/-! ### BLD reads FREQ alone -/

/-- Two states that agree in all that BLD reads or writes. -/
structure SameTree (s s' : State) : Prop where
  freq : ∀ b, b < 256 → freqAt s b = freqAt s' b
  node : s.node = s'.node
  code : s.code = s'.code
  heap : s.heap = s'.heap
  heapSize : s.heapSize = s'.heapSize
  root : s.root = s'.root
  nnodes : s.nnodes = s'.nnodes
  nsym : s.nsym = s'.nsym
  empty : s.empty = s'.empty
  single : s.single = s'.single

theorem SameTree.seed {s s' : State} (h : SameTree s s') :
    SameTree (seed s).1 (seed s').1 ∧ (seed s).2 = (seed s').2 := by
  have : ∀ m, m ≤ 256 →
      SameTree ((List.range m).foldl seedByte (s, 0)).1 ((List.range m).foldl seedByte (s', 0)).1 ∧
      ((List.range m).foldl seedByte (s, 0)).2 = ((List.range m).foldl seedByte (s', 0)).2 := by
    intro m hm
    induction m with
    | zero => exact ⟨h, rfl⟩
    | succ m ih =>
      obtain ⟨i1, i2⟩ := ih (by omega)
      rw [List.range_succ, List.foldl_append, List.foldl_append]
      generalize (List.range m).foldl seedByte (s, 0) = r at *
      generalize (List.range m).foldl seedByte (s', 0) = r' at *
      obtain ⟨u, n⟩ := r
      obtain ⟨u', n'⟩ := r'
      simp only at i1 i2
      subst i2
      simp only [List.foldl_cons, List.foldl_nil, seedByte, i1.freq m (by omega)]
      split_ifs
      · exact ⟨i1, rfl⟩
      · refine ⟨⟨fun b hb => ?_, ?_, ?_, ?_, ?_, ?_, ?_, ?_, ?_, ?_⟩, rfl⟩
        · rw [heapPush_freqAt, heapPush_freqAt, setNode_freqAt, setNode_freqAt]; exact i1.freq b hb
        all_goals simp [i1.node, i1.code, i1.heap, i1.root, i1.nnodes, i1.nsym, i1.empty,
          i1.single]
  exact this 256 (Nat.le_refl _)

theorem SameTree.mergeOnce {s s' : State} (h : SameTree s s') (k : Nat) :
    SameTree (mergeOnce s k) (mergeOnce s' k) := by
  rw [mergeOnce_eq, mergeOnce_eq]
  refine ⟨fun b hb => ?_, ?_, ?_, ?_, ?_, ?_, ?_, ?_, ?_, ?_⟩
  · exact h.freq b hb
  all_goals simp [h.node, h.code, h.heap, h.root, h.nnodes, h.nsym, h.empty, h.single]

theorem SameTree.mergeLoop {s s' : State} (h : SameTree s s') (fuel k : Nat) :
    SameTree (mergeLoop fuel s k).1 (mergeLoop fuel s' k).1 ∧
      (mergeLoop fuel s k).2 = (mergeLoop fuel s' k).2 := by
  induction fuel generalizing s s' k with
  | zero => exact ⟨h, rfl⟩
  | succ f ih =>
    simp only [Machine.mergeLoop, h.heapSize]
    split_ifs
    · exact ih (h.mergeOnce k) (k + 1)
    · exact ⟨h, rfl⟩

theorem SameTree.writeCodes {s s' : State} (h : SameTree s s') (l : List (Byte × List Bool)) :
    SameTree (writeCodes s l) (writeCodes s' l) := by
  induction l generalizing s s' with
  | nil => exact h
  | cons e l ih =>
    refine ih (s := setCode s e.1.toNat (codeOfPath e.2)) (s' := setCode s' e.1.toNat (codeOfPath e.2))
      ⟨fun b hb => h.freq b hb, h.node, ?_, h.heap, h.heapSize, h.root, h.nnodes, h.nsym, h.empty,
        h.single⟩
    rw [setCode_code, setCode_code, h.code]

theorem SameTree.bldCodes {s s' : State} (h : SameTree s s') (n : Nat) :
    SameTree (bldCodes s n) (bldCodes s' n) := by
  simp only [Machine.bldCodes, gen_eq, nodeAt, h.node, h.nnodes, h.root]
  split_ifs
  · exact ⟨fun b hb => h.freq b hb, h.node, by rw [setCode_code, setCode_code, h.code], h.heap,
      h.heapSize, h.root, h.nnodes, h.nsym, h.empty, h.single⟩
  · exact h.writeCodes _

/-- BLD's result is a function of FREQ alone (R105). -/
theorem bldBody_congr {s s' t t' : State} (h : ∀ b, b < 256 → freqAt s b = freqAt s' b)
    (ht : bldBody s = .ok t) (ht' : bldBody s' = .ok t') : SameTree t t' := by
  have h0 : SameTree (bldClear s) (bldClear s') := ⟨h, rfl, rfl, rfl, rfl, rfl, rfl, rfl, rfl, rfl⟩
  obtain ⟨h1, h2⟩ := h0.seed
  simp only [bldBody, bldAfterSeed] at ht ht'
  generalize seed (bldClear s) = r at *
  generalize seed (bldClear s') = r' at *
  obtain ⟨u, n⟩ := r
  obtain ⟨u', n'⟩ := r'
  simp only at h1 h2 ht ht'
  subst h2
  have h3 : SameTree { u with nsym := BitVec.ofNat 9 n, empty := emptyFlag n }
      { u' with nsym := BitVec.ofNat 9 n, empty := emptyFlag n } :=
    ⟨fun b hb => h1.freq b hb, h1.node, h1.code, h1.heap, h1.heapSize, h1.root, h1.nnodes, rfl, rfl,
      h1.single⟩
  rw [← Except.ok.inj ht, ← Except.ok.inj ht']
  split_ifs
  · exact h3
  · simp only [bldTree]
    obtain ⟨h4, h5⟩ := h3.mergeLoop n n
    generalize Machine.mergeLoop n { u with nsym := BitVec.ofNat 9 n, empty := emptyFlag n } n = m at *
    generalize Machine.mergeLoop n { u' with nsym := BitVec.ofNat 9 n, empty := emptyFlag n } n = m' at *
    obtain ⟨w, k⟩ := m
    obtain ⟨w', k'⟩ := m'
    simp only at h4 h5 ⊢
    subst h5
    refine SameTree.bldCodes (s := { w with
        root := heapAt w.heap 0, nnodes := BitVec.ofNat 10 k, single := singleFlag n })
      (s' := { w' with
        root := heapAt w'.heap 0, nnodes := BitVec.ofNat 10 k, single := singleFlag n })
      ⟨fun b hb => h4.freq b hb, h4.node, h4.code, h4.heap, h4.heapSize, ?_, rfl, h4.nsym, h4.empty,
        rfl⟩ n
    show heapAt w.heap 0 = heapAt w'.heap 0
    rw [h4.heap]

/-! ### The canonical forms -/

theorem writeCodes_wf (l : List (Byte × List Bool)) (s : State)
    (h : Table.wf Config.nsymMax clearedCode s.code = true) :
    Table.wf Config.nsymMax clearedCode (writeCodes s l).code = true := by
  induction l generalizing s with
  | nil => exact h
  | cons e l ih => exact ih _ (Table.wf_put _ _ _ _ _ e.1.isLt h)

theorem Built.nodeWf {s t : State} (B : Built s t) :
    Table.wf Config.nodeMax clearedNode t.node = true := by
  by_cases h0 : (presentBelow s 256).length = 0
  · rw [(B.none h0).1]; rfl
  · exact (B.forest h0).arena

theorem Built.codeWf {s t : State} (B : Built s t) :
    Table.wf Config.nsymMax clearedCode t.code = true := by
  by_cases h0 : (presentBelow s 256).length = 0
  · rw [(B.none h0).2.1]; rfl
  · by_cases h1 : (presentBelow s 256).length = 1
    · rw [B.one h1]
      exact Table.wf_put _ _ _ _ _ (recAt t.node 0).sym.isLt rfl
    · rw [B.codes (by omega)]
      exact writeCodes_wf _ _ rfl

end Sys2Proof.Machine
end

