-- ==== Sys2Proof/Laws/Counter.lean ====
section
/-! SUPPORT. What CNT's counting loop does. -/

namespace Sys2Proof.Machine

theorem foldl_countByte_frame (bs : List Byte) (s : State) :
    bs.foldl countByte s = { s with freq := (bs.foldl countByte s).freq } := by
  induction bs generalizing s with
  | nil => rfl
  | cons b bs ih => simp only [List.foldl_cons]; rw [ih (countByte s b)]; rfl

/-- The loop adds to each entry the number of occurrences of its byte. -/
theorem freqAt_foldl_countByte (bs : List Byte) (s : State) (c : Byte) :
    freqAt (bs.foldl countByte s) c.toNat = freqAt s c.toNat + BitVec.ofNat 32 (bs.count c) := by
  induction bs generalizing s with
  | nil => simp
  | cons b bs ih =>
    simp only [List.foldl_cons, ih, countByte, freqAt_setFreq, List.count_cons]
    by_cases h : c = b
    · subst h
      simp only [if_true, beq_self_eq_true, BitVec.ofNat_add]
      rw [BitVec.add_assoc, BitVec.add_comm 1#32]
    · have h' : c.toNat ≠ b.toNat := fun hc => h (BitVec.eq_of_toNat_eq hc)
      have h'' : (b == c) = false := by simpa using fun hc => h hc.symm
      simp [h', h'']

theorem foldl_countByte_wf (bs : List Byte) (s : State)
    (h : Table.wf Config.nsymMax 0#32 s.freq = true) :
    Table.wf Config.nsymMax 0#32 (bs.foldl countByte s).freq = true := by
  induction bs generalizing s with
  | nil => exact h
  | cons b bs ih => exact ih _ (Table.wf_put _ _ _ _ _ b.isLt h)

/-- CNT's body when the input length fits. -/
theorem cntBody_ok {s : State} (h : s.inLen ≤ s.icap) :
    cntBody s = .ok ((inputBytes s).foldl countByte { s with freq := [] }) := by
  simp [cntBody, checkInLen_ok h]

/-- Everything CNT's body can answer. -/
theorem cntBody_cases (s : State) :
    s.inLen ≤ s.icap ∧
      cntBody s = .ok ((inputBytes s).foldl countByte { s with freq := [] }) ∨
    s.icap < s.inLen ∧ cntBody s = .error ⟨.bufferOverflow, 3#32, s.inLen⟩ := by
  rcases checkInLen_cases s with ⟨h, _⟩ | ⟨h, e⟩
  · exact .inl ⟨h, cntBody_ok h⟩
  · exact .inr ⟨h, by simp [cntBody, e]⟩

theorem sum_indicator_eq_count (x : Nat) (l : List Nat) :
    (l.map (fun c => if c = x then 1 else 0)).sum = l.count x := by
  induction l with
  | nil => rfl
  | cons a l ih => simp only [List.map_cons, List.sum_cons, ih, List.count_cons, beq_iff_eq]; omega

/-- Each byte value is met once in 0 .. 255. -/
theorem sum_indicator_byte (b : Byte) :
    ((List.range 256).map (fun c => if (b == BitVec.ofNat 8 c) = true then 1 else 0)).sum = 1 := by
  rw [List.map_congr_left (g := fun c => if c = b.toNat then 1 else 0), sum_indicator_eq_count]
  · exact List.count_eq_one_of_mem List.nodup_range (List.mem_range.2 b.isLt)
  · intro c hc
    have hc : c < 256 := List.mem_range.1 hc
    have : (b == BitVec.ofNat 8 c) = true ↔ c = b.toNat := by
      rw [beq_iff_eq]
      constructor
      · rintro rfl; simp; omega
      · rintro rfl; simp
    simp only [this]

/-- The sum over all byte values of the occurrences of each is the length. -/
theorem sum_count_eq_length (bs : List Byte) :
    ((List.range 256).map (fun c => bs.count (BitVec.ofNat 8 c))).sum = bs.length := by
  induction bs with
  | nil => simp only [List.count_nil, List.length_nil, List.map_const', List.sum_replicate, smul_eq_mul, Nat.mul_zero]
  | cons b bs ih =>
    simp only [List.count_cons, List.length_cons, List.sum_map_add, ih, sum_indicator_byte]

end Sys2Proof.Machine
end

