-- ==== Sys2Proof/Laws/Decoder.lean ====
section
/-! SUPPORT. What the tree walker does along a path of the tree: a codeword emits its byte and
returns to the root, a path inside the tree only moves the cursor. -/

namespace Sys2Proof.Machine

/-- s is s0 after the bytes vs were emitted, the cursor at c. -/
structure Walked (s0 : State) (vs : List Byte) (c : Idx) (s : State) : Prop where
  frame : s = { s0 with obuf := s.obuf, outLen := s.outLen, cur := c }
  holds : Holds s vs

theorem Walked.node {s0 s : State} {vs : List Byte} {c : Idx} (h : Walked s0 vs c s) (i : Idx) :
    nodeAt s i = nodeAt s0 i := by rw [h.frame]; rfl

theorem Walked.ocap {s0 s : State} {vs : List Byte} {c : Idx} (h : Walked s0 vs c s) :
    s.ocap = s0.ocap := by rw [h.frame]

theorem Walked.root {s0 s : State} {vs : List Byte} {c : Idx} (h : Walked s0 vs c s) :
    s.root = s0.root := by rw [h.frame]

theorem Walked.nbits {s0 s : State} {vs : List Byte} {c : Idx} (h : Walked s0 vs c s) :
    s.nbits = s0.nbits := by rw [h.frame]

theorem Walked.cur {s0 s : State} {vs : List Byte} {c : Idx} (h : Walked s0 vs c s) :
    s.cur = c := by rw [h.frame]

theorem Walked.move {s0 s : State} {vs : List Byte} {c : Idx} (h : Walked s0 vs c s) (d : Idx) :
    Walked s0 vs d { s with cur := d } :=
  ⟨by conv_lhs => rw [h.frame], ⟨h.holds.len, h.holds.cells⟩⟩

/-- A leaf reached with room in OBUF. -/
theorem emitSym_ok {s0 s : State} {vs : List Byte} {c : Idx} (h : Walked s0 vs c s) (k : Nat)
    (v : Byte) (hroom : vs.length < s0.ocap.toNat) :
    ∃ t, emitSym k v s = .ok t ∧ Walked s0 (vs ++ [v]) s0.root t := by
  obtain ⟨t, ht, hv, hf⟩ := emit_ok h.holds 1#32 (BitVec.ofNat 32 k) v (by rw [h.ocap]; exact hroom)
  have hr : t.root = s0.root := by rw [hf]; exact h.root
  refine ⟨{ t with cur := t.root }, by simp [emitSym, ht], ?_, ⟨hv.len, hv.cells⟩⟩
  rw [hr]
  conv_lhs => rw [hf, h.frame]

theorem emitSym_full {s0 s : State} {vs : List Byte} {c : Idx} (h : Walked s0 vs c s) (k : Nat)
    (v : Byte) (hfull : vs.length = s0.ocap.toNat) :
    emitSym k v s = .error ⟨.bufferOverflow, 1#32, BitVec.ofNat 32 k⟩ := by
  have := emit_full h.holds 1#32 (BitVec.ofNat 32 k) v (by rw [h.ocap]; exact hfull)
  simp [emitSym, this]

theorem walkBits_append (k : Nat) (p q : List Bool) (s : State) :
    walkBits k (p ++ q) s =
      match walkBits k p s with
      | .error f => .error f
      | .ok t => walkBits (k + p.length) q t := by
  induction p generalizing k s with
  | nil => simp [walkBits]
  | cons b p ih =>
    simp only [List.cons_append, walkBits, List.length_cons]
    cases walkStep k b s with
    | error f => rfl
    | ok t => simp only [ih]; rw [show k + 1 + p.length = k + (p.length + 1) by omega]

/-- A step from an INTERNAL record to an INTERNAL child. -/
theorem walkStep_internal {s0 s : State} {vs : List Byte} {i : Idx} (h : Walked s0 vs i s) (k : Nat)
    (b : Bool) (hi : (nodeAt s0 i).kind = .internal) (hn : childOf (nodeAt s0 i) b ≠ Config.nil)
    (hc : (nodeAt s0 (childOf (nodeAt s0 i) b)).kind = .internal) :
    ∃ t, walkStep k b s = .ok t ∧ Walked s0 vs (childOf (nodeAt s0 i) b) t :=
  ⟨_, by simp [walkStep, arrive, h.cur, h.node, hi, hn, hc], h.move _⟩

/-- A step from an INTERNAL record to a LEAF child. -/
theorem walkStep_leaf {s0 s : State} {vs : List Byte} {i : Idx} (h : Walked s0 vs i s) (k : Nat)
    (b : Bool) (hi : (nodeAt s0 i).kind = .internal) (hn : childOf (nodeAt s0 i) b ≠ Config.nil)
    (hc : (nodeAt s0 (childOf (nodeAt s0 i) b)).kind = .leaf) :
    walkStep k b s = emitSym k (nodeAt s0 (childOf (nodeAt s0 i) b)).sym s := by
  simp [walkStep, arrive, h.cur, h.node, hi, hn, hc]

/-- A 0 bit at a root that is a LEAF. -/
theorem walkStep_leafRoot {s0 s : State} {vs : List Byte} (h : Walked s0 vs s0.root s) (k : Nat)
    (hi : (nodeAt s0 s0.root).kind = .leaf) :
    walkStep k false s = emitSym k (nodeAt s0 s0.root).sym s := by
  simp only [walkStep, h.cur, h.node, hi, Bool.false_eq_true, if_false, emitSym]
  rcases emit_cases 1#32 (BitVec.ofNat 32 k) (nodeAt s0 s0.root).sym s with ⟨_, e⟩ | ⟨_, e⟩
  · simp [e]
  · have hc : s.cur = s.root := by rw [h.cur, h.root]
    simp [e, ← hc]

theorem leadsTo_cons {s : State} {i : Idx} {b : Bool} {p : List Bool} {v : Byte} :
    leadsTo s i (b :: p) v = true ↔ (nodeAt s i).kind = .internal ∧
      childOf (nodeAt s i) b ≠ Config.nil ∧ leadsTo s (childOf (nodeAt s i) b) p v = true := by
  simp [leadsTo, and_assoc]

theorem leadsTo_nil {s : State} {i : Idx} {v : Byte} :
    leadsTo s i [] v = true ↔ (nodeAt s i).kind = .leaf ∧ (nodeAt s i).sym = v := by
  simp [leadsTo]

theorem staysInside_cons {s : State} {i : Idx} {b : Bool} {p : List Bool} :
    staysInside s i (b :: p) = true ↔ (nodeAt s i).kind = .internal ∧
      childOf (nodeAt s i) b ≠ Config.nil ∧ staysInside s (childOf (nodeAt s i) b) p = true := by
  simp [staysInside, and_assoc]

theorem staysInside_kind {s : State} {i : Idx} {p : List Bool} (h : staysInside s i p = true) :
    (nodeAt s i).kind = .internal := by
  cases p with
  | nil => simpa [staysInside] using h
  | cons b p => exact (staysInside_cons.1 h).1

/-- A path to a leaf emits the leaf's byte, with room in OBUF. -/
theorem walkBits_leadsTo_ok {s0 s : State} {vs : List Byte} {i : Idx} (h : Walked s0 vs i s) (k : Nat)
    (p : List Bool) (v : Byte) (hp : leadsTo s0 i p v = true) (hi : (nodeAt s0 i).kind ≠ .leaf)
    (hroom : vs.length < s0.ocap.toNat) :
    ∃ t, walkBits k p s = .ok t ∧ Walked s0 (vs ++ [v]) s0.root t := by
  induction p generalizing i s k with
  | nil => exact absurd (leadsTo_nil.1 hp).1 hi
  | cons b p ih =>
    obtain ⟨h1, h2, h3⟩ := leadsTo_cons.1 hp
    by_cases hc : (nodeAt s0 (childOf (nodeAt s0 i) b)).kind = .leaf
    · cases p with
      | nil =>
        obtain ⟨t, ht, hw⟩ := emitSym_ok h k v hroom
        refine ⟨t, ?_, hw⟩
        simp [walkBits, walkStep_leaf h k b h1 h2 hc, (leadsTo_nil.1 h3).2, ht]
      | cons b' p' => rw [(leadsTo_cons.1 h3).1] at hc; simp at hc
    · have hci : (nodeAt s0 (childOf (nodeAt s0 i) b)).kind = .internal := by
        cases p with
        | nil => exact absurd (leadsTo_nil.1 h3).1 hc
        | cons b' p' => exact (leadsTo_cons.1 h3).1
      obtain ⟨t, ht, hw⟩ := walkStep_internal h k b h1 h2 hci
      obtain ⟨u, hu, hx⟩ := ih hw (k + 1) h3 hc
      exact ⟨u, by simp [walkBits, ht, hu], hx⟩

/-- A path to a leaf faults at its last bit when OBUF is full. -/
theorem walkBits_leadsTo_full {s0 s : State} {vs : List Byte} {i : Idx} (h : Walked s0 vs i s)
    (k : Nat) (p : List Bool) (v : Byte) (hp : leadsTo s0 i p v = true)
    (hi : (nodeAt s0 i).kind ≠ .leaf) (hfull : vs.length = s0.ocap.toNat) :
    walkBits k p s = .error ⟨.bufferOverflow, 1#32, BitVec.ofNat 32 (k + p.length - 1)⟩ := by
  induction p generalizing i s k with
  | nil => exact absurd (leadsTo_nil.1 hp).1 hi
  | cons b p ih =>
    obtain ⟨h1, h2, h3⟩ := leadsTo_cons.1 hp
    by_cases hc : (nodeAt s0 (childOf (nodeAt s0 i) b)).kind = .leaf
    · cases p with
      | nil => simp [walkBits, walkStep_leaf h k b h1 h2 hc, emitSym_full h k _ hfull]
      | cons b' p' => rw [(leadsTo_cons.1 h3).1] at hc; simp at hc
    · have hci : (nodeAt s0 (childOf (nodeAt s0 i) b)).kind = .internal := by
        cases p with
        | nil => exact absurd (leadsTo_nil.1 h3).1 hc
        | cons b' p' => exact (leadsTo_cons.1 h3).1
      obtain ⟨t, ht, hw⟩ := walkStep_internal h k b h1 h2 hci
      simp only [walkBits, ht, ih hw (k + 1) h3 hc, List.length_cons]
      rw [show k + 1 + p.length - 1 = k + (p.length + 1) - 1 by omega]

/-- A path that stays inside the tree moves the cursor along it. -/
theorem walkBits_inside {s0 s : State} {vs : List Byte} {i : Idx} (h : Walked s0 vs i s) (k : Nat)
    (p : List Bool) (hp : staysInside s0 i p = true) :
    ∃ t, walkBits k p s = .ok t ∧ Walked s0 vs (walkTo s0 i p) t := by
  induction p generalizing i s k with
  | nil => exact ⟨s, rfl, h⟩
  | cons b p ih =>
    obtain ⟨h1, h2, h3⟩ := staysInside_cons.1 hp
    obtain ⟨t, ht, hw⟩ := walkStep_internal h k b h1 h2 (staysInside_kind h3)
    obtain ⟨u, hu, hx⟩ := ih hw (k + 1) h3
    exact ⟨u, by simp [walkBits, ht, hu], by simpa [walkTo] using hx⟩

/-- A codeword from the root emits its byte, with room in OBUF. -/
theorem walkBits_codeword_ok {s0 s : State} {vs : List Byte} (h : Walked s0 vs s0.root s) (k : Nat)
    (p : List Bool) (v : Byte) (hp : codeword s0 p v = true) (hroom : vs.length < s0.ocap.toNat) :
    ∃ t, walkBits k p s = .ok t ∧ Walked s0 (vs ++ [v]) s0.root t := by
  by_cases hl : (nodeAt s0 s0.root).kind = .leaf
  · simp only [codeword, hl, if_true, Bool.and_eq_true, beq_iff_eq] at hp
    obtain ⟨rfl, rfl⟩ := hp
    obtain ⟨t, ht, hw⟩ := emitSym_ok h k (nodeAt s0 s0.root).sym hroom
    exact ⟨t, by simp [walkBits, walkStep_leafRoot h k hl, ht], hw⟩
  · simp only [codeword, hl, if_false] at hp
    exact walkBits_leadsTo_ok h k p v hp hl hroom

theorem walkBits_codeword_full {s0 s : State} {vs : List Byte} (h : Walked s0 vs s0.root s) (k : Nat)
    (p : List Bool) (v : Byte) (hp : codeword s0 p v = true) (hfull : vs.length = s0.ocap.toNat) :
    walkBits k p s = .error ⟨.bufferOverflow, 1#32, BitVec.ofNat 32 (k + p.length - 1)⟩ := by
  by_cases hl : (nodeAt s0 s0.root).kind = .leaf
  · simp only [codeword, hl, if_true, Bool.and_eq_true, beq_iff_eq] at hp
    obtain ⟨rfl, rfl⟩ := hp
    simp [walkBits, walkStep_leafRoot h k hl, emitSym_full h k _ hfull]
  · simp only [codeword, hl, if_false] at hp
    exact walkBits_leadsTo_full h k p v hp hl hfull

/-- A sequence of codewords from the root emits their bytes, with room in OBUF. -/
theorem walkBits_codewords {s0 s : State} {vs : List Byte} (h : Walked s0 vs s0.root s) (k : Nat)
    (ws : List (List Bool × Byte)) (hw : ∀ w ∈ ws, codeword s0 w.1 w.2 = true)
    (hroom : vs.length + ws.length ≤ s0.ocap.toNat) :
    ∃ t, walkBits k (ws.flatMap Prod.fst) s = .ok t ∧
      Walked s0 (vs ++ ws.map Prod.snd) s0.root t := by
  induction ws generalizing vs s k with
  | nil => exact ⟨s, rfl, by simpa using h⟩
  | cons w ws ih =>
    simp only [List.length_cons] at hroom
    obtain ⟨t, ht, hx⟩ := walkBits_codeword_ok h k w.1 w.2 (hw w (by simp)) (by omega)
    obtain ⟨u, hu, hy⟩ := ih hx (k + w.1.length) (fun v hv => hw v (by simp [hv])) (by simp; omega)
    refine ⟨u, ?_, by simpa using hy⟩
    rw [List.flatMap_cons, walkBits_append, ht]
    exact hu

/-- A codeword sequence from the root, then a path that stays inside the tree (or no path): the
cursor ends where the path leads, the bytes are emitted. -/
theorem walkBits_codewords_inside {s0 s : State} (h : Walked s0 [] s0.root s)
    (ws : List (List Bool × Byte)) (p : List Bool) (hw : ∀ w ∈ ws, codeword s0 w.1 w.2 = true)
    (hp : p = [] ∨ staysInside s0 s0.root p = true) (hroom : ws.length ≤ s0.ocap.toNat) :
    ∃ t, walkBits 0 (ws.flatMap Prod.fst ++ p) s = .ok t ∧
      Walked s0 (ws.map Prod.snd) (walkTo s0 s0.root p) t := by
  obtain ⟨t, ht, hW⟩ := walkBits_codewords h 0 ws hw (by simpa using hroom)
  rw [List.nil_append] at hW
  rcases hp with rfl | hp
  · exact ⟨t, by simpa using ht, hW⟩
  · obtain ⟨u, hu, hX⟩ := walkBits_inside hW (0 + (ws.flatMap Prod.fst).length) p hp
    exact ⟨u, by rw [walkBits_append, ht]; exact hu, hX⟩

/-- A step that needs a record that is not there (R142 (b), (c), R143). -/
theorem walkStep_corrupt {s0 s : State} {vs : List Byte} {i : Idx} (h : Walked s0 vs i s) (k : Nat)
    (b : Bool) (x : Idx)
    (hx : (nodeAt s0 i).kind = .internal ∧ childOf (nodeAt s0 i) b = Config.nil ∧ x = i ∨
      (nodeAt s0 i).kind = .internal ∧ x = childOf (nodeAt s0 i) b ∧ x ≠ Config.nil ∧
        (nodeAt s0 x).kind ∈ [Kind.free, Kind.reserved] ∨
      x = i ∧ (nodeAt s0 x).kind ∈ [Kind.free, Kind.reserved]) :
    walkStep k b s = .error (corruptTree x k) := by
  simp only [List.mem_cons, List.not_mem_nil, or_false] at hx
  rcases hx with ⟨h1, h2, rfl⟩ | ⟨h1, rfl, h2, h3 | h3⟩ | ⟨rfl, h3 | h3⟩
  · simp [walkStep, h.cur, h.node, h1, h2]
  · simp [walkStep, arrive, h.cur, h.node, h1, h2, h3]
  · simp [walkStep, arrive, h.cur, h.node, h1, h2, h3]
  · simp [walkStep, h.cur, h.node, h3]
  · simp [walkStep, h.cur, h.node, h3]

theorem length_inputBits (s : State) (nb : Nat) : (inputBits s nb).length = nb := by
  simp [inputBits]

/-- WALK with bits to consume and a root. -/
theorem walk_pos {s : State} {nb : Nat} (hn : nb ≠ 0) (hr : s.root ≠ Config.nil) :
    walk nb s = walkBits 0 (inputBits s nb) { s with cur := s.root } := by
  simp [walk, hn, hr]

/-- DEC's body when the walk consumes its bits. -/
theorem decBody_walked {s t : State} (h : s.inLen ≤ s.icap)
    (hn : s.nbits.toNat ≤ 8 * s.inLen.toNat)
    (hw : walk s.nbits.toNat (clearOutput s) = .ok t) : decBody s = checkAtRoot t := by
  simp [decBody, checkInLen_ok h, inputBitCount, Nat.not_lt.2 hn, hw]

/-- DEC's body when the walk faults. -/
theorem decBody_error {s : State} {f : Trap} (h : s.inLen ≤ s.icap)
    (hn : s.nbits.toNat ≤ 8 * s.inLen.toNat)
    (hw : walk s.nbits.toNat (clearOutput s) = .error f) : decBody s = .error f := by
  simp [decBody, checkInLen_ok h, inputBitCount, Nat.not_lt.2 hn, hw]

/-- DECX's body when the walk consumes its bits. -/
theorem decxBody_walked {s t : State} (h : s.inLen ≤ s.icap)
    (hw : walk (8 * s.inLen.toNat) (clearOutput s) = .ok t) : decxBody s = .ok (clearCur t) := by
  simp [decxBody, checkInLen_ok h, inputBitCount, hw]

/-- DECX's body when the walk faults. -/
theorem decxBody_error {s : State} {f : Trap} (h : s.inLen ≤ s.icap)
    (hw : walk (8 * s.inLen.toNat) (clearOutput s) = .error f) : decxBody s = .error f := by
  simp [decxBody, checkInLen_ok h, inputBitCount, hw]

/-- The start of a walk: nothing emitted, the cursor at the root. -/
theorem walked_start (s : State) :
    Walked (clearOutput s) [] s.root { clearOutput s with cur := s.root } :=
  ⟨rfl, ⟨rfl, rfl⟩⟩

/-- A walk of at least one bit from a root. -/
theorem walk_clearOutput {s : State} {nb : Nat} (hn : nb ≠ 0) (hr : s.root ≠ Config.nil) :
    walk nb (clearOutput s) =
      walkBits 0 (inputBits s nb) { clearOutput s with cur := s.root } := walk_pos hn hr

/-- A path's end depends on the arena only. -/
theorem leadsTo_congr {s s' : State} (h : s'.node = s.node) (i : Idx) (p : List Bool) (v : Byte) :
    leadsTo s' i p v = leadsTo s i p v := by
  induction p generalizing i with
  | nil => simp only [leadsTo, nodeAt, h]
  | cons b p ih => simp only [leadsTo, nodeAt, h, ih]

theorem codeword_congr {s s' : State} (h : s'.node = s.node) (hr : s'.root = s.root) (p : List Bool)
    (v : Byte) : codeword s' p v = codeword s p v := by
  have e : nodeAt s' s'.root = nodeAt s s.root := by simp only [nodeAt, h, hr]
  unfold codeword
  rw [e, leadsTo_congr h, hr]

theorem staysInside_congr {s s' : State} (h : s'.node = s.node) (i : Idx) (p : List Bool) :
    staysInside s' i p = staysInside s i p := by
  induction p generalizing i with
  | nil => simp only [staysInside, nodeAt, h]
  | cons b p ih => simp only [staysInside, nodeAt, h, ih]

theorem codeword_ne_nil {s : State} {p : List Bool} {v : Byte} (h : codeword s p v = true) :
    p ≠ [] := by
  rintro rfl
  simp only [codeword] at h
  split_ifs at h with hl
  · simp at h
  · exact hl (leadsTo_nil.1 h).1

/-- At a leaf root, k bits 0 and then a bit 1 (R141). -/
theorem walkBits_leafRoot {s0 s : State} {vs : List Byte} (hl : (nodeAt s0 s0.root).kind = .leaf)
    (j : Nat) (h : Walked s0 vs s0.root s) (k : Nat) (hroom : vs.length + k ≤ s0.ocap.toNat)
    (rest : List Bool) :
    walkBits j (List.replicate k false ++ true :: rest) s =
      .error (corruptStream 1#32 (BitVec.ofNat 32 (j + k))) := by
  induction k generalizing vs s j with
  | zero =>
    have : walkStep j true s = .error (corruptStream 1#32 (BitVec.ofNat 32 j)) := by
      simp [walkStep, h.cur, h.node, hl]
    simp [walkBits, this]
  | succ k ih =>
    obtain ⟨t, ht, hw⟩ := emitSym_ok h j (nodeAt s0 s0.root).sym (by omega)
    have e := walkStep_leafRoot h j hl
    rw [List.replicate_succ, List.cons_append, walkBits, e, ht]
    simp only
    rw [ih (j + 1) hw (by simp; omega), show j + 1 + k = j + (k + 1) by omega]

/-! ### What a success says -/

theorem emit_walked {s0 s t : State} {vs : List Byte} {c : Idx} (h : Walked s0 vs c s)
    (hle : vs.length ≤ s0.ocap.toNat) (sub pos : Word) (v : Byte) (ht : emit sub pos v s = .ok t) :
    Walked s0 (vs ++ [v]) c t ∧ (vs ++ [v]).length ≤ s0.ocap.toNat := by
  by_cases hroom : vs.length < s0.ocap.toNat
  · obtain ⟨u, hu, hv, hf⟩ := emit_ok h.holds sub pos v (by rw [h.ocap]; exact hroom)
    rw [hu] at ht
    cases ht
    refine ⟨⟨?_, hv⟩, by simp; omega⟩
    rw [hf]
    conv_lhs => rw [h.frame]
  · rw [emit_full h.holds sub pos v (by rw [h.ocap]; omega)] at ht
    cases ht

/-- A move that succeeds emits at most one byte. -/
theorem walkStep_walked {s0 s t : State} {vs : List Byte} {c : Idx} (h : Walked s0 vs c s)
    (hle : vs.length ≤ s0.ocap.toNat) (k : Nat) (b : Bool) (ht : walkStep k b s = .ok t) :
    ∃ vs' c', Walked s0 vs' c' t ∧ vs'.length ≤ s0.ocap.toNat := by
  unfold walkStep at ht
  split at ht
  · split_ifs at ht
    unfold arrive at ht
    split at ht
    · unfold emitSym at ht
      cases he : emit 1#32 (BitVec.ofNat 32 k) (nodeAt s (childOf (nodeAt s s.cur) b)).sym s with
      | error f => rw [he] at ht; cases ht
      | ok u =>
        rw [he] at ht
        cases ht
        obtain ⟨h1, h2⟩ := emit_walked h hle _ _ _ he
        exact ⟨_, _, h1.move _, h2⟩
    · cases ht
      exact ⟨_, _, h.move _, hle⟩
    · cases ht
    · cases ht
  · split_ifs at ht
    cases he : emit 1#32 (BitVec.ofNat 32 k) (nodeAt s s.cur).sym s with
    | error f => rw [he] at ht; cases ht
    | ok u =>
      rw [he] at ht
      cases ht
      obtain ⟨h1, h2⟩ := emit_walked h hle _ _ _ he
      exact ⟨_, _, h1, h2⟩
  · cases ht
  · cases ht

theorem walkBits_walked {s0 s t : State} {vs : List Byte} {c : Idx} (h : Walked s0 vs c s)
    (hle : vs.length ≤ s0.ocap.toNat) (k : Nat) (bits : List Bool)
    (ht : walkBits k bits s = .ok t) :
    ∃ vs' c', Walked s0 vs' c' t ∧ vs'.length ≤ s0.ocap.toNat := by
  induction bits generalizing s vs c k with
  | nil => cases ht; exact ⟨vs, c, h, hle⟩
  | cons b bits ih =>
    simp only [walkBits] at ht
    cases he : walkStep k b s with
    | error f => rw [he] at ht; cases ht
    | ok u =>
      rw [he] at ht
      obtain ⟨vs', c', h1, h2⟩ := walkStep_walked h hle k b he
      exact ih h1 h2 (k + 1) ht

/-- A walk that succeeds leaves the bytes it emitted in OBUF, which they fit. -/
theorem walk_walked {s t : State} (nb : Nat) (ht : walk nb (clearOutput s) = .ok t) :
    ∃ vs c, Walked (clearOutput s) vs c t ∧ vs.length ≤ s.ocap.toNat := by
  unfold walk at ht
  split_ifs at ht
  · cases ht
    exact ⟨[], s.cur, ⟨rfl, ⟨rfl, rfl⟩⟩, Nat.zero_le _⟩
  · exact walkBits_walked (walked_start s) (Nat.zero_le _) 0 _ ht

/-- What DEC and DECX leave when they succeed: an output sequence that fits OBUF, CUR at rest. -/
structure Decoded (s t : State) : Prop where
  frame : t = { s with obuf := t.obuf, outLen := t.outLen, cur := Config.nil }
  output : ∃ vs, Holds t vs ∧ vs.length ≤ s.ocap.toNat

theorem Walked.decoded {s t : State} {vs : List Byte} {c : Idx} (h : Walked (clearOutput s) vs c t)
    (hle : vs.length ≤ s.ocap.toNat) : Decoded s (clearCur t) := by
  refine ⟨?_, vs, ⟨h.holds.len, h.holds.cells⟩, hle⟩
  have := congrArg clearCur h.frame
  conv_lhs => rw [this]
  rfl

theorem decBody_decoded {s t : State} (ht : decBody s = .ok t) : Decoded s t := by
  rcases checkInLen_cases s with ⟨hle, e⟩ | ⟨_, e⟩
  · by_cases hn : 8 * s.inLen.toNat < s.nbits.toNat
    · simp [decBody, e, inputBitCount, hn] at ht
    · cases hw : walk s.nbits.toNat (clearOutput s) with
      | error f => rw [decBody_error hle (Nat.not_lt.1 hn) hw] at ht; cases ht
      | ok u =>
        rw [decBody_walked hle (Nat.not_lt.1 hn) hw, checkAtRoot] at ht
        split_ifs at ht
        cases ht
        obtain ⟨vs, c, h1, h2⟩ := walk_walked _ hw
        exact h1.decoded h2
  · simp [decBody, e] at ht

theorem decxBody_decoded {s t : State} (ht : decxBody s = .ok t) : Decoded s t := by
  rcases checkInLen_cases s with ⟨hle, e⟩ | ⟨_, e⟩
  · cases hw : walk (8 * s.inLen.toNat) (clearOutput s) with
    | error f => rw [decxBody_error hle hw] at ht; cases ht
    | ok u =>
      rw [decxBody_walked hle hw] at ht
      cases ht
      obtain ⟨vs, c, h1, h2⟩ := walk_walked _ hw
      exact h1.decoded h2
  · simp [decxBody, e] at ht

end Sys2Proof.Machine
end

