-- ==== Sys2Proof/Laws/Encoder.lean ====
section
/-! SUPPORT. What the bit packer and the encoder's loops do: the state after packing a sequence of
bits, and the fault of the bit or byte that ends them. -/

namespace Sys2Proof.Machine

/-- s is s0 after the bits have been packed: whole bytes in OBUF, the rest in ACC. -/
structure Packed (s0 : State) (bits : List Bool) (s : State) : Prop where
  frame : s = { s0 with
    obuf := s.obuf, outLen := s.outLen, acc := s.acc, bitcnt := s.bitcnt, nbits := s.nbits }
  nbits : s.nbits = BitVec.ofNat 32 bits.length
  bitcnt : s.bitcnt.toNat = bits.length % 8
  acc : ∀ j, j < 8 → s.acc.getLsbD j =
    (decide (j < bits.length % 8) && bits.getD (bits.length - 1 - j) false)
  bytes : ∃ vs : List Byte, Holds s vs ∧ vs.length = bits.length / 8 ∧
    ∀ k, k < 8 * vs.length → (vs.getD (k / 8) 0#8).getLsbD (7 - k % 8) = bits.getD k false

theorem Packed.ocap {s0 s : State} {bits : List Bool} (h : Packed s0 bits s) : s.ocap = s0.ocap := by
  rw [h.frame]

theorem Packed.code {s0 s : State} {bits : List Bool} (h : Packed s0 bits s) (b : Byte) :
    codeAt s b = codeAt s0 b := by
  rw [h.frame]; rfl

theorem packed_encStart (s : State) : Packed (encStart s) [] (encStart s) where
  frame := rfl
  nbits := rfl
  bitcnt := rfl
  acc := by intro j _; simp [encStart]
  bytes := ⟨[], ⟨rfl, rfl⟩, rfl, by simp⟩

theorem getD_append_left (l r : List Bool) (k : Nat) (h : k < l.length) :
    (l ++ r).getD k false = l.getD k false := by
  simp [List.getD_eq_getElem?_getD, List.getElem?_append_left h]

theorem getD_append_at (l : List Bool) (b : Bool) : (l ++ [b]).getD l.length false = b := by
  simp [List.getD_eq_getElem?_getD]

/-- ACC after one more bit. -/
theorem shiftIn_acc_getLsbD {s0 s : State} {bits : List Bool} (h : Packed s0 bits s) (b : Bool)
    (j : Nat) (hj : j < 8) :
    (shiftIn b s).acc.getLsbD j =
      (decide (j < bits.length % 8 + 1) && (bits ++ [b]).getD (bits.length - j) false) := by
  simp only [shiftIn_acc, BitVec.getLsbD_or, BitVec.getLsbD_shiftLeft, BitVec.getLsbD_setWidth,
    BitVec.getLsbD_ofBool, hj, decide_true, Bool.true_and]
  cases j with
  | zero => simp
  | succ i =>
    have hi := h.acc i (by omega)
    simp only [Nat.add_one_sub_one, hi, Nat.add_lt_add_iff_right]
    have e : bits.length - 1 - i = bits.length - (i + 1) := by omega
    by_cases hr : i < bits.length % 8
    · rw [getD_append_left _ _ _ (by omega), e]; simp
    · simp [hr]

theorem packBit_eq (i : Nat) (b : Bool) (s : State) :
    packBit i b s =
      if (shiftIn b s).bitcnt = 8#4 then
        match emit 0#32 (BitVec.ofNat 32 i) (shiftIn b s).acc (shiftIn b s) with
        | .error t => .error t
        | .ok t => .ok (clearAcc t)
      else .ok (shiftIn b s) := rfl

/-- One bit packed, when OBUF has room for the byte it may complete. -/
theorem packBit_ok {s0 s : State} {bits : List Bool} (h : Packed s0 bits s) (i : Nat) (b : Bool)
    (hroom : (bits.length + 1) / 8 ≤ s0.ocap.toNat) :
    ∃ t, packBit i b s = .ok t ∧ Packed s0 (bits ++ [b]) t := by
  obtain ⟨vs, hv, hvl, hvb⟩ := h.bytes
  have hbc := h.bitcnt
  have hcnt : (shiftIn b s).bitcnt.toNat = bits.length % 8 + 1 := by
    simp only [shiftIn_bitcnt, BitVec.toNat_add, hbc, BitVec.toNat_ofNat]; omega
  have hnb : (shiftIn b s).nbits = BitVec.ofNat 32 (bits ++ [b]).length := by
    simp [h.nbits, BitVec.ofNat_add]
  have hlen : (bits ++ [b]).length = bits.length + 1 := by simp
  have hv' : Holds (shiftIn b s) vs := ⟨hv.len, hv.cells⟩
  by_cases hr : bits.length % 8 = 7
  · -- the byte is complete
    have he : (shiftIn b s).bitcnt = 8#4 := BitVec.eq_of_toNat_eq (by rw [hcnt, hr]; rfl)
    obtain ⟨t, ht, htv, htf⟩ := emit_ok hv' 0#32 (BitVec.ofNat 32 i) (shiftIn b s).acc
      (by rw [shiftIn_ocap, h.ocap]; omega)
    refine ⟨clearAcc t, by rw [packBit_eq, if_pos he, ht], ?_, ?_, ?_, ?_, ?_⟩
    · rw [htf, h.frame]; rfl
    · rw [clearAcc_nbits, htf]; exact hnb
    · rw [hlen]; simp; omega
    · intro j _; rw [hlen]; simp; omega
    · refine ⟨vs ++ [(shiftIn b s).acc], ⟨htv.len, htv.cells⟩, by simp; omega, ?_⟩
      intro k hk
      simp only [List.length_append, List.length_cons, List.length_nil] at hk
      by_cases hk' : k < 8 * vs.length
      · rw [getD_append_left _ _ _ (by omega), ← hvb k hk']
        simp [List.getD_eq_getElem?_getD, List.getElem?_append_left (show k / 8 < vs.length by omega)]
      · have hq : k / 8 = vs.length := by omega
        have hacc := shiftIn_acc_getLsbD h b (7 - k % 8) (by omega)
        rw [hq]
        simp only [List.getD_eq_getElem?_getD, List.getElem?_append_right (Nat.le_refl _),
          Nat.sub_self, List.getElem?_cons_zero, Option.getD_some]
        rw [hacc, decide_eq_true (by omega), Bool.true_and,
          show bits.length - (7 - k % 8) = k by omega, List.getD_eq_getElem?_getD]
  · have he : (shiftIn b s).bitcnt ≠ 8#4 := by
      intro hc; rw [hc] at hcnt; simp at hcnt; omega
    refine ⟨shiftIn b s, by rw [packBit_eq, if_neg he], ?_, hnb, ?_, ?_, ?_⟩
    · rw [h.frame]; rfl
    · rw [hcnt, hlen]; omega
    · intro j hj
      rw [shiftIn_acc_getLsbD h b j hj, hlen, show (bits.length + 1) % 8 = bits.length % 8 + 1 by omega,
        Nat.add_one_sub_one]
    · refine ⟨vs, hv', by omega, fun k hk => ?_⟩
      rw [hvb k hk, getD_append_left _ _ _ (by omega)]

/-- The bit that completes the byte that does not fit. -/
theorem packBit_full {s0 s : State} {bits : List Bool} (h : Packed s0 bits s) (i : Nat) (b : Bool)
    (hle : bits.length / 8 ≤ s0.ocap.toNat) (hfull : s0.ocap.toNat < (bits.length + 1) / 8) :
    packBit i b s = .error ⟨.bufferOverflow, 0#32, BitVec.ofNat 32 i⟩ := by
  obtain ⟨vs, hv, hvl, hvb⟩ := h.bytes
  have hbc := h.bitcnt
  have hcnt : (shiftIn b s).bitcnt.toNat = bits.length % 8 + 1 := by
    simp only [shiftIn_bitcnt, BitVec.toNat_add, hbc, BitVec.toNat_ofNat]; omega
  have he : (shiftIn b s).bitcnt = 8#4 := BitVec.eq_of_toNat_eq (by rw [hcnt]; simp; omega)
  have hv' : Holds (shiftIn b s) vs := ⟨hv.len, hv.cells⟩
  have := emit_full hv' 0#32 (BitVec.ofNat 32 i) (shiftIn b s).acc
    (by rw [shiftIn_ocap, h.ocap]; omega)
  rw [packBit_eq, if_pos he, this]

/-- The bits of one code packed, when OBUF has room. -/
theorem packBits_ok {s0 s : State} {bits : List Bool} (i : Nat) (more : List Bool)
    (h : Packed s0 bits s) (hroom : (bits.length + more.length) / 8 ≤ s0.ocap.toNat) :
    ∃ t, packBits i more s = .ok t ∧ Packed s0 (bits ++ more) t := by
  induction more generalizing bits s with
  | nil => exact ⟨s, rfl, by simpa using h⟩
  | cons b more ih =>
    simp only [List.length_cons] at hroom
    obtain ⟨t, ht, hp⟩ := packBit_ok h i b (by omega)
    obtain ⟨u, hu, hq⟩ := ih hp (by simp; omega)
    exact ⟨u, by simp [packBits, ht, hu], by simpa using hq⟩

/-- The code during which OBUF overflows. -/
theorem packBits_full {s0 s : State} {bits : List Bool} (i : Nat) (more : List Bool)
    (h : Packed s0 bits s) (hle : bits.length / 8 ≤ s0.ocap.toNat)
    (hfull : s0.ocap.toNat < (bits.length + more.length) / 8) :
    packBits i more s = .error ⟨.bufferOverflow, 0#32, BitVec.ofNat 32 i⟩ := by
  induction more generalizing bits s with
  | nil => simp at hfull; omega
  | cons b more ih =>
    simp only [List.length_cons] at hfull
    by_cases hb : (bits.length + 1) / 8 ≤ s0.ocap.toNat
    · obtain ⟨t, ht, hp⟩ := packBit_ok h i b hb
      simp only [packBits, ht]
      exact ih hp (by simpa using hb) (by simp; omega)
    · simp [packBits, packBit_full h i b hle (by omega)]

theorem codesOf_nil (s : State) : codesOf s [] = [] := rfl

theorem codesOf_append (s : State) (bs cs : List Byte) :
    codesOf s (bs ++ cs) = codesOf s bs ++ codesOf s cs := by simp [codesOf]

theorem codesOf_cons (s : State) (b : Byte) (bs : List Byte) :
    codesOf s (b :: bs) = codeBits (codeAt s b) ++ codesOf s bs := by simp [codesOf]

theorem hasCode_iff (s : State) (b : Byte) : hasCode s b = true ↔ (codeAt s b).clen ≠ 0#8 := by
  simp [hasCode]

/-- A run of input bytes that all have codes, when OBUF has room. -/
theorem encBytes_ok {s0 s : State} {bits : List Bool} (i : Nat) (bs : List Byte)
    (h : Packed s0 bits s) (hc : ∀ b ∈ bs, hasCode s0 b = true)
    (hroom : (bits.length + (codesOf s0 bs).length) / 8 ≤ s0.ocap.toNat) :
    ∃ t, encBytes i bs s = .ok t ∧ Packed s0 (bits ++ codesOf s0 bs) t := by
  induction bs generalizing bits s i with
  | nil => exact ⟨s, rfl, by simpa [codesOf] using h⟩
  | cons b bs ih =>
    rw [codesOf_cons, List.length_append] at hroom
    have hb := (hasCode_iff _ _).1 (hc b (by simp))
    obtain ⟨t, ht, hp⟩ := packBits_ok i (codeBits (codeAt s0 b)) h (by omega)
    obtain ⟨u, hu, hq⟩ := ih (i + 1) hp (fun c hm => hc c (by simp [hm])) (by simp; omega)
    refine ⟨u, ?_, by simpa [codesOf_cons] using hq⟩
    simp [encBytes, encByte, h.code, hb, ht, hu]

/-- The first byte without a code. -/
theorem encBytes_unknown {s0 s : State} {bits : List Bool} (i : Nat) (pre post : List Byte) (b : Byte)
    (h : Packed s0 bits s) (hc : ∀ c ∈ pre, hasCode s0 c = true) (hb : hasCode s0 b = false)
    (hroom : (bits.length + (codesOf s0 pre).length) / 8 ≤ s0.ocap.toNat) :
    encBytes i (pre ++ b :: post) s =
      .error ⟨.unknownSymbol, b.setWidth 32, BitVec.ofNat 32 (i + pre.length)⟩ := by
  induction pre generalizing bits s i with
  | nil =>
    have : (codeAt s0 b).clen = 0#8 := by simpa [hasCode] using hb
    simp [encBytes, encByte, h.code, this]
  | cons c pre ih =>
    rw [codesOf_cons, List.length_append] at hroom
    have hcc := (hasCode_iff _ _).1 (hc c (by simp))
    obtain ⟨t, ht, hp⟩ := packBits_ok i (codeBits (codeAt s0 c)) h (by omega)
    have := ih (i + 1) hp (fun c hm => hc c (by simp [hm])) (by simp; omega)
    simp only [List.cons_append, encBytes, encByte, h.code, hcc, if_false, ht, this,
      List.length_cons]
    rw [show i + 1 + pre.length = i + (pre.length + 1) by omega]

/-- The byte during which OBUF overflows. -/
theorem encBytes_full {s0 s : State} {bits : List Bool} (i : Nat) (pre post : List Byte) (b : Byte)
    (h : Packed s0 bits s) (hc : ∀ c ∈ pre, hasCode s0 c = true) (hb : hasCode s0 b = true)
    (hle : (bits.length + (codesOf s0 pre).length) / 8 ≤ s0.ocap.toNat)
    (hfull : s0.ocap.toNat < (bits.length + (codesOf s0 (pre ++ [b])).length) / 8) :
    encBytes i (pre ++ b :: post) s =
      .error ⟨.bufferOverflow, 0#32, BitVec.ofNat 32 (i + pre.length)⟩ := by
  induction pre generalizing bits s i with
  | nil =>
    have hbb := (hasCode_iff _ _).1 hb
    have := packBits_full i (codeBits (codeAt s0 b)) h (by simpa [codesOf] using hle)
      (by simpa [codesOf] using hfull)
    simp [encBytes, encByte, h.code, hbb, this]
  | cons c pre ih =>
    rw [codesOf_cons, List.length_append] at hle
    rw [List.cons_append, codesOf_cons, List.length_append] at hfull
    have hcc := (hasCode_iff _ _).1 (hc c (by simp))
    obtain ⟨t, ht, hp⟩ := packBits_ok i (codeBits (codeAt s0 c)) h (by omega)
    have := ih (i + 1) hp (fun c hm => hc c (by simp [hm])) (by simp; omega) (by simp; omega)
    simp only [List.cons_append, encBytes, encByte, h.code, hcc, if_false, ht, this,
      List.length_cons]
    rw [show i + 1 + pre.length = i + (pre.length + 1) by omega]

/-- s is s0 after ENC packed and padded the bits: the output bytes, NBITS, the registers at rest. -/
structure Flushed (s0 : State) (bits : List Bool) (s : State) : Prop where
  frame : s = { s0 with
    obuf := s.obuf, outLen := s.outLen, acc := 0#8, bitcnt := 0#4, nbits := s.nbits }
  nbits : s.nbits = BitVec.ofNat 32 bits.length
  bytes : ∃ vs : List Byte, Holds s vs ∧ vs.length = (bits.length + 7) / 8 ∧
    ∀ k, k < 8 * vs.length → (vs.getD (k / 8) 0#8).getLsbD (7 - k % 8) = bits.getD k false

/-- The final byte, when OBUF has room. -/
theorem flush_ok {s0 s : State} {bits : List Bool} (h : Packed s0 bits s)
    (hroom : (bits.length + 7) / 8 ≤ s0.ocap.toNat) : ∃ t, flush s = .ok t ∧ Flushed s0 bits t := by
  obtain ⟨vs, hv, hvl, hvb⟩ := h.bytes
  have hbc := h.bitcnt
  by_cases hr : bits.length % 8 = 0
  · have he : s.bitcnt = 0#4 := BitVec.eq_of_toNat_eq (by rw [hbc, hr]; rfl)
    refine ⟨s, by simp [flush, he], ?_, h.nbits, vs, hv, by omega, hvb⟩
    have hacc : s.acc = 0#8 := by
      apply BitVec.eq_of_getLsbD_eq
      intro j hj
      rw [h.acc j hj, hr]; simp
    conv_lhs => rw [h.frame, he, hacc]
  · have he : s.bitcnt ≠ 0#4 := by
      intro hc; rw [hc] at hbc; simp at hbc; omega
    obtain ⟨t, ht, htv, htf⟩ := emit_ok hv 0#32 s.inLen (s.acc <<< (8 - s.bitcnt.toNat))
      (by rw [h.ocap]; omega)
    refine ⟨clearAcc t, by simp [flush, he, ht], ?_, ?_, ?_⟩
    · rw [htf, h.frame]; rfl
    · rw [clearAcc_nbits, htf]; exact h.nbits
    · refine ⟨_, ⟨htv.len, htv.cells⟩, by simp; omega, ?_⟩
      intro k hk
      simp only [List.length_append, List.length_cons, List.length_nil] at hk
      by_cases hk' : k < 8 * vs.length
      · rw [← hvb k hk']
        simp [List.getD_eq_getElem?_getD, List.getElem?_append_left (show k / 8 < vs.length by omega)]
      · have hq : k / 8 = vs.length := by omega
        rw [hq]
        simp only [List.getD_eq_getElem?_getD, List.getElem?_append_right (Nat.le_refl _),
          Nat.sub_self, List.getElem?_cons_zero, Option.getD_some]
        rw [BitVec.getLsbD_shiftLeft, hbc]
        by_cases hin : k < bits.length
        · rw [h.acc _ (by omega), decide_eq_true (show 7 - k % 8 < 8 by omega),
            decide_eq_false (show ¬ 7 - k % 8 < 8 - bits.length % 8 by omega),
            decide_eq_true (show 7 - k % 8 - (8 - bits.length % 8) < bits.length % 8 by omega),
            show bits.length - 1 - (7 - k % 8 - (8 - bits.length % 8)) = k by omega,
            List.getD_eq_getElem?_getD]
          simp
        · rw [List.getElem?_eq_none (by omega), decide_eq_true (show 7 - k % 8 < 8 - bits.length % 8 by omega)]
          simp

/-- The final byte that does not fit. -/
theorem flush_full {s0 s : State} {bits : List Bool} (h : Packed s0 bits s)
    (hr : bits.length % 8 ≠ 0) (hfull : bits.length / 8 = s0.ocap.toNat) :
    flush s = .error ⟨.bufferOverflow, 0#32, s0.inLen⟩ := by
  obtain ⟨vs, hv, hvl, hvb⟩ := h.bytes
  have hbc := h.bitcnt
  have he : s.bitcnt ≠ 0#4 := by
    intro hc; rw [hc] at hbc; simp at hbc; omega
  have := emit_full hv 0#32 s.inLen (s.acc <<< (8 - s.bitcnt.toNat)) (by rw [h.ocap]; omega)
  have hi : s.inLen = s0.inLen := by rw [h.frame]
  rw [hi] at this
  simp [flush, he, hi, this]

/-- ENC's body when every byte is packed. -/
theorem encBody_flush {s t : State} (h : s.inLen ≤ s.icap)
    (hb : encBytes 0 (inputBytes s) (encStart s) = .ok t) : encBody s = flush t := by
  simp [encBody, checkInLen_ok h, hb]

/-- ENC's body when a byte faults. -/
theorem encBody_error {s : State} {f : Trap} (h : s.inLen ≤ s.icap)
    (hb : encBytes 0 (inputBytes s) (encStart s) = .error f) : encBody s = .error f := by
  simp [encBody, checkInLen_ok h, hb]

/-! ### What a success says -/

theorem packBits_packed {s0 s t : State} {bits : List Bool} (i : Nat) (more : List Bool)
    (h : Packed s0 bits s) (hle : bits.length / 8 ≤ s0.ocap.toNat) (ht : packBits i more s = .ok t) :
    Packed s0 (bits ++ more) t ∧ (bits ++ more).length / 8 ≤ s0.ocap.toNat := by
  by_cases hroom : (bits.length + more.length) / 8 ≤ s0.ocap.toNat
  · obtain ⟨u, hu, hp⟩ := packBits_ok i more h hroom
    rw [hu] at ht
    cases ht
    exact ⟨hp, by rw [List.length_append]; exact hroom⟩
  · rw [packBits_full i more h hle (by omega)] at ht
    cases ht

theorem encBytes_packed {s0 s t : State} {bits : List Bool} (i : Nat) (bs : List Byte)
    (h : Packed s0 bits s) (hle : bits.length / 8 ≤ s0.ocap.toNat) (ht : encBytes i bs s = .ok t) :
    (∀ b ∈ bs, hasCode s0 b = true) ∧ Packed s0 (bits ++ codesOf s0 bs) t ∧
      (bits ++ codesOf s0 bs).length / 8 ≤ s0.ocap.toNat := by
  induction bs generalizing bits s i with
  | nil =>
    cases ht
    exact ⟨by simp, by simpa [codesOf] using h, by simpa [codesOf] using hle⟩
  | cons b bs ih =>
    by_cases hb : (codeAt s0 b).clen = 0#8
    · simp [encBytes, encByte, h.code, hb] at ht
    · simp only [encBytes, encByte, h.code, if_neg hb] at ht
      cases hp : packBits i (codeBits (codeAt s0 b)) s with
      | error f => rw [hp] at ht; cases ht
      | ok u =>
        rw [hp] at ht
        obtain ⟨h1, h2⟩ := packBits_packed i _ h hle hp
        obtain ⟨g1, g2, g3⟩ := ih (i + 1) h1 h2 ht
        refine ⟨?_, by simpa [codesOf_cons] using g2, by simpa [codesOf_cons] using g3⟩
        intro c hc
        rcases List.mem_cons.1 hc with rfl | hc
        · exact (hasCode_iff _ _).2 hb
        · exact g1 c hc

/-- A successful ENC packed the codes of all its input bytes (R120, R121, R122). -/
theorem encBody_flushed {s t : State} (ht : encBody s = .ok t) :
    (∀ b ∈ inputBytes s, hasCode s b = true) ∧
      Flushed (encStart s) (codesOf s (inputBytes s)) t ∧
      ((codesOf s (inputBytes s)).length + 7) / 8 ≤ s.ocap.toNat := by
  rcases checkInLen_cases s with ⟨hle, _⟩ | ⟨_, e⟩
  · cases hb : encBytes 0 (inputBytes s) (encStart s) with
    | error f => rw [encBody_error hle hb] at ht; cases ht
    | ok u =>
      rw [encBody_flush hle hb] at ht
      obtain ⟨h1, h2, h3⟩ := encBytes_packed 0 _ (packed_encStart s) (Nat.zero_le _) hb
      rw [List.nil_append] at h2 h3
      have h3' : (codesOf s (inputBytes s)).length / 8 ≤ s.ocap.toNat := h3
      have e0 : codesOf (encStart s) (inputBytes s) = codesOf s (inputBytes s) := rfl
      rw [e0] at h2
      by_cases hroom : ((codesOf s (inputBytes s)).length + 7) / 8 ≤ s.ocap.toNat
      · obtain ⟨v, hv, hF⟩ := flush_ok h2 hroom
        rw [hv] at ht
        cases ht
        exact ⟨h1, hF, hroom⟩
      · rw [flush_full h2 (by omega) (by show _ = s.ocap.toNat; omega)] at ht
        cases ht
  · simp [encBody, e] at ht

end Sys2Proof.Machine
end

