-- ==== Sys2Proof/Laws/Faults.lean ====
section
/-! SUPPORT. Which faults the bodies of the commands can raise, with their sub-causes and positions
(R186), and what a successful body leaves as it was (R28). -/

namespace Sys2Proof.Machine

/-! ### ENC -/

/-- The faults of ENC's loop from index i over n more bytes. -/
def EncFault (i n : Nat) (f : Trap) : Prop :=
  f.cause = .unknownSymbol ∧ f.info.toNat < 256 ∧
      (∃ j, i ≤ j ∧ j < i + n ∧ f.pos = BitVec.ofNat 32 j) ∨
    f.cause = .bufferOverflow ∧ f.info = 0#32 ∧ ∃ j, i ≤ j ∧ j < i + n ∧ f.pos = BitVec.ofNat 32 j

theorem packBits_error (i : Nat) (bits : List Bool) (s : State) (f : Trap)
    (h : packBits i bits s = .error f) : f = ⟨.bufferOverflow, 0#32, BitVec.ofNat 32 i⟩ := by
  induction bits generalizing s with
  | nil => cases h
  | cons b bits ih =>
    simp only [packBits] at h
    cases hb : packBit i b s with
    | ok t => rw [hb] at h; exact ih t h
    | error g =>
      rw [hb] at h
      cases h
      rw [packBit_eq] at hb
      split_ifs at hb
      rcases emit_cases 0#32 (BitVec.ofNat 32 i) (shiftIn b s).acc (shiftIn b s) with
        ⟨_, e⟩ | ⟨_, e⟩
      · rw [e] at hb; cases hb; rfl
      · rw [e] at hb; cases hb

theorem encBytes_error (i : Nat) (bs : List Byte) (s : State) (f : Trap)
    (h : encBytes i bs s = .error f) : EncFault i bs.length f := by
  induction bs generalizing i s with
  | nil => cases h
  | cons b bs ih =>
    simp only [encBytes] at h
    cases hb : encByte i b s with
    | ok t =>
      rw [hb] at h
      rcases ih (i + 1) t h with ⟨h1, h2, j, h3, h4, h5⟩ | ⟨h1, h2, j, h3, h4, h5⟩
      · exact .inl ⟨h1, h2, j, by omega, by simp only [List.length_cons]; omega, h5⟩
      · exact .inr ⟨h1, h2, j, by omega, by simp only [List.length_cons]; omega, h5⟩
    | error g =>
      rw [hb] at h
      cases h
      simp only [encByte] at hb
      split_ifs at hb
      · cases hb
        refine .inl ⟨rfl, ?_, i, Nat.le_refl _, by simp, rfl⟩
        have := b.isLt
        simp; omega
      · rw [packBits_error i _ s f hb]
        exact .inr ⟨rfl, rfl, i, Nat.le_refl _, by simp, rfl⟩

theorem flush_error (s : State) (f : Trap) (h : flush s = .error f) :
    f = ⟨.bufferOverflow, 0#32, s.inLen⟩ := by
  unfold flush at h
  split_ifs at h
  rcases emit_cases 0#32 s.inLen (s.acc <<< (8 - s.bitcnt.toNat)) s with ⟨_, e⟩ | ⟨_, e⟩
  · rw [e] at h; cases h; rfl
  · rw [e] at h; cases h

/-- t differs from s in what ENC's loop writes only. -/
def EncFrame (s t : State) : Prop :=
  t = { s with
    obuf := t.obuf, outLen := t.outLen, acc := t.acc, bitcnt := t.bitcnt, nbits := t.nbits }

theorem EncFrame.trans {s t u : State} (h1 : EncFrame s t) (h2 : EncFrame t u) : EncFrame s u := by
  unfold EncFrame at *
  rw [h2]
  conv_lhs => rw [h1]

theorem packBits_frame (i : Nat) (bits : List Bool) (s t : State) (h : packBits i bits s = .ok t) :
    EncFrame s t := by
  induction bits generalizing s with
  | nil => cases h; rfl
  | cons b bits ih =>
    simp only [packBits] at h
    cases hb : packBit i b s with
    | error g => rw [hb] at h; cases h
    | ok u =>
      rw [hb] at h
      refine EncFrame.trans ?_ (ih u h)
      rw [packBit_eq] at hb
      split_ifs at hb
      · rcases emit_cases 0#32 (BitVec.ofNat 32 i) (shiftIn b s).acc (shiftIn b s) with
          ⟨_, e⟩ | ⟨_, e⟩
        · rw [e] at hb; cases hb
        · rw [e] at hb; cases hb; rfl
      · cases hb; rfl

theorem encBytes_frame (i : Nat) (bs : List Byte) (s t : State) (h : encBytes i bs s = .ok t) :
    EncFrame s t := by
  induction bs generalizing i s with
  | nil => cases h; rfl
  | cons b bs ih =>
    simp only [encBytes] at h
    cases hb : encByte i b s with
    | error g => rw [hb] at h; cases h
    | ok u =>
      rw [hb] at h
      refine EncFrame.trans ?_ (ih (i + 1) u h)
      simp only [encByte] at hb
      split_ifs at hb
      exact packBits_frame i _ s u hb

theorem flush_frame (s t : State) (h : flush s = .ok t) : EncFrame s t := by
  unfold flush at h
  split_ifs at h
  · cases h; rfl
  · rcases emit_cases 0#32 s.inLen (s.acc <<< (8 - s.bitcnt.toNat)) s with ⟨_, e⟩ | ⟨_, e⟩
    · rw [e] at h; cases h
    · rw [e] at h; cases h; rfl

/-- Everything ENC's body can answer. -/
theorem encBody_cases (s : State) :
    (∃ t, encBody s = .ok t ∧ EncFrame s t) ∨
    ∃ f, encBody s = .error f ∧ (EncFault 0 s.inLen.toNat f ∨
      f = ⟨.bufferOverflow, 0#32, s.inLen⟩ ∨ f = ⟨.bufferOverflow, 3#32, s.inLen⟩) := by
  rcases checkInLen_cases s with ⟨hle, _⟩ | ⟨_, e⟩
  · have hl : (inputBytes s).length = s.inLen.toNat := by simp [inputBytes]
    cases hb : encBytes 0 (inputBytes s) (encStart s) with
    | error f =>
      have := encBytes_error _ _ _ _ hb
      rw [hl] at this
      exact .inr ⟨f, encBody_error hle hb, .inl this⟩
    | ok t =>
      have h0 : EncFrame s (encStart s) := rfl
      have h1 := encBytes_frame _ _ _ _ hb
      have hi : t.inLen = s.inLen := by rw [h0.trans h1]
      cases hf : flush t with
      | error f =>
        have := flush_error t f hf
        rw [hi] at this
        exact .inr ⟨f, (encBody_flush hle hb).trans hf, .inr (.inl this)⟩
      | ok u =>
        exact .inl ⟨u, (encBody_flush hle hb).trans hf, (h0.trans h1).trans (flush_frame t u hf)⟩
  · exact .inr ⟨_, by simp [encBody, e], .inr (.inr rfl)⟩

/-- With a code for every byte, ENC raises no UnknownSymbol (R157). -/
theorem encBytes_known (i : Nat) (bs : List Byte) (s : State) (f : Trap)
    (hc : ∀ b ∈ bs, hasCode s b = true) (h : encBytes i bs s = .error f) :
    f.cause = .bufferOverflow := by
  induction bs generalizing i s with
  | nil => cases h
  | cons b bs ih =>
    simp only [encBytes] at h
    have hb0 : (codeAt s b).clen ≠ 0#8 := (hasCode_iff _ _).1 (hc b (by simp))
    cases hb : encByte i b s with
    | ok t =>
      rw [hb] at h
      simp only [encByte, if_neg hb0] at hb
      have hfr := packBits_frame i _ s t hb
      refine ih (i + 1) t (fun c hm => ?_) h
      have := hc c (by simp [hm])
      rw [hasCode, codeAt] at this ⊢
      rw [hfr]
      exact this
    | error g =>
      rw [hb] at h
      cases h
      simp only [encByte, if_neg hb0] at hb
      rw [packBits_error i _ s f hb]

/-! ### DEC and DECX -/

/-- The faults of a walk at bit k of the input. -/
def StepFault (k : Nat) (f : Trap) : Prop :=
  (f.cause = .corruptTree ∧ f.info.toNat < 512 ∨ f.cause = .corruptStream ∧ f.info = 1#32 ∨
    f.cause = .bufferOverflow ∧ f.info = 1#32) ∧ f.pos = BitVec.ofNat 32 k

theorem corruptTree_fault (i : Idx) (k : Nat) : StepFault k (corruptTree i k) := by
  refine ⟨.inl ⟨rfl, ?_⟩, rfl⟩
  have := i.isLt
  simp [corruptTree]; omega

/-- t differs from s in what the walk writes only. -/
def WalkFrame (s t : State) : Prop := t = { s with obuf := t.obuf, outLen := t.outLen, cur := t.cur }

theorem WalkFrame.trans {s t u : State} (h1 : WalkFrame s t) (h2 : WalkFrame t u) :
    WalkFrame s u := by
  unfold WalkFrame at *
  rw [h2]
  conv_lhs => rw [h1]

/-- Everything one move of the cursor can answer. -/
theorem walkStep_cases (k : Nat) (b : Bool) (s : State) :
    (∃ t, walkStep k b s = .ok t ∧ WalkFrame s t) ∨
      ∃ f, walkStep k b s = .error f ∧ StepFault k f := by
  have hem : ∀ v, (∃ t, emit 1#32 (BitVec.ofNat 32 k) v s = .ok t ∧ WalkFrame s t) ∨
      emit 1#32 (BitVec.ofNat 32 k) v s = .error ⟨.bufferOverflow, 1#32, BitVec.ofNat 32 k⟩ := by
    intro v
    rcases emit_cases 1#32 (BitVec.ofNat 32 k) v s with ⟨_, e⟩ | ⟨_, e⟩
    · exact .inr e
    · exact .inl ⟨_, e, rfl⟩
  have ovf : StepFault k ⟨.bufferOverflow, 1#32, BitVec.ofNat 32 k⟩ := ⟨.inr (.inr ⟨rfl, rfl⟩), rfl⟩
  unfold walkStep
  split
  · split_ifs
    · exact .inr ⟨_, rfl, corruptTree_fault _ _⟩
    · unfold arrive
      split
      · rcases hem (nodeAt s (childOf (nodeAt s s.cur) b)).sym with ⟨t, e, hf⟩ | e
        · exact .inl ⟨{ t with cur := t.root }, by simp [emitSym, e], hf.trans rfl⟩
        · exact .inr ⟨_, by simp [emitSym, e], ovf⟩
      · exact .inl ⟨_, rfl, rfl⟩
      · exact .inr ⟨_, rfl, corruptTree_fault _ _⟩
      · exact .inr ⟨_, rfl, corruptTree_fault _ _⟩
  · split_ifs
    · exact .inr ⟨_, rfl, .inr (.inl ⟨rfl, rfl⟩), rfl⟩
    · rcases hem (nodeAt s s.cur).sym with ⟨t, e, hf⟩ | e
      · exact .inl ⟨t, by simp [e], hf⟩
      · exact .inr ⟨_, by simp [e], ovf⟩
  · exact .inr ⟨_, rfl, corruptTree_fault _ _⟩
  · exact .inr ⟨_, rfl, corruptTree_fault _ _⟩

theorem walkBits_cases (k : Nat) (bits : List Bool) (s : State) :
    (∃ t, walkBits k bits s = .ok t ∧ WalkFrame s t) ∨
      ∃ f j, walkBits k bits s = .error f ∧ k ≤ j ∧ j < k + bits.length ∧ StepFault j f := by
  induction bits generalizing k s with
  | nil => exact .inl ⟨s, rfl, rfl⟩
  | cons b bits ih =>
    rcases walkStep_cases k b s with ⟨t, e, hf⟩ | ⟨f, e, hf⟩
    · rcases ih (k + 1) t with ⟨u, e', hf'⟩ | ⟨f, j, e', h1, h2, h3⟩
      · exact .inl ⟨u, by simp [walkBits, e, e'], hf.trans hf'⟩
      · exact .inr ⟨f, j, by simp [walkBits, e, e'], by omega, by simp only [List.length_cons]; omega, h3⟩
    · exact .inr ⟨f, k, by simp [walkBits, e], Nat.le_refl _, by simp, hf⟩

theorem walk_cases (nb : Nat) (s : State) :
    (∃ t, walk nb s = .ok t ∧ WalkFrame s t) ∨
      ∃ f j, walk nb s = .error f ∧ j < nb ∧ StepFault j f := by
  unfold walk
  split_ifs with h0 h1
  · exact .inl ⟨s, rfl, rfl⟩
  · exact .inr ⟨_, 0, rfl, by omega, corruptTree_fault _ _⟩
  · rcases walkBits_cases 0 (inputBits s nb) { s with cur := s.root } with ⟨t, e, hf⟩ | ⟨f, j, e, _, h2, h3⟩
    · exact .inl ⟨t, e, WalkFrame.trans (t := { s with cur := s.root }) rfl hf⟩
    · rw [length_inputBits] at h2
      exact .inr ⟨f, j, e, by omega, h3⟩

/-- Everything DEC's body can answer. -/
theorem decBody_cases (s : State) :
    (∃ t, decBody s = .ok t ∧ t = { s with obuf := t.obuf, outLen := t.outLen, cur := Config.nil }) ∨
    ∃ f, decBody s = .error f ∧ (f = ⟨.bufferOverflow, 3#32, s.inLen⟩ ∨
      f = corruptStream 3#32 (BitVec.ofNat 32 (8 * s.inLen.toNat)) ∨
      (∃ j, j < s.nbits.toNat ∧ StepFault j f) ∨ f = corruptStream 2#32 s.nbits) := by
  rcases checkInLen_cases s with ⟨hle, e⟩ | ⟨_, e⟩
  · by_cases hn : 8 * s.inLen.toNat < s.nbits.toNat
    · exact .inr ⟨_, by simp [decBody, e, inputBitCount, hn], .inr (.inl rfl)⟩
    · rcases walk_cases s.nbits.toNat (clearOutput s) with ⟨t, ht, hf⟩ | ⟨f, j, hw, h1, h2⟩
      · have hfr : WalkFrame s t := WalkFrame.trans (t := clearOutput s) rfl hf
        have hn' : t.nbits = s.nbits := by rw [hfr]
        rw [decBody_walked hle (Nat.not_lt.1 hn) ht, checkAtRoot]
        split_ifs
        · exact .inr ⟨_, rfl, .inr (.inr (.inr (by rw [hn'])))⟩
        · refine .inl ⟨_, rfl, ?_⟩
          rw [hfr]; rfl
      · exact .inr ⟨f, decBody_error hle (Nat.not_lt.1 hn) hw, .inr (.inr (.inl ⟨j, h1, h2⟩))⟩
  · exact .inr ⟨_, by simp [decBody, e], .inl rfl⟩

/-- Everything DECX's body can answer. -/
theorem decxBody_cases (s : State) :
    (∃ t, decxBody s = .ok t ∧
      t = { s with obuf := t.obuf, outLen := t.outLen, cur := Config.nil }) ∨
    ∃ f, decxBody s = .error f ∧ (f = ⟨.bufferOverflow, 3#32, s.inLen⟩ ∨
      ∃ j, j < 8 * s.inLen.toNat ∧ StepFault j f) := by
  rcases checkInLen_cases s with ⟨hle, e⟩ | ⟨_, e⟩
  · rcases walk_cases (8 * s.inLen.toNat) (clearOutput s) with ⟨t, ht, hf⟩ | ⟨f, j, hw, h1, h2⟩
    · have hfr : WalkFrame s t := WalkFrame.trans (t := clearOutput s) rfl hf
      refine .inl ⟨_, decxBody_walked hle ht, ?_⟩
      rw [hfr]; rfl
    · exact .inr ⟨f, decxBody_error hle hw, .inr ⟨j, h1, h2⟩⟩
  · exact .inr ⟨_, by simp [decxBody, e], .inl rfl⟩

/-- Everything OTI's body can answer. -/
theorem otiBody_cases (s : State) :
    s.outLen ≤ s.icap ∧
      otiBody s = .ok { setIbufBytes s 0 (outputBytes s) with inLen := s.outLen } ∨
    s.icap < s.outLen ∧ otiBody s = .error ⟨.bufferOverflow, 2#32, s.outLen⟩ := by
  by_cases h : s.icap < s.outLen
  · exact .inr ⟨h, by simp [otiBody, h]⟩
  · exact .inl ⟨BitVec.not_lt.1 h, by simp [otiBody, h]⟩

end Sys2Proof.Machine
end

