-- ==== Sys2Proof/Laws/PerInstr.lean ====
section
/-! SUPPORT. What holds of every command as syntax, one lemma per command (spec/30_encoding.md R60 to
R62). -/

namespace Sys2Proof.Laws.WordFormat

/-- The word of a command is of format `C`, its OPCODE is an assigned one, and the opcode map has
exactly one row for it, which has this word. -/
def Statement (i : Instr) : Prop :=
  i.wf = true ∧ wordWf (encode i) = true ∧
    opcodeAssigned ((encode i).extractLsb' 0 8) = true ∧
    opcodeMap.filter (fun r => r.instr = i) = [⟨i, 0xFFFFFFFF#32, encode i⟩]

theorem nop : Statement .nop := by unfold Statement; decide

theorem rst : Statement .rst := by unfold Statement; decide

theorem clre : Statement .clre := by unfold Statement; decide

theorem oti : Statement .oti := by unfold Statement; decide

theorem cnt : Statement .cnt := by unfold Statement; decide

theorem bld : Statement .bld := by unfold Statement; decide

theorem enc : Statement .enc := by unfold Statement; decide

theorem dec : Statement .dec := by unfold Statement; decide

theorem decx : Statement .decx := by unfold Statement; decide

end Sys2Proof.Laws.WordFormat
end

