-- ==== Sys2Proof/Tests/Slice0.lean ====
section
/-! SUPPORT. The model's own tests. Every expected value is from spec/95_test_vectors.md (the vector is
named) or from the rule named; then, for each obligation with hypotheses, a witness that meets them. -/

namespace Sys2Proof.Tests

open Machine

/-! ### Small states -/

/-- The state after a command. -/
def after (i : Instr) (s : State) : State :=
  match exec i s with
  | .next t => t
  | .fault _ => s
  | .refused _ => s

/-- The state after the next step. -/
def stepped (s : State) : State :=
  match step s with
  | .next t => t
  | .fault _ => s
  | .refused _ => s

/-- IBUF holds these bytes, IN_LEN is their number. -/
def holding (bs : List Byte) (s : State) : State :=
  { setIbufBytes s 0 bs with inLen := BitVec.ofNat 32 bs.length }

/-- FREQ holds these entries. -/
def counted (f : List (Nat × Nat)) (s : State) : State :=
  { s with freq := f.map (fun e => (e.1, BitVec.ofNat 32 e.2)) }

/-- CODE holds these codes. -/
def coded (c : List (Nat × List Bool)) (s : State) : State :=
  { s with code := c.map (fun e => (e.1, codeOfPath e.2)) }

/-- The tree of V20, record by record. -/
def tree20 (s : State) : State :=
  { s with
    root := 4#9
    node := [(0, NodeRec.mk .leaf 0x61#8 3#40 0x1FF#9 0x1FF#9 4#9),
      (1, NodeRec.mk .leaf 0x62#8 2#40 0x1FF#9 0x1FF#9 3#9),
      (2, NodeRec.mk .leaf 0x63#8 1#40 0x1FF#9 0x1FF#9 3#9),
      (3, NodeRec.mk .internal 0#8 3#40 2#9 1#9 4#9),
      (4, NodeRec.mk .internal 0#8 6#40 0#9 3#9 0x1FF#9)] }

/-- The code table of V20. -/
def codes20 (s : State) : State :=
  coded [(0x61, [false]), (0x62, [true, true]), (0x63, [true, false])] s

/-- A tree whose root is the leaf 'A' (V29c). -/
def treeA (s : State) : State :=
  { s with root := 0#9, node := [(0, NodeRec.mk .leaf 0x41#8 4#40 0x1FF#9 0x1FF#9 0x1FF#9)] }

/-- The graph of V49c and V49d: record 0 is INTERNAL and its own left child. -/
def graph49c (s : State) : State :=
  { s with
    root := 0#9
    node := [(0, NodeRec.mk .internal 0#8 0#40 0#9 1#9 0x1FF#9),
      (1, NodeRec.mk .leaf 0x5A#8 0#40 0x1FF#9 0x1FF#9 0x1FF#9)] }

/-- "aaabbc". -/
def text : List Byte := [0x61#8, 0x61#8, 0x61#8, 0x62#8, 0x62#8, 0x63#8]

/-- "ABAB". -/
def abab : List Byte := [0x41#8, 0x42#8, 0x41#8, 0x42#8]

/-- The table of V20 in FREQ. -/
def table20 : State := counted [(0x61, 3), (0x62, 2), (0x63, 1)] State.reset

/-- The stream 1F 00 of V33 in IBUF, NBITS as given, the tree of V20. -/
def stream20 (nb : Nat) : State :=
  tree20 { holding [0x1F#8, 0x00#8] State.reset with nbits := BitVec.ofNat 32 nb }

/-- The host's next actions. -/
def told (acts : List HostAction) (s : State) : State := { s with script := acts }

/-! ### Decoding (R60, R61): words written bit by bit, bits [31:8] then OPCODE -/

theorem test_decode_nop :
    decode (0b000000000000000000000000#24 ++ 0b00000000#8) = .ok .nop := by decide

theorem test_decode_rst :
    decode (0b000000000000000000000000#24 ++ 0b00000001#8) = .ok .rst := by decide

theorem test_decode_clre :
    decode (0b000000000000000000000000#24 ++ 0b00000010#8) = .ok .clre := by decide

theorem test_decode_oti :
    decode (0b000000000000000000000000#24 ++ 0b00000011#8) = .ok .oti := by decide

theorem test_decode_cnt :
    decode (0b000000000000000000000000#24 ++ 0b00010000#8) = .ok .cnt := by decide

theorem test_decode_bld :
    decode (0b000000000000000000000000#24 ++ 0b00100000#8) = .ok .bld := by decide

theorem test_decode_enc :
    decode (0b000000000000000000000000#24 ++ 0b00110000#8) = .ok .enc := by decide

theorem test_decode_dec :
    decode (0b000000000000000000000000#24 ++ 0b01000000#8) = .ok .dec := by decide

theorem test_decode_decx :
    decode (0b000000000000000000000000#24 ++ 0b01000001#8) = .ok .decx := by decide

/-- No word matches two rows of the opcode map: every mask is whole, the words differ (R61). -/
theorem test_opcode_rows_disjoint :
    opcodeMap.Pairwise (fun a b => a.mask = 0xFFFFFFFF#32 ∧ b.mask = 0xFFFFFFFF#32 ∧
      a.word ≠ b.word) := by decide

/-- A table row's word (spec/opcode_table.json, 32 bits); a longer word is no command. -/
theorem test_decode_table_words :
    decodeTableWord 32 0x00000020 = some .bld ∧ decodeTableWord 32 0x00000110 = none ∧
      decodeTableWord 40 0x0100000020 = none := by decide

/-! ### Well-formedness: what each check refuses -/

/-- V60: bits [31:8] not 0 (R60): CNT's opcode in the low byte does not help. -/
theorem test_illformed_format :
    wordWf 0x00000110#32 = false ∧
      decode 0x00000110#32 = .error (.illegalCommand 0x00000110#32) := by decide

/-- V64: an unassigned OPCODE (R64). -/
theorem test_illformed_opcode :
    opcodeAssigned 0x04#8 = false ∧ opcodeAssigned 0x42#8 = false ∧ opcodeAssigned 0xFF#8 = false ∧
      decode 0x00000004#32 = .error (.illegalCommand 0x00000004#32) := by decide

/-- R62: no command has an operand, so none is ill-formed. -/
theorem test_every_command_wellformed :
    [Instr.nop, .rst, .clre, .oti, .cnt, .bld, .enc, .dec, .decx].all Instr.wf = true := by decide

/-- R4: a capacity of 0, one that is no multiple of 4, one above 2^20. -/
theorem test_illformed_capacity :
    capWf 0#32 = false ∧ capWf 6#32 = false ∧ capWf 0x100004#32 = false ∧
      capWf 4#32 = true ∧ capWf 0x100000#32 = true := by decide

/-- R44, V90: a 16-bit access, a misaligned one, one outside the window. -/
theorem test_illformed_access :
    admitted 0x14 2 = false ∧ admitted 0x15 4 = false ∧ admitted 0x400000 4 = false ∧
      admitted 0x3FFFFC 4 = true := by decide

/-- Table.wf: indexes out of order, an index out of range, a listed default. -/
theorem test_illformed_table :
    Table.wf 256 0#32 [(2, 1#32), (1, 1#32)] = false ∧ Table.wf 256 0#32 [(256, 1#32)] = false ∧
      Table.wf 256 0#32 [(1, 0#32)] = false ∧ Memory.wf [(1, 0#8), (1, 0#8)] = false := by decide

/-! ### One command each -/

/-- V50. -/
theorem test_nop_sets_done :
    statusWord (after .nop State.reset) = 0x02#32 := by decide

/-- V62, R193: a refused word changes nothing. -/
theorem test_nop_refused_while_err :
    after .nop { State.reset with err := true } = { State.reset with err := true } := by decide

/-- V51, V56: RST in the fault state, over a tree and input. -/
theorem test_rst :
    let t := after .rst { tree20 (holding text State.reset) with err := true, errcode := 2#4 }
    statusWord t = 0x00#32 ∧ t.errcode = 0#4 ∧ t.root = 0x1FF#9 ∧ t.node = [] ∧ t.inLen = 0#32 ∧
      ibufByte t 3 = 0x62#8 := by decide

/-- V52. -/
theorem test_clre_in_fault_state :
    let t := after .clre
      { State.reset with err := true, errcode := 2#4, errinfo := 0x43#32, errpos := 2#32 }
    statusWord t = 0x02#32 ∧ t.errcode = 0#4 ∧ t.errinfo = 0#32 ∧ t.errpos = 0#32 := by decide

/-- V53. -/
theorem test_clre_keeps_single :
    statusWord (after .clre { State.reset with single := true }) = 0x12#32 := by decide

/-- V54: the old input's bytes stay above the copied ones. -/
theorem test_oti_copies :
    let t := after .oti { holding text State.reset with
      obuf := [(0, 0x1F#8), (1, 0x00#8)], outLen := 2#32, nbits := 9#32 }
    (List.range 6).map (ibufByte t) = [0x1F#8, 0x00#8, 0x61#8, 0x62#8, 0x62#8, 0x63#8] ∧
      t.inLen = 2#32 ∧ t.nbits = 9#32 ∧ t.outLen = 2#32 := by decide

/-- V79: OUT_LEN = 8 against IBUF_CAP = 4. -/
theorem test_oti_overflow :
    let t := after .oti { State.reset with icap := 4#32, outLen := 8#32 }
    statusWord t = 0x04#32 ∧ t.errcode = 5#4 ∧ t.errinfo = 2#32 ∧ t.errpos = 8#32 ∧
      t.outLen = 8#32 := by decide

/-- V4 over V2: the counts of an earlier input are gone. -/
theorem test_cnt_counts :
    (after .cnt (counted [(0x7A, 5)] (holding text State.reset))).freq =
      [(0x61, 3#32), (0x62, 2#32), (0x63, 1#32)] := by decide

/-- V6. -/
theorem test_cnt_overflow :
    let t := after .cnt { State.reset with icap := 8#32, inLen := 9#32 }
    statusWord t = 0x04#32 ∧ t.errcode = 5#4 ∧ t.errinfo = 3#32 ∧ t.errpos = 9#32 := by decide

/-- V20, records and registers (R113). -/
theorem test_bld_tree :
    let t := after .bld table20
    t.node = (tree20 State.reset).node ∧ t.code = (codes20 State.reset).code ∧ t.root = 4#9 ∧
      t.nnodes = 5#10 ∧ t.nsym = 3#9 ∧ t.heap = [4#9] := by decide +kernel

/-- V28: the 40-bit sum in the bus words of NODE[2]. -/
theorem test_bld_wide_sum :
    let t := after .bld (counted [(0x00, 0xFFFFFFFF), (0xFF, 0xFFFFFFFF)] State.reset)
    (List.range 4).map (nodeWord (nodeAt t 2#9)) =
      [0x00000002#32, 0xFFFFFFFE#32, 0x00000001#32, 0x07FC0200#32] := by decide +kernel

/-- V33: a code straddles the byte boundary, 7 pad bits. -/
theorem test_enc_packs :
    let t := after .enc (codes20 (holding text State.reset))
    outputBytes t = [0x1F#8, 0x00#8] ∧ t.nbits = 9#32 ∧ statusWord t = 0x02#32 := by decide

/-- V77: the padded fifth byte does not fit. -/
theorem test_enc_overflow_at_flush :
    let t := after .enc { holding [0x41#8, 0x41#8, 0x41#8] State.reset with
      ocap := 4#32, code := [(0x41, CodeEntry.mk 12#8 (0xFFF#256 <<< 244))] }
    t.errcode = 5#4 ∧ t.errinfo = 0#32 ∧ t.errpos = 3#32 ∧ t.outLen = 0#32 ∧ t.nbits = 0#32 := by
  decide

/-- V43. -/
theorem test_dec :
    let t := after .dec (stream20 9)
    outputBytes t = text ∧ t.cur = 0x1FF#9 ∧ statusWord t = 0x02#32 := by decide

/-- V73: the eighth bit leaves the cursor at NODE[3]. -/
theorem test_dec_inside_a_code :
    let t := after .dec (stream20 8)
    t.errcode = 4#4 ∧ t.errinfo = 2#32 ∧ t.errpos = 8#32 ∧ t.outLen = 0#32 := by decide

/-- V43: the seven pad bits are each a complete code. -/
theorem test_decx :
    outputBytes (after .decx (stream20 9)) =
      text ++ [0x61#8, 0x61#8, 0x61#8, 0x61#8, 0x61#8, 0x61#8, 0x61#8] := by decide

/-- V68: no tree. -/
theorem test_decx_absent_tree :
    let t := after .decx (holding [0x50#8] State.reset)
    t.errcode = 3#4 ∧ t.errinfo = 0x1FF#32 ∧ t.errpos = 0#32 := by decide

/-! ### Host accesses and the fetch -/

/-- V80: byte lanes. -/
theorem test_ibuf_lanes :
    (List.range 4).map (ibufByte (hostWrite State.reset 0x100000 4 0x42414241#32)) =
      [0x41#8, 0x42#8, 0x41#8, 0x42#8] := by decide

/-- V83: CODE[0x62] of V20. -/
theorem test_code_words :
    let s := codes20 State.reset
    readValue s 0x5880 4 = 2#32 ∧ readValue s 0x5884 4 = 0xC0000000#32 ∧
      readValue s 0x58A4 4 = 0#32 := by decide

/-- V84, V91: NODE[4] of V20 and a cleared record. -/
theorem test_node_words :
    let s := tree20 State.reset
    readValue s 0x2040 4 = 2#32 ∧ readValue s 0x2044 4 = 6#32 ∧ readValue s 0x2048 4 = 0#32 ∧
      readValue s 0x204C 4 = 0x07FC0600#32 ∧ readValue s 0x209C 4 = 0x07FFFFFF#32 := by decide

/-- V57, V87. -/
theorem test_registers :
    readValue State.reset 0x30 4 = 0x48434301#32 ∧ readValue State.reset 0x34 4 = 0x10000#32 ∧
      readValue (hostWrite State.reset 0x20 4 0xFFFFFFFF#32) 0x20 4 = 0x1FF#32 := by decide

/-- R32, R43: the step of a host write stores the 9 low bits in ROOT. -/
theorem test_step_host_write :
    (stepped (told [.write 0x20 4 0xFFFFFE07#32] State.reset)).root = 0x007#9 := by decide

/-- The command placed by `withFetchWord` is the one the next step runs (here OTI, R173). -/
theorem test_fetch_word :
    stepped (State.reset.withFetchWord 32 0x00000003) =
      after .oti (told [] State.reset) := by decide


/-! ### Witnesses: for each obligation with hypotheses a state and operands that meet them -/

/-- Every command answers a next state, named by `after`. -/
theorem exec_after (i : Instr) (s : State) : exec i s = .next (after i s) := by
  have run (d : Discard) (b : State → Except Trap State) : ∃ t, runCommand d b s = .next t := by
    unfold runCommand finish
    split
    · exact ⟨_, rfl⟩
    · split <;> exact ⟨_, rfl⟩
  have h : ∃ t, exec i s = .next t := by
    cases i with
    | rst => exact ⟨_, rfl⟩
    | clre => exact ⟨_, rfl⟩
    | nop => exact run _ _
    | oti => exact run _ _
    | cnt => exact run _ _
    | bld => exact run _ _
    | enc => exact run _ _
    | dec => exact run _ _
    | decx => exact run _ _
  obtain ⟨t, ht⟩ := h
  simp only [after, ht]

/-- The commands' words written to CMD. -/
def cmd (w : Word) : HostAction := .write 0x00 4 w

theorem witness_StepRunsTheWrittenCommand :
    (∃ (s : State) (w : Word) (rest : List HostAction) (i : Instr), s.busy = false ∧
      s.script = .write 0x00 4 w :: rest ∧ decode w = .ok i) ∧
    (∃ s : State, s.script = []) :=
  ⟨⟨told [cmd 0x41#32] State.reset, 0x41#32, [], .decx, by decide⟩, State.reset, rfl⟩

theorem witness_IllegalWordFaults :
    ∃ (s : State) (w : Word), s.busy = false ∧ s.err = false ∧ s.acc = 0#8 ∧ s.bitcnt = 0#4 ∧
      s.cur = Config.nil ∧
      w ∉ [0x00#32, 0x01#32, 0x02#32, 0x03#32, 0x10#32, 0x20#32, 0x30#32, 0x40#32, 0x41#32] :=
  ⟨State.reset, 0x42#32, by decide⟩

theorem witness_ErrRefusesAllButRstAndClre :
    ∃ (s : State) (i : Instr) (w : Word), s.err = true ∧ i ≠ .rst ∧ i ≠ .clre ∧ w ≠ 0x01#32 ∧
      w ≠ 0x02#32 :=
  ⟨{ State.reset with err := true }, .oti, 0x03#32, by decide⟩

theorem witness_NopOnlySetsDone :
    (∃ s : State, s.err = false) ∧ (∃ s : State, s.err = true) :=
  ⟨⟨State.reset, rfl⟩, { State.reset with err := true }, rfl⟩

/-- Both clauses at the boundary OUT_LEN = IBUF_CAP. -/
theorem witness_OtiCopiesOutputToInput :
    (∃ s : State, s.err = false ∧ s.outLen ≤ s.icap ∧ s.outLen = 4#32) ∧
    (∃ s : State, s.err = false ∧ s.icap < s.outLen ∧ s.outLen = 5#32) :=
  ⟨⟨{ State.reset with icap := 4#32, outLen := 4#32 }, by decide⟩,
    { State.reset with icap := 4#32, outLen := 5#32 }, by decide⟩

theorem witness_CntCountsTheInput :
    ∃ s : State, s.err = false ∧ s.inLen ≤ s.icap ∧ inputBytes s = text :=
  ⟨holding text State.reset, by decide⟩

theorem witness_CntSumsToInLen :
    ∃ s t : State, s.err = false ∧ capWf s.icap = true ∧ s.inLen ≤ s.icap ∧
      exec .cnt s = .next t :=
  ⟨{ holding abab State.reset with icap := 4#32 }, _, by decide, by decide, by decide,
    exec_after _ _⟩

theorem witness_HeapPushAndPopKeepTheOrder :
    ∃ (node : Table NodeRec) (h : List Idx), isHeap (less node) h ∧ h ≠ [] ∧
      ∃ x ∈ h, x ≠ heapAt h 0 := by
  refine ⟨(tree20 State.reset).node, [2#9, 0#9, 1#9], ?_, by decide⟩
  intro p h1 h2
  match p, h1, h2 with
  | 1, _, _ => decide
  | 2, _, _ => decide

theorem witness_BldCompletesFromEveryTable :
    (∃ s : State, s.err = false ∧ presentSymbols s = []) ∧
    (∃ s : State, s.err = false ∧ presentSymbols s ≠ []) :=
  ⟨⟨State.reset, by decide +kernel⟩, table20, by decide +kernel⟩

theorem witness_BldOnTheEmptyTable :
    ∃ s : State, s.err = false ∧ ∀ b, b < 256 → freqAt s b = 0#32 :=
  ⟨State.reset, rfl, fun _ _ => rfl⟩

theorem witness_BldOnOneSymbol :
    ∃ (s : State) (b : Nat), s.err = false ∧ b < 256 ∧ freqAt s b ≠ 0#32 ∧
      ∀ c, c < 256 → c ≠ b → freqAt s c = 0#32 :=
  ⟨counted [(255, 4)] State.reset, 255, rfl, by decide, by decide, fun c _ h => by
    simp [freqAt, counted, Table.get, Table.find, h]⟩

theorem witness_BldSeedsLeavesInByteOrder :
    ∃ (s t : State) (m : Nat), s.err = false ∧ exec .bld s = .next t ∧
      m < (presentSymbols s).length :=
  ⟨table20, _, 2, rfl, exec_after _ _, by decide +kernel⟩

theorem witness_BldMergesTheTwoLeast :
    ∃ (s t : State) (k x : Idx), s.err = false ∧ exec .bld s = .next t ∧
      (presentSymbols s).length ≤ k.toNat ∧ k.toNat < t.nnodes.toNat ∧ x < k ∧
      k ≤ (nodeAt t x).parent ∧ x ≠ (nodeAt t k).left ∧ x ≠ (nodeAt t k).right :=
  ⟨table20, _, 3#9, 0#9, rfl, exec_after _ _, by decide +kernel⟩

theorem witness_BldTreeShape :
    ∃ (s t : State) (i j k : Idx), s.err = false ∧ exec .bld s = .next t ∧
      t.nnodes.toNat ≤ i.toNat ∧ j.toNat < t.nnodes.toNat ∧ (nodeAt t j).kind = .leaf ∧
      k.toNat < t.nnodes.toNat ∧ (nodeAt t k).kind = .internal :=
  ⟨table20, _, 5#9, 0#9, 4#9, rfl, exec_after _ _, by decide +kernel⟩

theorem witness_BldConservesFrequency :
    ∃ r s t : State, s.err = false ∧ presentSymbols s ≠ [] ∧ exec .bld s = .next t ∧
      r.err = false ∧ capWf r.icap = true ∧ r.inLen ≤ r.icap ∧ exec .cnt r = .next s :=
  ⟨holding abab State.reset, _, _, by decide, by decide +kernel, exec_after _ _, by decide,
    by decide, by decide, exec_after _ _⟩

theorem witness_BldCodesAreThePaths :
    ∃ (s t : State) (i : Idx) (b : Byte), s.err = false ∧ exec .bld s = .next t ∧
      2 ≤ (presentSymbols s).length ∧ i.toNat < t.nnodes.toNat ∧ (nodeAt t i).kind = .leaf ∧
      freqAt s b.toNat = 0#32 :=
  ⟨table20, _, 2#9, 0x64#8, rfl, exec_after _ _, by decide +kernel⟩

theorem witness_BldCodeLengths :
    ∃ (s t : State) (b : Byte), s.err = false ∧ exec .bld s = .next t ∧
      freqAt s b.toNat ≠ 0#32 ∧ 2 ≤ (presentSymbols s).length :=
  ⟨table20, _, 0x63#8, rfl, exec_after _ _, by decide +kernel⟩

theorem witness_BldCodesArePrefixFree :
    ∃ (s t : State) (a b : Byte), s.err = false ∧ exec .bld s = .next t ∧ a ≠ b ∧
      hasCode t a = true ∧ hasCode t b = true :=
  ⟨table20, _, 0x61#8, 0x62#8, rfl, exec_after _ _, by decide +kernel⟩

theorem witness_BldIsAFunctionOfFreq :
    ∃ s s' t t' : State, s.err = false ∧ s'.err = false ∧
      (∀ b, b < 256 → freqAt s b = freqAt s' b) ∧ exec .bld s = .next t ∧ exec .bld s' = .next t' ∧
      s.node ≠ s'.node :=
  ⟨table20, treeA table20, _, _, rfl, rfl, fun _ _ => rfl, exec_after _ _, exec_after _ _,
    by decide⟩

theorem witness_EncPacksTheCodes :
    ∃ s : State, s.err = false ∧ s.inLen ≤ s.icap ∧ (∀ b ∈ inputBytes s, hasCode s b = true) ∧
      ((codesOf s (inputBytes s)).length + 7) / 8 ≤ s.ocap.toNat ∧ capWf s.ocap = true :=
  ⟨codes20 (holding text State.reset), by decide⟩

theorem witness_EncFaultsOnUnknownSymbol :
    ∃ (s : State) (pre post : List Byte) (b : Byte), s.err = false ∧ s.inLen ≤ s.icap ∧
      inputBytes s = pre ++ b :: post ∧ (∀ c ∈ pre, hasCode s c = true) ∧ hasCode s b = false ∧
      (codesOf s pre).length / 8 ≤ s.ocap.toNat :=
  ⟨codes20 (holding [0x61#8, 0x64#8, 0x61#8] State.reset), [0x61#8], [0x61#8], 0x64#8, by decide⟩

/-- V76 and V77, with OBUF_CAP = 4. -/
theorem witness_EncFaultsWhenOutputTooLong :
    (∃ (s : State) (pre post : List Byte) (b : Byte), s.err = false ∧ s.inLen ≤ s.icap ∧
      inputBytes s = pre ++ b :: post ∧ (∀ c ∈ pre, hasCode s c = true) ∧ hasCode s b = true ∧
      (codesOf s pre).length / 8 ≤ s.ocap.toNat ∧
      s.ocap.toNat < (codesOf s (pre ++ [b])).length / 8) ∧
    (∃ s : State, s.err = false ∧ s.inLen ≤ s.icap ∧ (∀ c ∈ inputBytes s, hasCode s c = true) ∧
      (codesOf s (inputBytes s)).length / 8 = s.ocap.toNat ∧
      (codesOf s (inputBytes s)).length % 8 ≠ 0) :=
  ⟨⟨{ coded [(0x41, List.replicate 16 true)] (holding (List.replicate 4 0x41#8) State.reset) with
      ocap := 4#32 }, [0x41#8, 0x41#8], [0x41#8], 0x41#8, by decide +kernel⟩,
    { coded [(0x41, List.replicate 12 true)] (holding (List.replicate 3 0x41#8) State.reset) with
      ocap := 4#32 }, by decide +kernel⟩

theorem witness_EncOnEmptyInput : ∃ s : State, s.err = false ∧ s.inLen = 0#32 :=
  ⟨codes20 State.reset, by decide⟩

/-- V49b, V40, V67, V68. -/
theorem witness_DecodingNothingSucceeds :
    (∃ s : State, s.err = false ∧ s.inLen ≤ s.icap ∧ s.nbits = 0#32 ∧ 0#32 < s.inLen) ∧
    (∃ s : State, s.err = false ∧ s.inLen ≤ s.icap ∧ s.inLen = 0#32) ∧
    (∃ s : State, s.err = false ∧ s.inLen ≤ s.icap ∧ s.root = Config.nil ∧ s.nbits ≠ 0#32 ∧
      s.nbits.toNat ≤ 8 * s.inLen.toNat ∧ s.inLen ≠ 0#32) :=
  ⟨⟨holding [0xFF#8, 0xFF#8] State.reset, by decide⟩, ⟨State.reset, by decide⟩,
    { holding [0x50#8] State.reset with nbits := 8#32 }, by decide⟩

/-- One state for each case of STEP. -/
theorem witness_WalkStepFollowsTheTree :
    (∃ (s : State) (bit : Bool), (nodeAt s s.cur).kind = .internal ∧
      childOf (nodeAt s s.cur) bit = Config.nil) ∧
    (∃ (s : State) (bit : Bool), (nodeAt s s.cur).kind = .internal ∧
      childOf (nodeAt s s.cur) bit ≠ Config.nil ∧
      (nodeAt s (childOf (nodeAt s s.cur) bit)).kind = .internal) ∧
    (∃ (s : State) (bit : Bool), (nodeAt s s.cur).kind = .internal ∧
      childOf (nodeAt s s.cur) bit ≠ Config.nil ∧
      (nodeAt s (childOf (nodeAt s s.cur) bit)).kind = .leaf ∧ s.outLen ≠ s.ocap) ∧
    (∃ (s : State) (bit : Bool), (nodeAt s s.cur).kind = .internal ∧
      childOf (nodeAt s s.cur) bit ≠ Config.nil ∧
      (nodeAt s (childOf (nodeAt s s.cur) bit)).kind = .leaf ∧ s.outLen = s.ocap) ∧
    (∃ (s : State) (bit : Bool), (nodeAt s s.cur).kind = .internal ∧
      childOf (nodeAt s s.cur) bit ≠ Config.nil ∧
      (nodeAt s (childOf (nodeAt s s.cur) bit)).kind ∈ [Kind.free, Kind.reserved]) ∧
    (∃ s : State, (nodeAt s s.cur).kind = .leaf) ∧
    (∃ s : State, (nodeAt s s.cur).kind ∈ [Kind.free, Kind.reserved]) :=
  ⟨⟨{ State.reset with
      cur := 2#9, node := [(2, NodeRec.mk .internal 0#8 0#40 0#9 0x1FF#9 0x1FF#9)] }, true, by decide⟩,
    ⟨{ tree20 State.reset with cur := 4#9 }, true, by decide⟩,
    ⟨{ tree20 State.reset with cur := 4#9 }, false, by decide⟩,
    ⟨{ tree20 State.reset with cur := 4#9, outLen := 4#32, ocap := 4#32 }, false, by decide⟩,
    ⟨{ State.reset with
      cur := 2#9, node := [(2, NodeRec.mk .internal 0#8 0#40 5#9 1#9 0x1FF#9)] }, false, by decide⟩,
    ⟨{ treeA State.reset with cur := 0#9 }, by decide⟩,
    ⟨State.reset, by decide⟩⟩

/-- The codewords of "aaabbc" in the tree of V20, each with its byte. -/
def words20 : List (List Bool × Byte) :=
  [([false], 0x61#8), ([false], 0x61#8), ([false], 0x61#8), ([true, true], 0x62#8),
    ([true, true], 0x62#8), ([true, false], 0x63#8)]

/-- V43; and V49d, where the bits lead back to the root's index and emit nothing. -/
theorem witness_DecDecodesCodewords :
    (∃ (s : State) (ws : List (List Bool × Byte)) (p : List Bool), s.err = false ∧
      s.inLen ≤ s.icap ∧ s.nbits.toNat ≤ 8 * s.inLen.toNat ∧ s.root ≠ Config.nil ∧
      inputBits s s.nbits.toNat = ws.flatMap Prod.fst ++ p ∧
      (∀ w ∈ ws, codeword s w.1 w.2 = true) ∧ (p = [] ∨ staysInside s s.root p = true) ∧
      walkTo s s.root p = s.root ∧ ws.length ≤ s.ocap.toNat ∧ ws ≠ [] ∧ p = []) ∧
    (∃ (s : State) (ws : List (List Bool × Byte)) (p : List Bool), s.err = false ∧
      s.inLen ≤ s.icap ∧ s.nbits.toNat ≤ 8 * s.inLen.toNat ∧ s.root ≠ Config.nil ∧
      inputBits s s.nbits.toNat = ws.flatMap Prod.fst ++ p ∧
      (∀ w ∈ ws, codeword s w.1 w.2 = true) ∧ (p = [] ∨ staysInside s s.root p = true) ∧
      walkTo s s.root p = s.root ∧ ws.length ≤ s.ocap.toNat ∧ ws = [] ∧ p ≠ []) :=
  ⟨⟨stream20 9, words20, [], by decide⟩,
    graph49c { holding [0x01#8] State.reset with nbits := 7#32 }, [], List.replicate 7 false,
    by decide⟩

/-- A stream of 1 bits in the tree of V20 ends inside no code (FF) or inside one (7F, bits 0 11 11 11 1). -/
theorem witness_DecxDecodesEveryBit :
    (∃ (s : State) (ws : List (List Bool × Byte)) (p : List Bool), s.err = false ∧
      s.inLen ≤ s.icap ∧ s.root ≠ Config.nil ∧
      inputBits s (8 * s.inLen.toNat) = ws.flatMap Prod.fst ++ p ∧
      (∀ w ∈ ws, codeword s w.1 w.2 = true) ∧ (p = [] ∨ staysInside s s.root p = true) ∧
      ws.length ≤ s.ocap.toNat ∧ p = []) ∧
    (∃ (s : State) (ws : List (List Bool × Byte)) (p : List Bool), s.err = false ∧
      s.inLen ≤ s.icap ∧ s.root ≠ Config.nil ∧
      inputBits s (8 * s.inLen.toNat) = ws.flatMap Prod.fst ++ p ∧
      (∀ w ∈ ws, codeword s w.1 w.2 = true) ∧ (p = [] ∨ staysInside s s.root p = true) ∧
      ws.length ≤ s.ocap.toNat ∧ p ≠ []) :=
  ⟨⟨tree20 (holding [0xFF#8] State.reset), List.replicate 4 ([true, true], 0x62#8), [], by decide⟩,
    tree20 (holding [0x7F#8] State.reset),
    ([false], 0x61#8) :: List.replicate 3 ([true, true], 0x62#8), [true], by decide⟩

/-- V73. -/
theorem witness_DecFaultsInsideACode :
    ∃ (s : State) (ws : List (List Bool × Byte)) (p : List Bool), s.err = false ∧
      s.inLen ≤ s.icap ∧ s.nbits.toNat ≤ 8 * s.inLen.toNat ∧ s.root ≠ Config.nil ∧
      inputBits s s.nbits.toNat = ws.flatMap Prod.fst ++ p ∧
      (∀ w ∈ ws, codeword s w.1 w.2 = true) ∧ ws.length ≤ s.ocap.toNat ∧
      staysInside s s.root p = true ∧ walkTo s s.root p ≠ s.root :=
  ⟨stream20 8, words20.take 5, [true], by decide⟩

/-- V74: NBITS one above 8·IN_LEN. -/
theorem witness_DecFaultsOnTooManyBits :
    ∃ s : State, s.err = false ∧ s.inLen ≤ s.icap ∧ 8 * s.inLen.toNat < s.nbits.toNat :=
  ⟨stream20 17, by decide⟩

/-- The hypotheses of `DecFaultsOnACorruptTree` that do not name the record. -/
def corruptAt (s : State) (i : Instr) (nb : Nat) (ws : List (List Bool × Byte)) (p rest : List Bool)
    (bit : Bool) : Prop :=
  (i, nb) ∈ [(Instr.dec, s.nbits.toNat), (.decx, 8 * s.inLen.toNat)] ∧ s.err = false ∧
    s.inLen ≤ s.icap ∧ nb ≤ 8 * s.inLen.toNat ∧ s.root ≠ Config.nil ∧
    inputBits s nb = ws.flatMap Prod.fst ++ p ++ bit :: rest ∧
    (∀ w ∈ ws, codeword s w.1 w.2 = true) ∧ (p = [] ∨ staysInside s s.root p = true) ∧
    ws.length ≤ s.ocap.toNat

/-- The tree of "ABAB" (S3) with NODE[2].LEFT and RIGHT as given, the stream 50 of V32 to decode. -/
def damaged (left right : Idx) : State :=
  { holding [0x50#8] State.reset with
    nbits := 4#32
    root := 2#9
    node := [(0, NodeRec.mk .leaf 0x41#8 2#40 0x1FF#9 0x1FF#9 2#9),
      (1, NodeRec.mk .leaf 0x42#8 2#40 0x1FF#9 0x1FF#9 2#9),
      (2, NodeRec.mk .internal 0#8 4#40 left right 0x1FF#9)] }

/-- V69, V70 and V71, the first also for DECX. -/
theorem witness_DecFaultsOnACorruptTree :
    (∃ (s : State) (nb : Nat) (ws : List (List Bool × Byte)) (p rest : List Bool) (bit : Bool)
      (x : Idx), corruptAt s .dec nb ws p rest bit ∧
      (nodeAt s (walkTo s s.root p)).kind = .internal ∧
      childOf (nodeAt s (walkTo s s.root p)) bit = Config.nil ∧ x = walkTo s s.root p) ∧
    (∃ (s : State) (nb : Nat) (ws : List (List Bool × Byte)) (p rest : List Bool) (bit : Bool)
      (x : Idx), corruptAt s .decx nb ws p rest bit ∧
      (nodeAt s (walkTo s s.root p)).kind = .internal ∧
      childOf (nodeAt s (walkTo s s.root p)) bit = Config.nil ∧ x = walkTo s s.root p) ∧
    (∃ (s : State) (nb : Nat) (ws : List (List Bool × Byte)) (p rest : List Bool) (bit : Bool)
      (x : Idx), corruptAt s .dec nb ws p rest bit ∧
      (nodeAt s (walkTo s s.root p)).kind = .internal ∧
      x = childOf (nodeAt s (walkTo s s.root p)) bit ∧ x ≠ Config.nil ∧
      (nodeAt s x).kind ∈ [Kind.free, Kind.reserved]) ∧
    (∃ (s : State) (nb : Nat) (ws : List (List Bool × Byte)) (p rest : List Bool) (bit : Bool)
      (x : Idx), corruptAt s .dec nb ws p rest bit ∧
      x = walkTo s s.root p ∧ (nodeAt s x).kind ∈ [Kind.free, Kind.reserved]) := by
  unfold corruptAt
  exact ⟨⟨damaged 0#9 0x1FF#9, 4, [([false], 0x41#8)], [], [false, true], true, 2#9, by decide⟩,
    ⟨damaged 0#9 0x1FF#9, 8, [([false], 0x41#8)], [],
      [false, true, false, false, false, false], true, 2#9, by decide⟩,
    ⟨damaged 5#9 1#9, 4, [], [], [true, false, true], false, 5#9, by decide⟩,
    { damaged 0#9 1#9 with root := 7#9 }, 4, [], [], [true, false, true], false, 7#9, by decide⟩

/-- V41 and V72, for DEC and for DECX. -/
theorem witness_LeafRootDecodesZeroBits :
    ∀ i ∈ [Instr.dec, .decx], ∀ one ∈ [false, true], ∃ (s : State) (nb k : Nat) (rest : List Bool),
      (i, nb) ∈ [(Instr.dec, s.nbits.toNat), (.decx, 8 * s.inLen.toNat)] ∧ s.err = false ∧
      s.inLen ≤ s.icap ∧ nb ≤ 8 * s.inLen.toNat ∧ s.root ≠ Config.nil ∧
      (nodeAt s s.root).kind = .leaf ∧ k ≤ s.ocap.toNat ∧
      (one = false → inputBits s nb = List.replicate k false) ∧
      (one = true → inputBits s nb = List.replicate k false ++ true :: rest) := by
  intro i hi one ho
  simp only [List.mem_cons, List.not_mem_nil, or_false] at hi ho
  rcases hi with rfl | rfl <;> rcases ho with rfl | rfl
  · exact ⟨treeA { holding [0x00#8] State.reset with nbits := 4#32 }, 4, 4, [], by decide⟩
  · exact ⟨treeA { holding [0x20#8] State.reset with nbits := 4#32 }, 4, 2, [false], by decide⟩
  · exact ⟨treeA (holding [0x00#8] State.reset), 8, 8, [], by decide⟩
  · exact ⟨treeA (holding [0x20#8] State.reset), 8, 2, List.replicate 5 false, by decide⟩

/-- OBUF_CAP = 4 and eight 0 bits of 'a' in the tree of V20, for DEC and for DECX. -/
theorem witness_DecFaultsWhenOutputTooLong :
    ∃ s : State, ∀ i ∈ [Instr.dec, .decx],
      ∃ (nb : Nat) (ws : List (List Bool × Byte)) (w : List Bool × Byte) (rest : List Bool),
      (i, nb) ∈ [(Instr.dec, s.nbits.toNat), (.decx, 8 * s.inLen.toNat)] ∧ s.err = false ∧
      s.inLen ≤ s.icap ∧ nb ≤ 8 * s.inLen.toNat ∧ s.root ≠ Config.nil ∧
      inputBits s nb = ws.flatMap Prod.fst ++ w.1 ++ rest ∧
      (∀ v ∈ ws, codeword s v.1 v.2 = true) ∧ codeword s w.1 w.2 = true ∧
      ws.length = s.ocap.toNat := by
  refine ⟨tree20 { holding [0x00#8] State.reset with nbits := 6#32, ocap := 4#32 }, fun i hi => ?_⟩
  simp only [List.mem_cons, List.not_mem_nil, or_false] at hi
  rcases hi with rfl | rfl
  · exact ⟨6, List.replicate 4 ([false], 0x61#8), ([false], 0x61#8), [false], by decide⟩
  · exact ⟨8, List.replicate 4 ([false], 0x61#8), ([false], 0x61#8), List.replicate 3 false,
      by decide⟩

/-- "ABAB" once with room in OBUF, once (in a state with OBUF_CAP = 0) without, where ENC faults. -/
theorem witness_CmpNeverMeetsAnUnknownSymbol :
    (∃ s t u v : State, s.err = false ∧ s.inLen ≤ s.icap ∧ exec .cnt s = .next t ∧
      exec .bld t = .next u ∧ exec .enc u = .next v ∧ inputBytes u ≠ []) ∧
    (∃ s t u v : State, s.err = false ∧ s.inLen ≤ s.icap ∧ exec .cnt s = .next t ∧
      exec .bld t = .next u ∧ exec .enc u = .next v ∧ v.err = true) :=
  ⟨⟨holding abab State.reset, _, _, _, by decide, by decide, exec_after _ _, exec_after _ _,
      exec_after _ _, by decide +kernel⟩,
    { holding abab State.reset with ocap := 0#32 }, _, _, _, by decide, by decide, exec_after _ _,
      exec_after _ _, exec_after _ _, by decide +kernel⟩

theorem witness_CmpResultSize :
    ∃ s t u v : State, s.err = false ∧ s.inLen ≤ s.icap ∧ capWf s.icap = true ∧
      capWf s.ocap = true ∧ exec .cnt s = .next t ∧ exec .bld t = .next u ∧
      exec .enc u = .next v ∧ v.err = false :=
  ⟨{ holding abab State.reset with icap := 4#32, ocap := 4#32 }, _, _, _, by decide, by decide,
    by decide, by decide, exec_after _ _, exec_after _ _, exec_after _ _, by decide +kernel⟩

/-- LOAD "ABAB"; CMP; OTI; DCMP with the smallest capacities. -/
def roundTrip : State :=
  told (load abab ++ cmp ++ give .oti :: dcmp) { State.reset with icap := 4#32, ocap := 4#32 }

/-- The state after LOAD, CNT and BLD. -/
def roundTripBuilt : State :=
  after .bld (told [give .enc, give .oti, give .dec]
    (after .cnt (told [give .bld, give .enc, give .oti, give .dec] (stepped (stepped roundTrip)))))

theorem run_four : core.run 4 roundTrip = .next roundTripBuilt := by
  have h (i : Instr) (s : State) (rest : List HostAction) (hb : s.busy = false)
      (hs : s.script = give i :: rest) (hd : decode (encode i) = .ok i) :
      step s = .next (after i (told rest s)) := by
    rw [← exec_after, step, advance, hs]
    show (if (admitted 0x00 4 && !s.busy && decide (Loc.cmd = Loc.cmd)) = true then
      command (encode i) (told rest s) else _) = _
    rw [hb]
    show command (encode i) (told rest s) = _
    rw [command, hd]
  have e (k : Nat) {s u : State} (hu : step s = .next u) : core.run (k + 1) s = core.run k u := by
    have : core.step s = .next u := hu
    simp only [Host.Core.run, this]
  rw [e 3 (u := stepped roundTrip) rfl, e 2 (u := stepped (stepped roundTrip)) rfl,
    e 1 (h .cnt _ [give .bld, give .enc, give .oti, give .dec] (by decide) (by decide) (by decide)),
    e 0 (h .bld _ [give .enc, give .oti, give .dec] (by decide) (by decide) (by decide))]
  rfl

theorem witness_RoundTrip :
    ∃ (s : State) (bs : List Byte) (rest : List HostAction), s.busy = false ∧ s.err = false ∧
      capWf s.icap = true ∧ capWf s.ocap = true ∧ bs.length ≤ s.icap.toNat ∧
      bs.length ≤ s.ocap.toNat ∧ s.script = load bs ++ cmp ++ give .oti :: dcmp ++ rest ∧
      bs ≠ [] ∧ (∃ u, core.run ((load bs).length + 2) s = .next u) ∧
      ∀ u, core.run ((load bs).length + 2) s = .next u →
        ((codesOf u (inputBytes u)).length + 7) / 8 ≤ s.ocap.toNat ∧
        ((codesOf u (inputBytes u)).length + 7) / 8 ≤ s.icap.toNat := by
  have h1 : roundTrip.busy = false ∧ roundTrip.err = false := by decide
  have h2 : capWf roundTrip.icap = true ∧ capWf roundTrip.ocap = true := by decide
  have h3 : abab.length ≤ roundTrip.icap.toNat ∧ abab.length ≤ roundTrip.ocap.toNat := by decide
  have h4 : roundTrip.script = load abab ++ cmp ++ give .oti :: dcmp ++ [] := rfl
  refine ⟨roundTrip, abab, [], h1.1, h1.2, h2.1, h2.2, h3.1, h3.2, h4, by decide,
    Exists.intro _ run_four, fun u hu => ?_⟩
  rw [← Host.Outcome.next.inj (run_four.symm.trans hu)]
  exact of_decide_eq_true (by decide +kernel)

/-- Five bytes: a whole word and a padded one. -/
theorem witness_LoadPlacesTheInput :
    ∃ (s : State) (bs : List Byte) (rest : List HostAction), s.busy = false ∧
      capWf s.icap = true ∧ bs.length ≤ s.icap.toNat ∧ s.script = load bs ++ rest ∧
      bs.length % 4 ≠ 0 :=
  ⟨told (load (text.take 5)) State.reset, text.take 5, [], by decide⟩

/-- A completion, a fault, RST, and CLRE in the fault state. -/
theorem witness_CommandCompletesOrFaults :
    ∀ i ∈ [Instr.nop, .cnt, .rst, .clre], ∃ s t : State, exec i s = .next t ∧
      (s.err = false ∨ i ∈ [Instr.rst, .clre]) ∧ (t.err = true ↔ i = .cnt) ∧
      (s.err = true ↔ i = .clre) := by
  intro i hi
  simp only [List.mem_cons, List.not_mem_nil, or_false] at hi
  rcases hi with rfl | rfl | rfl | rfl
  · exact ⟨State.reset, _, exec_after _ _, by decide⟩
  · exact ⟨{ State.reset with icap := 8#32, inLen := 9#32 }, _, exec_after _ _, by decide⟩
  · exact ⟨State.reset, _, exec_after _ _, by decide⟩
  · exact ⟨{ State.reset with err := true }, _, exec_after _ _, by decide⟩

/-- V79, V6, V66, V67, V68. -/
theorem witness_FaultCausesByCommand :
    ∀ i ∈ [Instr.oti, .cnt, .enc, .dec, .decx], ∃ s t : State, exec i s = .next t ∧
      s.err = false ∧ t.err = true := by
  intro i hi
  simp only [List.mem_cons, List.not_mem_nil, or_false] at hi
  rcases hi with rfl | rfl | rfl | rfl | rfl
  · exact ⟨{ State.reset with icap := 4#32, outLen := 8#32 }, _, exec_after _ _, by decide⟩
  · exact ⟨{ State.reset with icap := 8#32, inLen := 9#32 }, _, exec_after _ _, by decide⟩
  · exact ⟨holding [0x41#8] State.reset, _, exec_after _ _, by decide⟩
  · exact ⟨{ holding [0x50#8] State.reset with nbits := 4#32 }, _, exec_after _ _, by decide⟩
  · exact ⟨holding [0x50#8] State.reset, _, exec_after _ _, by decide⟩

/-- V78. -/
theorem witness_InputLengthIsTestedFirst : ∃ s : State, s.err = false ∧ s.icap < s.inLen :=
  ⟨{ State.reset with icap := 8#32, inLen := 9#32 }, by decide⟩

/-- NOP: every clause but the premises that name another command holds of it. -/
theorem witness_WriteEffectMatrix :
    ∃ s t : State, exec .nop s = .next t ∧ t.err = s.err :=
  ⟨tree20 State.reset, _, exec_after _ _, by decide⟩

theorem witness_HostReadChangesNoState :
    ∃ (s : State) (addr width : Nat) (rest : List HostAction), s.script = .read addr width :: rest :=
  ⟨told [.read 0x04 4] State.reset, 0x04, 4, [], rfl⟩

theorem witness_RegistersReadAtTheirOffsets : ∃ s : State, s.busy = false := ⟨State.reset, rfl⟩

/-- The ends of the ranges: FREQ[255], HEAP[0], NODE[510], CODE[255] bit 255. -/
theorem witness_MemoriesReadAtTheirOffsets :
    ∃ (s : State) (b p j : Nat) (i : Idx), s.busy = false ∧ b = 255 ∧ b < 256 ∧ p = 0 ∧ p < 256 ∧
      p < s.heapSize.toNat ∧ p < s.heap.length ∧ i = 510#9 ∧ i ≠ Config.nil ∧ j = 255 ∧ j < 256 :=
  ⟨{ State.reset with heap := [4#9], heapSize := 1#9 }, 255, 0, 255, 510#9, by decide⟩

/-- The last bytes of IBUF and OBUF at the largest capacity. -/
theorem witness_BufferLanes :
    ∃ (s : State) (k : Nat), s.busy = false ∧ k < s.icap.toNat ∧ k < 0x100000 ∧
      s.icap.toNat % 4 = 0 ∧ k < s.ocap.toNat ∧ k < 0x200000 ∧ s.ocap.toNat % 4 = 0 ∧
      k < s.outLen.toNat ∧ k = 0xFFFFF :=
  ⟨{ State.reset with icap := 0x100000#32, ocap := 0x100000#32, outLen := 0x100000#32 }, 0xFFFFF,
    by decide⟩

/-- The ends of the ranges: FREQ[255], NODE[510] word 3, CODE[255] word 8, the last word of IBUF. -/
theorem witness_HostWritesReadBack :
    ∃ (s : State) (b i w m k : Nat), s.busy = false ∧ b = 255 ∧ b < 256 ∧ i = 510 ∧ i < 511 ∧
      w = 3 ∧ w < 4 ∧ m = 7 ∧ m < 8 ∧ 4 * k < s.icap.toNat ∧ 4 * k < 0x100000 ∧ k = 0x3FFFF :=
  ⟨{ State.reset with icap := 0x100000#32 }, 255, 510, 3, 7, 0x3FFFF, by decide⟩

theorem witness_HostWriteTouchesOneLocation : ∃ a a' : Nat, a' ≠ a := ⟨0x14, 0x18, by decide⟩

/-- Both ends of every read-only and reserved range, with the default capacity. -/
theorem witness_ReadOnlyLocationsIgnoreWrites :
    ∃ s : State, ∀ a ∈ [0x04, 0x13, 0x18, 0x1B, 0x24, 0x3FF, 0x800, 0x1FFF, 0x3FF0, 0x3FFF, 0x4024,
        0x7FFF, 0x8000, 0xFFFFF, 0x110000, 0x1FFFFF, 0x200000, 0x400000],
      (0x04 ≤ a ∧ a < 0x14 ∨ 0x18 ≤ a ∧ a < 0x1C ∨ 0x24 ≤ a ∧ a < 0x400 ∨ 0x800 ≤ a ∧ a < 0x2000 ∨
        0x3FF0 ≤ a ∧ a < 0x4000 ∨ 0x4000 ≤ a ∧ a < 0x8000 ∧ 0x24 ≤ a % 0x40 ∨
        0x8000 ≤ a ∧ a < 0x100000 ∨ 0x100000 + s.icap.toNat ≤ a ∧ a < 0x200000 ∨ 0x200000 ≤ a) :=
  ⟨State.reset, by decide⟩

/-- Both ends of every reserved range, with the default capacities. -/
theorem witness_ReservedOffsetsHoldNothing :
    ∃ s : State, s.busy = false ∧ ∀ a ∈ [0x3C, 0x3FC, 0xC00, 0x1FFC, 0x3FF0, 0x3FFC, 0x4024, 0x7FFC,
        0x8000, 0xFFFFC, 0x110000, 0x1FFFFC, 0x210000, 0x3FFFFC],
      a % 4 = 0 ∧
      (0x3C ≤ a ∧ a < 0x400 ∨ 0xC00 ≤ a ∧ a < 0x2000 ∨ 0x3FF0 ≤ a ∧ a < 0x4000 ∨
        0x4000 ≤ a ∧ a < 0x8000 ∧ 0x24 ≤ a % 0x40 ∨ 0x8000 ≤ a ∧ a < 0x100000 ∨
        0x100000 + s.icap.toNat ≤ a ∧ a < 0x200000 ∨
        0x200000 + s.ocap.toNat ≤ a ∧ 0x200000 ≤ a ∧ a < 0x400000) :=
  ⟨State.reset, by decide⟩

theorem witness_HostWriteKeepsStatus :
    ∃ (s : State) (addr width : Nat) (v : Word) (rest : List HostAction),
      s.script = .write addr width v :: rest ∧ addr ≠ 0 :=
  ⟨told [.write 0x204C 4 0x07FC0600#32] State.reset, 0x204C, 4, 0x07FC0600#32, [], by decide⟩

/-- V90 and the first offset outside the window. -/
theorem witness_RefusedAccessesChangeNothing :
    ∀ aw ∈ [(0x14, 2), (0x15, 4), (0x400000, 4)], (aw.2 ≠ 4 ∨ aw.1 % 4 ≠ 0 ∨ 0x400000 ≤ aw.1) ∧
      (∃ s : State, s.script = [.write aw.1 aw.2 1#32]) ∧
      (∃ s : State, s.script = [.read aw.1 aw.2]) := fun aw h =>
  ⟨by revert aw; decide, ⟨told [.write aw.1 aw.2 1#32] State.reset, rfl⟩,
    told [.read aw.1 aw.2] State.reset, rfl⟩

theorem witness_BusyRefusesAccesses :
    (∃ (s : State) (addr : Nat), s.busy = true ∧ s.script = [.write addr 4 1#32]) ∧
    (∃ (s : State) (addr : Nat), s.busy = true ∧ addr ≠ 0x04 ∧ s.script = [.read addr 4]) :=
  ⟨⟨told [.write 0x00 4 1#32] { State.reset with busy := true }, 0x00, by decide⟩,
    told [.read 0x14 4] { State.reset with busy := true }, 0x14, by decide⟩

theorem witness_HardResetIsRstButForIbuf :
    ∃ (s t : State) (rest : List HostAction), s.script = .hardReset :: rest ∧
      exec .rst { s with script := rest } = .next t :=
  ⟨told [.hardReset] (holding text State.reset), _, [], rfl, exec_after _ _⟩

/-- The state of V54, with OTI as the host's next action. -/
theorem witness_StepKeepsInv :
    ∃ s t : State, Inv s ∧ step s = .next t := by
  let s : State := told [give .oti] { holding text State.reset with
    obuf := [(0, 0x1F#8), (1, 0x00#8)], outLen := 2#32, nbits := 9#32 }
  have h : step s = .next (stepped s) := by rfl
  exact ⟨s, _, by constructor <;> decide, h⟩

end Sys2Proof.Tests
end

section
/-! BLD as a step of the machine (R90, R194), and the shape of the tree it builds (R23). -/

namespace Sys2Proof.Machine

/-! ### The command -/

/-- An accepted BLD completes; its end state is a built tree with the flags of a completion. -/
theorem exec_bld_built {s t : State} (he : s.err = false) (h : exec .bld s = .next t) :
    ∃ u, Built (start s) u ∧ t = complete u := by
  obtain ⟨u, hu, B⟩ := bldBody_built (start s)
  have hrun : exec .bld s = .next (complete u) := runCommand_ok he hu
  rw [hrun] at h
  exact ⟨u, B, (Host.Outcome.next.inj h).symm⟩

/-! ### Records -/

section
variable {pres : List Nat} {s : State} {k : Nat} (F : Forest pres s k)
include F

/-- Below n a record is a leaf without children, from n on it has two
distinct children of smaller index, whose PARENT it is (R23). -/
theorem Forest.leaf_or_twoChildren {i : Idx} (hi : i.toNat < k) :
    (nodeAt s i).kind = .leaf ∧ (nodeAt s i).left = Config.nil ∧ (nodeAt s i).right = Config.nil ∨
      (nodeAt s i).kind = .internal ∧ (nodeAt s i).left ≠ (nodeAt s i).right ∧
        (nodeAt s i).left < i ∧ (nodeAt s i).right < i ∧
        (nodeAt s (nodeAt s i).left).parent = i ∧ (nodeAt s (nodeAt s i).right).parent = i := by
  by_cases hleaf : i.toNat < pres.length
  · have L := F.leaf i.toNat hleaf
    exact .inl ⟨L.kind, L.left, L.right⟩
  · have M := F.merged i.toNat (by omega) hi
    exact .inr ⟨M.kind, M.left_ne_right, M.leftLt, M.rightLt, BitVec.eq_of_toNat_eq M.leftParent,
      BitVec.eq_of_toNat_eq M.rightParent⟩

/-- The records without PARENT are the entries of the queue, so with one entry left it alone has
none (R23). -/
theorem Forest.parent_eq_nil_iff {r : Idx} (hh : s.heap = [r]) {i : Idx} (hi : i.toNat < k) :
    (nodeAt s i).parent = Config.nil ↔ i = r := by
  have hq := F.queue i
  rw [hh, List.mem_singleton] at hq
  exact ⟨fun hp => hq.2 ⟨hi, hp⟩, fun e => (hq.1 e).2⟩

/-- The walk from the last entry of the queue meets every record (R23, R112). -/
theorem Forest.exists_walkTo {r : Idx} (hh : s.heap = [r]) {i : Idx} (hi : i.toNat < k) :
    ∃ p, walkTo s r p = i := by
  obtain ⟨p, hp⟩ := F.reached hh i.toNat hi
  exact ⟨p, BitVec.eq_of_toNat_eq hp.walkTo⟩

end

/-! ### The built tree -/

section
variable {s t : State} (B : Built s t)
include B

/-- A record below NNODES means that some byte is present (R101). -/
theorem Built.present_of_lt_nnodes {j : Nat} (hj : j < t.nnodes.toNat) :
    (presentBelow s 256).length ≠ 0 := by
  have := B.nnodes_toNat
  omega

/-- ROOT is below NNODES in every tree that is not empty (R23). -/
theorem Built.root_lt_nnodes (h : t.nnodes ≠ 0#10) : t.root.toNat < t.nnodes.toNat := by
  have hpos : 0 < t.nnodes.toNat := Nat.pos_of_ne_zero fun e => h (BitVec.eq_of_toNat_eq e)
  have hroot := B.root_toNat (B.present_of_lt_nnodes hpos)
  have := B.nnodes_toNat
  omega

/-- Every record from NNODES up is cleared (R23). -/
theorem Built.nodeAt_cleared {i : Idx} (hi : t.nnodes.toNat ≤ i.toNat) :
    nodeAt t i = clearedNode := by
  by_cases h0 : (presentBelow s 256).length = 0
  · rw [nodeAt_eq, (B.none h0).1]
    rfl
  · rw [B.nnodes_toNat] at hi
    exact (B.forest h0).fresh i.toNat hi

/-- The tree of a record below NNODES: the forest BLD leaves, with ROOT alone in the queue. -/
theorem Built.tree {j : Nat} (hj : j < t.nnodes.toNat) :
    Forest (presentBelow s 256) t t.nnodes.toNat ∧ t.heap = [t.root] := by
  have h0 := B.present_of_lt_nnodes hj
  rw [B.nnodes_toNat]
  exact ⟨B.forest h0, (B.heap h0).1⟩

end

/-- Settles O18: BLD ends with a forest whose one entry in the queue is ROOT, so R23's clauses are
those of the forest invariant of the merge loop. -/
theorem bldTreeShape : Obligations.BldTreeShape := by
  unfold Obligations.BldTreeShape
  intro s t he h
  obtain ⟨u, B, rfl⟩ := exec_bld_built he h
  refine ⟨B.root_lt_nnodes, fun i hi => B.nodeAt_cleared hi, fun i hi => ?_⟩
  obtain ⟨F, hheap⟩ := B.tree hi
  exact ⟨F.leaf_or_twoChildren hi, F.parent_eq_nil_iff hheap hi, F.exists_walkTo hheap hi⟩

end Sys2Proof.Machine
end

section
/-! Host accesses while the block is idle (R42, R43), and the reserved offsets of the window (R51). -/

namespace Sys2Proof.Machine

/-! ### Accesses of an idle block -/

section
variable {s : State} {a : Nat} (hidle : s.busy = false) (hadm : admitted a 4 = true)
include hidle hadm

/-- An admitted read of an idle block gives the word of its location (R42). -/
theorem readValue_eq_readLoc : readValue s a 4 = readLoc s (locateIn s a) := by
  simp only [readValue, hadm, hidle, Bool.false_and, Bool.false_eq_true, if_true, if_false]

/-- An admitted write to an idle block stores at its location (R43). -/
theorem hostWrite_eq_writeLoc (v : Word) : hostWrite s a 4 v = writeLoc s v (locateIn s a) := by
  simp only [hostWrite, hadm, hidle, Bool.not_false, Bool.and_self, if_true]

end

/-! ### Reserved offsets -/

/-- No aligned offset of a reserved range is the offset of a location that fits its memory, so the
map leads it to the reserved location (R41, R51). -/
theorem locate_eq_reserved {i o a : Nat} (h4 : a % 4 = 0)
    (h : 0x3C ≤ a ∧ a < 0x400 ∨ 0xC00 ≤ a ∧ a < 0x2000 ∨ 0x3FF0 ≤ a ∧ a < 0x4000 ∨
      0x4000 ≤ a ∧ a < 0x8000 ∧ 0x24 ≤ a % 0x40 ∨ 0x8000 ≤ a ∧ a < 0x100000 ∨
      0x100000 + i ≤ a ∧ a < 0x200000 ∨
      0x200000 + o ≤ a ∧ 0x200000 ≤ a ∧ a < 0x400000) : locate i o a = .reserved := by
  obtain hres | hoff := locate_offset i o a h4
  · exact hres
  · have hfits := locate_fits i o a
    cases hl : locate i o a with
    | reserved => rfl
    | _ =>
      simp only [hl, Loc.offset, Loc.fits] at hoff hfits
      omega

/-- Settles O53: a reserved offset leads to the reserved location, which reads 0 and takes no
notice of a write. -/
theorem reservedOffsetsHoldNothing : Obligations.ReservedOffsetsHoldNothing := by
  unfold Obligations.ReservedOffsetsHoldNothing
  intro s a hidle h4 hrange
  have hadm : admitted a 4 = true := (admitted_iff a 4).2 ⟨rfl, h4, by omega⟩
  have hloc : locateIn s a = .reserved := locate_eq_reserved h4 hrange
  refine ⟨?_, fun v => ?_⟩
  · rw [readValue_eq_readLoc hidle hadm, hloc]
    rfl
  · rw [hostWrite_eq_writeLoc hidle hadm, hloc]
    rfl

end Sys2Proof.Machine
end

section
/-! The opcode map read row by row (R60, R61). -/

namespace Sys2Proof

/-- Every row compares the whole word (R61). -/
theorem opcodeMap_mask : ∀ r ∈ opcodeMap, r.mask = BitVec.allOnes 32 := by decide

/-- No two rows have the same word, so a word stands for one command at most. -/
theorem opcodeMap_word_inj : ∀ r ∈ opcodeMap, ∀ r' ∈ opcodeMap, r.word = r'.word → r = r' := by
  decide

/-- A word matches a row exactly when it is the row's word. -/
theorem opcodeMap_match_iff {r : OpRow} (hr : r ∈ opcodeMap) (w : Word) :
    (w &&& r.mask == r.word) = true ↔ r.word = w := by
  rw [opcodeMap_mask r hr, BitVec.and_allOnes, beq_iff_eq, eq_comm]

/-- The search of the opcode map finds a row exactly when it is the row of the word. -/
theorem find_opcodeMap_eq_some_iff {w : Word} {r : OpRow} :
    opcodeMap.find? (fun r => w &&& r.mask == r.word) = some r ↔ r ∈ opcodeMap ∧ r.word = w := by
  have found {r : OpRow} (h : opcodeMap.find? (fun r => w &&& r.mask == r.word) = some r) :
      r ∈ opcodeMap ∧ r.word = w := by
    have hr := List.mem_of_find?_eq_some h
    have hmatch := List.find?_some h
    exact ⟨hr, (opcodeMap_match_iff hr w).1 hmatch⟩
  refine ⟨found, fun ⟨hr, hw⟩ => ?_⟩
  have hsome : (opcodeMap.find? fun r => w &&& r.mask == r.word).isSome :=
    List.find?_isSome.2 ⟨r, hr, (opcodeMap_match_iff hr w).2 hw⟩
  obtain ⟨r', hfind⟩ := Option.isSome_iff_exists.1 hsome
  obtain ⟨hr', hw'⟩ := found hfind
  rw [hfind, opcodeMap_word_inj r' hr' r hr (hw'.trans hw.symm)]

/-- A word decodes to a command exactly when some row has this word and this command (R61). -/
theorem decode_eq_ok_iff {w : Word} {i : Instr} :
    decode w = .ok i ↔ ∃ r ∈ opcodeMap, r.instr = i ∧ r.word = w := by
  constructor
  · intro h
    unfold decode at h
    split at h
    next r hfind =>
      obtain ⟨hr, hw⟩ := find_opcodeMap_eq_some_iff.1 hfind
      exact ⟨r, hr, Except.ok.inj h, hw⟩
    next => cases h
  · rintro ⟨r, hr, rfl, hw⟩
    rw [decode, find_opcodeMap_eq_some_iff.2 ⟨hr, hw⟩]

/-- Settles O1: the nine pairs are the commands and words of the rows of the opcode map, and
`decode` answers the command of the row that has the word. -/
theorem decodeIsTheOpcodeMap : Obligations.DecodeIsTheOpcodeMap := by
  unfold Obligations.DecodeIsTheOpcodeMap
  intro w i
  change _ ↔ (i, w) ∈ opcodeMap.map fun r => (r.instr, r.word)
  simp only [decode_eq_ok_iff, List.mem_map, Prod.mk.injEq]

end Sys2Proof
end

section
/-! CNT as a command of the machine: what it leaves in FREQ (R80 to R84). -/

namespace Sys2Proof.Machine

/-! ### The input sequence -/

/-- The input sequence has IN_LEN bytes (R9). -/
theorem length_inputBytes (s : State) : (inputBytes s).length = s.inLen.toNat := by
  rw [inputBytes, List.length_map, List.length_range]

/-- IN_LEN bounds the occurrences of a byte in the input. -/
theorem count_inputBytes_le (s : State) (b : Byte) : (inputBytes s).count b ≤ s.inLen.toNat :=
  length_inputBytes s ▸ List.count_le_length

/-- A capacity within R4's bounds is at most 2^20. -/
theorem toNat_le_of_capWf {c : Word} (h : capWf c = true) : c.toNat ≤ 2 ^ 20 := by
  simp only [capWf, Bool.and_eq_true, decide_eq_true_eq] at h
  exact h.2

/-! ### The counting loop from a cleared FREQ -/

/-- From a cleared FREQ the loop leaves in each entry the occurrences of its byte, modulo 2^32. -/
theorem freqAt_foldl_countByte_cleared (bs : List Byte) (s : State) (b : Byte) :
    freqAt (bs.foldl countByte { s with freq := [] }) b.toNat = BitVec.ofNat 32 (bs.count b) := by
  rw [freqAt_foldl_countByte]
  exact BitVec.zero_add _

/-! ### The command -/

/-- An accepted CNT whose input fits completes with FREQ cleared and the input counted (R80, R83). -/
theorem exec_cnt_ok {s : State} (he : s.err = false) (hfit : s.inLen ≤ s.icap) :
    exec .cnt s =
      .next (complete ((inputBytes s).foldl countByte { start s with freq := [] })) :=
  runCommand_ok he (cntBody_ok (s := start s) hfit)

/-- Settles O10: CNT counts from a cleared FREQ, and no count reaches 2^32 because IN_LEN is itself
a 32-bit word. -/
theorem cntCountsTheInput : Obligations.CntCountsTheInput := by
  unfold Obligations.CntCountsTheInput
  intro s he hfit
  refine ⟨_, exec_cnt_ok he hfit, ?_, fun b => ?_⟩
  · rw [foldl_countByte_frame]
    rfl
  · have hlt : (inputBytes s).count b < 2 ^ 32 :=
      Nat.lt_of_le_of_lt (count_inputBytes_le s b) s.inLen.isLt
    calc (freqAt ((inputBytes s).foldl countByte { start s with freq := [] }) b.toNat).toNat
        = (BitVec.ofNat 32 ((inputBytes s).count b)).toNat := by
          rw [freqAt_foldl_countByte_cleared]
      _ = (inputBytes s).count b := Nat.mod_eq_of_lt hlt

/-- A completed CNT leaves in FREQ[c] the occurrences of c in the input (R81). -/
theorem freqAt_of_exec_cnt {s t : State} (he : s.err = false) (hfit : s.inLen ≤ s.icap)
    (h : exec .cnt s = .next t) {c : Nat} (hc : c < 256) :
    (freqAt t c).toNat = (inputBytes s).count (BitVec.ofNat 8 c) := by
  obtain ⟨u, hu, -, hcount⟩ := cntCountsTheInput s he hfit
  obtain rfl : u = t := Host.Outcome.next.inj (hu.symm.trans h)
  have hbyte : (BitVec.ofNat 8 c).toNat = c := Nat.mod_eq_of_lt hc
  rw [← hcount, hbyte]

/-- A completed CNT leaves entries that sum to IN_LEN (R82). -/
theorem freqTotal_of_exec_cnt {s t : State} (he : s.err = false) (hfit : s.inLen ≤ s.icap)
    (h : exec .cnt s = .next t) : freqTotal t = s.inLen.toNat := by
  have hentries : (List.range Config.nsymMax).map (fun c => (freqAt t c).toNat) =
      (List.range 256).map fun c => (inputBytes s).count (BitVec.ofNat 8 c) :=
    List.map_congr_left fun c hc => freqAt_of_exec_cnt he hfit h (List.mem_range.1 hc)
  rw [freqTotal, hentries, sum_count_eq_length, length_inputBytes]

/-- Settles O11: each counter is at most IN_LEN, which is at most IBUF_CAP and so at most 2^20; the
counters sum to the length of the input. -/
theorem cntSumsToInLen : Obligations.CntSumsToInLen := by
  unfold Obligations.CntSumsToInLen
  intro s t he hcap hfit h
  refine ⟨fun c hc => ?_, freqTotal_of_exec_cnt he hfit h⟩
  calc (freqAt t c).toNat
      = (inputBytes s).count (BitVec.ofNat 8 c) := freqAt_of_exec_cnt he hfit h hc
    _ ≤ s.inLen.toNat := count_inputBytes_le s _
    _ ≤ s.icap.toNat := hfit
    _ ≤ 2 ^ 20 := toNat_le_of_capWf hcap

end Sys2Proof.Machine
end

section
/-! BLD command by command: it completes from every table (R90, R100), its results on no symbol and
on one symbol (R101, R102), and that it reads FREQ alone (R105). -/

namespace Sys2Proof.Machine

/-! ### A run of BLD -/

/-- An accepted BLD completes, its body leaving the built tree (R90, R194). -/
theorem exec_bld_ok {s : State} (he : s.err = false) :
    ∃ u, bldBody (start s) = .ok u ∧ Built (start s) u ∧ exec .bld s = .next (complete u) := by
  obtain ⟨u, hu, B⟩ := bldBody_built (start s)
  exact ⟨u, hu, B, runCommand_ok he hu⟩

/-- The end state of BLD: the tree, the tree registers and flags are new, all else is as before. -/
theorem Built.complete_frame {s u : State} (B : Built (start s) u) :
    complete u = { s with
      done := true, busy := false, node := u.node, code := u.code, heap := u.heap,
      heapSize := u.heapSize, root := u.root, nnodes := u.nnodes, nsym := u.nsym,
      empty := u.empty, single := u.single } :=
  congrArg complete B.frame

/-! ### The tree registers -/

section
variable {s t : State} (B : Built s t)
include B

/-- EMPTY is set exactly on the empty table (R100). -/
theorem Built.empty_iff : t.empty = true ↔ presentBelow s 256 = [] := by
  rw [B.empty, emptyFlag, beq_iff_eq, List.length_eq_zero_iff]

/-- SINGLE is set exactly on a table of one symbol (R100). -/
theorem Built.single_iff : t.single = true ↔ (presentBelow s 256).length = 1 := by
  rw [B.single, singleFlag, beq_iff_eq]

/-- ROOT is the last record merged (R97, R100). -/
theorem Built.root_eq (h0 : (presentBelow s 256).length ≠ 0) :
    t.root = BitVec.ofNat 9 (2 * (presentBelow s 256).length - 2) := by
  have hroot := B.root_toNat h0
  have hlen := presentBelow_length_le s 256
  refine BitVec.eq_of_toNat_eq ?_
  rw [ofNat9_toNat (by omega)]
  omega

end

/-- Settles O13: the body always ends in a built tree, whose registers count the present symbols. -/
theorem bldCompletesFromEveryTable : Obligations.BldCompletesFromEveryTable := by
  unfold Obligations.BldCompletesFromEveryTable
  intro s he
  obtain ⟨u, -, B, hrun⟩ := exec_bld_ok he
  refine ⟨complete u, hrun, B.complete_frame, B.nsym_toNat, B.nnodes_toNat, B.empty_iff,
    B.single_iff, fun hnil => ?_, fun hne => ?_⟩
  · obtain ⟨-, -, -, hsize, hroot⟩ := B.none (List.length_eq_zero_iff.2 hnil)
    exact ⟨hroot, hsize⟩
  · have h0 := mt List.eq_nil_of_length_eq_zero hne
    obtain ⟨hheap, hsize⟩ := B.heap h0
    exact ⟨B.root_eq h0, hsize, congrArg (heapAt · 0) hheap⟩

/-! ### The empty table -/

/-- Settles O14: no symbol is present, so phase 1 ends the command. -/
theorem bldOnTheEmptyTable : Obligations.BldOnTheEmptyTable := by
  unfold Obligations.BldOnTheEmptyTable
  intro s he hz
  obtain ⟨u, -, B, hrun⟩ := exec_bld_ok he
  have hpres : presentBelow (start s) 256 = [] := presentBelow_eq_nil.2 hz
  obtain ⟨hnode, hcode, hheap, hsize, hroot⟩ := B.none (List.length_eq_zero_iff.2 hpres)
  rw [hrun, B.complete_frame, hnode, hcode, hheap, hsize, hroot, B.nnodes, B.nsym, B.empty,
    B.single, hpres]
  rfl

/-! ### A table of one symbol -/

/-- The first entry of a sparse memory. -/
theorem Table.put_nil {α : Type} [DecidableEq α] {d v : α} (k : Nat) (hv : v ≠ d) :
    Table.put d [] k v = [(k, v)] := if_neg hv

/-- A seeded record without PARENT is the leaf as phase 1 wrote it (R93). -/
theorem Seeded.eq_leafNode {node : Table NodeRec} {i b : Nat} {f : Word} (L : Seeded node i b f)
    (hparent : (recAt node i).parent = Config.nil) : recAt node i = leafNode b f := by
  calc recAt node i
      = ⟨(recAt node i).kind, (recAt node i).sym, (recAt node i).freq, (recAt node i).left,
          (recAt node i).right, (recAt node i).parent⟩ := rfl
    _ = leafNode b f := by rw [L.kind, L.sym, L.freq, L.left, L.right, hparent]; rfl

/-- A byte that alone has a non-zero entry is the one present symbol. -/
theorem presentBelow_eq_singleton {s : State} {b : Nat} (hb : b < 256) (hf : freqAt s b ≠ 0#32)
    (hz : ∀ c, c < 256 → c ≠ b → freqAt s c = 0#32) : presentBelow s 256 = [b] := by
  have hnodup : (presentBelow s 256).Nodup := List.nodup_range.filter _
  refine List.perm_singleton.1 ((List.perm_ext_iff_of_nodup hnodup (List.nodup_singleton b)).2 ?_)
  intro c
  rw [mem_presentBelow, List.mem_singleton]
  constructor
  · rintro ⟨hc, hne⟩
    exact by_contra fun hcb => hne (hz c hc hcb)
  · rintro rfl
    exact ⟨hb, hf⟩

section
variable {s t : State} {b : Nat} (B : Built s t) (hpres : presentBelow s 256 = [b])
include B hpres

/-- The arena of one symbol holds its leaf, which is ROOT and so has no PARENT (R102). -/
theorem Built.node_of_singleton : t.node = [(0, leafNode b (Machine.freqAt s b))] := by
  have hlen : (presentBelow s 256).length = 1 := congrArg List.length hpres
  have F := B.forest (by omega)
  rw [hpres] at F
  have hparent := B.root_parent (by omega)
  rw [B.root_eq (by omega), hlen] at hparent
  have hleaf : recAt t.node 0 = leafNode b (Machine.freqAt s b) := by
    rw [← B.freqAt]
    exact (F.leaf 0 Nat.one_pos).eq_leafNode hparent
  have hne : leafNode b (Machine.freqAt s b) ≠ clearedNode := fun h => by
    cases congrArg NodeRec.kind h
  rw [← Table.put_nil 0 hne]
  refine Table.ext_get _ _ _ _ F.arena (Table.wf_put _ _ _ _ _ (by decide) rfl) fun k => ?_
  rw [Table.get_put]
  split_ifs with hk
  · rw [hk]
    exact hleaf
  · exact F.fresh k (Nat.pos_of_ne_zero hk)

/-- The code table of one symbol holds the code "0" for it (R102). -/
theorem Built.code_of_singleton : t.code = [(b, ⟨1#8, 0#256⟩)] := by
  have hlen : (presentBelow s 256).length = 1 := congrArg List.length hpres
  have hsym : (recAt t.node 0).sym.toNat = b := by
    rw [B.sym_toNat (by omega)]
    simp only [hpres, List.getElem_cons_zero]
  rw [B.one hlen, hsym, Table.put_nil b (by decide)]

end

/-- Settles O15: the one leaf is ROOT, and its byte has the code "0". -/
theorem bldOnOneSymbol : Obligations.BldOnOneSymbol := by
  unfold Obligations.BldOnOneSymbol
  intro s b he hb hf hz
  obtain ⟨u, -, B, hrun⟩ := exec_bld_ok he
  have hpres : presentBelow (start s) 256 = [b] := presentBelow_eq_singleton hb hf hz
  have h0 : (presentBelow (start s) 256).length ≠ 0 := by rw [hpres]; exact Nat.one_ne_zero
  obtain ⟨hheap, hsize⟩ := B.heap h0
  rw [hrun, B.complete_frame, B.node_of_singleton hpres, B.code_of_singleton hpres, hheap, hsize,
    B.root_eq h0, B.nnodes, B.nsym, B.empty, B.single, hpres]
  rfl

/-! ### Determinism -/

/-- Settles O23: the two bodies read the same FREQ and so end in the same tree. -/
theorem bldIsAFunctionOfFreq : Obligations.BldIsAFunctionOfFreq := by
  unfold Obligations.BldIsAFunctionOfFreq
  intro s s' t t' he he' hfreq h h'
  obtain ⟨u, hu, -, hrun⟩ := exec_bld_ok he
  obtain ⟨u', hu', -, hrun'⟩ := exec_bld_ok he'
  obtain rfl : complete u = t := Host.Outcome.next.inj (hrun.symm.trans h)
  obtain rfl : complete u' = t' := Host.Outcome.next.inj (hrun'.symm.trans h')
  have S : SameTree u u' := bldBody_congr (s := start s) (s' := start s') hfreq hu hu'
  exact ⟨S.node, S.root, S.nnodes, S.nsym, S.code, S.empty, S.single, S.heapSize, S.heap⟩

end Sys2Proof.Machine
end

section
/-! What BLD's tree means: frequency conservation (R108), the codes as paths (R103), and that no
code begins another (R107). -/

namespace Sys2Proof.Machine

/-! ### Frequencies -/

/-- The entries that are 0 add nothing to the sum of FREQ. -/
theorem sum_presentBelow (s : State) (m : Nat) :
    ((presentBelow s m).map fun b => (freqAt s b).toNat).sum =
      ((List.range m).map fun b => (freqAt s b).toNat).sum := by
  induction m with
  | zero => rfl
  | succ m ih =>
    rw [presentBelow_succ, List.range_succ, List.map_append, List.map_append, List.sum_append,
      List.sum_append, ih]
    split_ifs with hz
    · simp [hz]
    · rfl

/-- The sum of FREQ is the sum over the present symbols (R108). -/
theorem freqTotal_eq_sum_present (s : State) :
    freqTotal s = ((presentBelow s 256).map fun b => (freqAt s b).toNat).sum :=
  (sum_presentBelow s 256).symm

section
variable {s t : State} (B : Built s t)
include B

/-- The queue holds ROOT alone, so ROOT has the frequency of the whole table (R108). -/
theorem Built.root_freq (h0 : (presentBelow s 256).length ≠ 0) :
    (nodeAt t t.root).freq.toNat = freqTotal s := by
  have htotal := (B.forest h0).total
  rw [(B.heap h0).1, List.map_singleton, List.sum_singleton] at htotal
  simp only [B.freqAt] at htotal
  rw [freqTotal_eq_sum_present]
  exact htotal

/-- The indexes of the leaves are 0 to n - 1 (R93). -/
theorem Built.filter_leaf :
    (List.range t.nnodes.toNat).filter (fun i => (nodeAt t (BitVec.ofNat 9 i)).kind = .leaf) =
      List.range (presentBelow s 256).length := by
  have hlen := presentBelow_length_le s 256
  have hnodes := B.nnodes_toNat
  have leaf_iff : ∀ i ∈ List.range t.nnodes.toNat,
      (nodeAt t (BitVec.ofNat 9 i)).kind = .leaf ↔ i < (presentBelow s 256).length := by
    intro i hi
    have hi := List.mem_range.1 hi
    rw [nodeAt_eq, ofNat9_toNat (by omega)]
    exact ⟨B.leaf_lt, fun h => ((B.forest (by omega)).leaf i h).kind⟩
  calc (List.range t.nnodes.toNat).filter (fun i => (nodeAt t (BitVec.ofNat 9 i)).kind = .leaf)
      = (List.range t.nnodes.toNat).filter (fun i => i < (presentBelow s 256).length) :=
        List.filter_congr fun i hi => decide_eq_decide.2 (leaf_iff i hi)
    _ = List.range (presentBelow s 256).length := by
        rw [← List.Ico.zero_bot, List.Ico.filter_lt, min_eq_right (by omega), List.Ico.zero_bot]

/-- The leaf of the m-th present symbol has its FREQ entry, so the leaves have the frequency of the
whole table (R93, R108). -/
theorem Built.sum_leaf_freq :
    (((List.range t.nnodes.toNat).filter
        (fun i => (nodeAt t (BitVec.ofNat 9 i)).kind = .leaf)).map
          (fun i => (nodeAt t (BitVec.ofNat 9 i)).freq.toNat)).sum = freqTotal s := by
  rw [B.filter_leaf, freqTotal_eq_sum_present]
  refine congrArg List.sum (List.ext_getElem (by simp) fun m _ hm => ?_)
  rw [List.length_map] at hm
  have hlen := presentBelow_length_le s 256
  rw [List.getElem_map, List.getElem_range, List.getElem_map, nodeAt_eq, ofNat9_toNat (by omega),
    ((B.forest (by omega)).leaf m hm).freq, B.freqAt,
    BitVec.toNat_setWidth_of_le (by decide)]

end

/-- Settles O19: ROOT and the leaves each carry the sum of the present entries, and CNT's entries
sum to IN_LEN. -/
theorem bldConservesFrequency : Obligations.BldConservesFrequency := by
  unfold Obligations.BldConservesFrequency
  intro s t he hne h
  obtain ⟨u, B, rfl⟩ := exec_bld_built he h
  exact ⟨B.root_freq (mt List.eq_nil_of_length_eq_zero hne), B.sum_leaf_freq,
    fun r hr _ hfit hcnt => freqTotal_of_exec_cnt hr hfit hcnt⟩

/-! ### Codes -/

/-- No path goes on from a leaf. -/
theorem Reaches.of_leaf {node : Table NodeRec} {i j : Nat} {p : List Bool}
    (h : Reaches node i p j) (hi : (recAt node i).kind = .leaf) : i = j := by
  cases p with
  | nil => exact h
  | cons b p =>
    obtain ⟨hint, -⟩ := h
    rw [hi] at hint
    cases hint

section
variable {s t : State} (B : Built s t)
include B

/-- With two or more symbols the code of a leaf's byte is the path from ROOT to that leaf (R103). -/
theorem Built.reaches_leaf (h2 : 2 ≤ (presentBelow s 256).length) {i : Nat}
    (hi : (recAt t.node i).kind = .leaf) :
    Reaches t.node t.root.toNat (codeBits (codeAt t (recAt t.node i).sym)) i ∧
      codeAt t (recAt t.node i).sym =
        codeOfPath (codeBits (codeAt t (recAt t.node i).sym)) := by
  obtain ⟨j, p, hp, hj, hsym, hcode, hbits, -, -⟩ := B.code_present h2 (B.sym_present hi)
  obtain rfl := B.sym_inj hj hi hsym
  rw [hbits]
  exact ⟨hp, hcode⟩

/-- With two or more symbols a code that begins another is that code, as its path ends at a leaf
(R107). -/
theorem Built.eq_of_code_isPrefix (h2 : 2 ≤ (presentBelow s 256).length) {a b : Byte}
    (ha : Machine.freqAt s a.toNat ≠ 0#32) (hb : Machine.freqAt s b.toNat ≠ 0#32)
    (h : (codeBits (codeAt t a)).IsPrefix (codeBits (codeAt t b))) : a = b := by
  obtain ⟨i, hi, rfl⟩ := B.exists_leaf ha
  obtain ⟨j, hj, rfl⟩ := B.exists_leaf hb
  obtain ⟨q, hq⟩ := h
  have hpath := (B.reaches_leaf h2 hj).1
  rw [← hq] at hpath
  obtain ⟨l, hl, hrest⟩ := hpath.of_append
  obtain rfl := hl.unique (B.reaches_leaf h2 hi).1
  rw [hrest.of_leaf hi]

/-- A table of one symbol gives a code to one byte (R102). -/
theorem Built.eq_of_single (h1 : (presentBelow s 256).length = 1) {a b : Byte}
    (ha : Machine.freqAt s a.toNat ≠ 0#32) (hb : Machine.freqAt s b.toNat ≠ 0#32) : a = b := by
  obtain ⟨-, -, -, hsa⟩ := B.code_one h1 ha
  obtain ⟨-, -, -, hsb⟩ := B.code_one h1 hb
  exact hsa.symm.trans hsb

end

/-- Settles O20: BLD writes for each leaf the path to it, and no entry for an absent byte. -/
theorem bldCodesAreThePaths : Obligations.BldCodesAreThePaths := by
  unfold Obligations.BldCodesAreThePaths
  intro s t he h
  obtain ⟨u, B, rfl⟩ := exec_bld_built he h
  refine ⟨fun h2 i hi hleaf => ?_, fun b hb => B.code_absent hb⟩
  obtain ⟨F, hheap⟩ := B.tree hi
  obtain ⟨hpath, hcode⟩ := B.reaches_leaf h2 hleaf
  have leads := F.leadsTo (F.le_510 (congrArg List.length hheap).ge) hpath hleaf
  exact ⟨BitVec.eq_of_toNat_eq hpath.walkTo,
    (leadsTo_congr (s := u) (s' := complete u) rfl _ _ _).trans leads, hcode⟩

/-- Settles O22: only present bytes have codes; one symbol gives one code, and two or more give the
paths to distinct leaves. -/
theorem bldCodesArePrefixFree : Obligations.BldCodesArePrefixFree := by
  unfold Obligations.BldCodesArePrefixFree
  intro s t he h a b hne hca hcb hbegins
  obtain ⟨u, B, rfl⟩ := exec_bld_built he h
  have ha := (B.hasCode_iff a).1 hca
  have hb := (B.hasCode_iff b).1 hcb
  have hpos : 0 < (presentBelow (start s) 256).length :=
    List.length_pos_of_mem (mem_presentBelow.2 ⟨a.isLt, ha⟩)
  refine hne ?_
  by_cases h1 : (presentBelow (start s) 256).length = 1
  · exact B.eq_of_single h1 ha hb
  · exact B.eq_of_code_isPrefix (by omega) ha hb hbegins

end Sys2Proof.Machine
end

section
/-! ENC as a command of the machine: the output sequence and the size it leaves (R120 to R125). -/

namespace Sys2Proof.Machine

/-! ### The flushed output -/

section
variable {s0 t : State} {bits : List Bool} (F : Flushed s0 bits t)
include F

/-- OUT_LEN is the number of bits in whole bytes, a last partial byte counted (R122, R124). -/
theorem Flushed.outLen_toNat : t.outLen.toNat = (bits.length + 7) / 8 := by
  obtain ⟨vs, hvs, hlen, -⟩ := F.bytes
  rw [hvs.len, hlen]

/-- The output sequence is the packed bits, padded with zero bits to a whole byte (R121, R122). -/
theorem Flushed.outputBit {k : Nat} (hk : k < 8 * t.outLen.toNat) :
    outputBit t k = bits.getD k false := by
  obtain ⟨vs, hvs, -, hbits⟩ := F.bytes
  rw [hvs.len] at hk
  have hbyte : k / 8 < vs.length := by omega
  calc Machine.outputBit t k
      = (vs.getD (k / 8) 0#8).getLsbD (7 - k % 8) := by
        rw [Machine.outputBit, hvs.obufByte hbyte, List.getD_eq_getElem _ _ hbyte]
    _ = bits.getD k false := hbits k hk

/-- NBITS counts the bits exactly when they fit a capacity within R4's bounds (R124). -/
theorem Flushed.nbits_toNat {c : Word} (hcap : capWf c = true)
    (hroom : (bits.length + 7) / 8 ≤ c.toNat) : t.nbits.toNat = bits.length := by
  have hc := toNat_le_of_capWf hcap
  have hlt : bits.length < 2 ^ 32 := by omega
  rw [F.nbits, BitVec.toNat_ofNat, Nat.mod_eq_of_lt hlt]

end

/-! ### The command -/

/-- When every input byte has a code and OBUF has room, ENC's body packs and pads all codes (R120). -/
theorem encBody_ok {s : State} (hfit : s.inLen ≤ s.icap)
    (hcodes : ∀ b ∈ inputBytes s, hasCode s b = true)
    (hroom : ((codesOf s (inputBytes s)).length + 7) / 8 ≤ s.ocap.toNat) :
    ∃ t, encBody s = .ok t ∧ Flushed (encStart s) (codesOf s (inputBytes s)) t := by
  have hwhole : (0 + (codesOf s (inputBytes s)).length) / 8 ≤ s.ocap.toNat := by omega
  obtain ⟨p, hp, P⟩ := encBytes_ok 0 (inputBytes s) (packed_encStart s) hcodes hwhole
  obtain ⟨t, ht, F⟩ := flush_ok P hroom
  exact ⟨t, (encBody_flush hfit hp).trans ht, F⟩

/-- Settles O24: the packer keeps whole bytes in OBUF and the rest in ACC, the final byte pads the
rest with zero bits, and a total that fits OBUF is far below 2^32. -/
theorem encPacksTheCodes : Obligations.EncPacksTheCodes := by
  unfold Obligations.EncPacksTheCodes
  intro s he hfit hcodes hroom
  obtain ⟨u, hu, F⟩ := encBody_ok (s := start s) hfit hcodes hroom
  exact ⟨complete u, runCommand_ok he hu, congrArg complete F.frame, F.nbits,
    fun hcap => F.nbits_toNat hcap hroom, F.outLen_toNat, fun _ hk => F.outputBit hk⟩

/-- On the empty input ENC's body ends as it starts: no byte is looked up, no bit is left to
flush (R125). -/
theorem encBody_of_inLen_eq_zero {s : State} (h0 : s.inLen = 0#32) : encBody s = .ok (encStart s) := by
  have hfit : s.inLen ≤ s.icap := by rw [h0, BitVec.le_def]; exact Nat.zero_le _
  have hnone : inputBytes s = [] := by rw [inputBytes, h0]; rfl
  have hbytes : encBytes 0 (inputBytes s) (encStart s) = .ok (encStart s) := by rw [hnone]; rfl
  have hflush : flush (encStart s) = .ok (encStart s) := rfl
  exact (encBody_flush hfit hbytes).trans hflush

/-- Settles O27: ENC of the empty input does nothing but start and complete. -/
theorem encOnEmptyInput : Obligations.EncOnEmptyInput := by
  unfold Obligations.EncOnEmptyInput
  intro s he h0
  exact runCommand_ok he (encBody_of_inLen_eq_zero (s := start s) h0)

end Sys2Proof.Machine
end

section
/-! DEC and DECX as commands of the machine: what the walk over their bits answers decides how they
end (R135, R136); the walks that fault at a damaged tree (R143) or never leave a LEAF root (R141). -/

namespace Sys2Proof.Machine

/-! ### The commands -/

/-- The end of a counted decode passes when no bit was asked for or the cursor is at the root (R145). -/
theorem checkAtRoot_ok {t : State} (h : t.nbits = 0#32 ∨ t.cur = t.root) :
    checkAtRoot t = .ok (clearCur t) := by
  obtain h | h := h <;> simp [checkAtRoot, h]

/-- The two decoders, each with the number of bits it consumes (R135, R136). -/
theorem dec_or_decx {s : State} {i : Instr} {nb : Nat}
    (hcmd : (i, nb) ∈ [(Instr.dec, s.nbits.toNat), (.decx, 8 * s.inLen.toNat)]) :
    i = .dec ∧ nb = s.nbits.toNat ∨ i = .decx ∧ nb = 8 * s.inLen.toNat := by
  simpa using hcmd

section
variable {s : State} {i : Instr} {nb : Nat}
  (hcmd : (i, nb) ∈ [(Instr.dec, s.nbits.toNat), (.decx, 8 * s.inLen.toNat)])
  (he : s.err = false) (hfit : s.inLen ≤ s.icap) (hnb : nb ≤ 8 * s.inLen.toNat)
include hcmd he hfit hnb

/-- A walk that faults ends the command with its fault, the output discarded (R192). -/
theorem exec_of_walk_error {f : Trap} (hw : walk nb (clearOutput (start s)) = .error f) :
    exec i s = .next (raise .output f s) := by
  obtain ⟨rfl, rfl⟩ | ⟨rfl, rfl⟩ := dec_or_decx hcmd
  · exact runCommand_error he (decBody_error (s := start s) hfit hnb hw)
  · exact runCommand_error he (decxBody_error (s := start s) hfit hw)

/-- A walk that consumes its bits completes the command, DEC only with the cursor at the root or
with no bit asked for (R135, R136, R145). -/
theorem exec_of_walk_ok {t : State} (hw : walk nb (clearOutput (start s)) = .ok t)
    (hend : i = .dec → t.nbits = 0#32 ∨ t.cur = t.root) :
    exec i s = .next (complete (clearCur t)) := by
  obtain ⟨rfl, rfl⟩ | ⟨rfl, rfl⟩ := dec_or_decx hcmd
  · exact runCommand_ok he
      ((decBody_walked (s := start s) hfit hnb hw).trans (checkAtRoot_ok (hend rfl)))
  · exact runCommand_ok he (decxBody_walked (s := start s) hfit hw)

/-- With no bit to consume the command only clears its output (R147). -/
theorem exec_of_no_bits (h0 : nb = 0) :
    exec i s = .next (complete (clearCur (clearOutput (start s)))) := by
  refine exec_of_walk_ok hcmd he hfit hnb (t := clearOutput (start s)) (by simp [walk, h0]) ?_
  rintro rfl
  have hnbits : nb = s.nbits.toNat := by simpa using hcmd
  exact .inl (BitVec.eq_of_toNat_eq (hnbits.symm.trans h0))

/-- With bits to consume and no root the command faults at bit 0, naming NIL (R147). -/
theorem exec_of_no_root (h0 : nb ≠ 0) (hroot : s.root = Config.nil) :
    exec i s = .next (raise .output (corruptTree Config.nil 0) s) :=
  exec_of_walk_error hcmd he hfit hnb (by simp [walk, h0, hroot])

/-- With a root, a fault over the bits of the input ends the command with that fault. -/
theorem exec_of_walkBits_error {f : Trap} (hroot : s.root ≠ Config.nil)
    (hw : walkBits 0 (inputBits s nb) { clearOutput (start s) with cur := s.root } = .error f) :
    exec i s = .next (raise .output f s) := by
  have h0 : nb ≠ 0 := by
    rintro rfl
    cases hw
  exact exec_of_walk_error hcmd he hfit hnb ((walk_clearOutput (s := start s) h0 hroot).trans hw)

/-- With a root, a walk over the bits of the input that ends at it completes the command with the
bytes emitted on the way. -/
theorem exec_of_walkBits_ok {t : State} {vs : List Byte} (hroot : s.root ≠ Config.nil)
    (hw : walkBits 0 (inputBits s nb) { clearOutput (start s) with cur := s.root } = .ok t)
    (W : Walked (clearOutput (start s)) vs s.root t) :
    exec i s = .next (complete (clearCur t)) := by
  by_cases h0 : nb = 0
  · have hno := exec_of_no_bits hcmd he hfit hnb h0
    subst h0
    cases hw
    exact hno
  · exact exec_of_walk_ok hcmd he hfit hnb ((walk_clearOutput (s := start s) h0 hroot).trans hw)
      fun _ => .inr (W.cur.trans W.root.symm)

end

/-- Settles O32: with no bit the walk is empty, with bits and no root it faults at once. -/
theorem decodingNothingSucceeds : Obligations.DecodingNothingSucceeds := by
  unfold Obligations.DecodingNothingSucceeds
  intro s he hfit
  have hdec : (Instr.dec, s.nbits.toNat) ∈
      [(Instr.dec, s.nbits.toNat), (.decx, 8 * s.inLen.toNat)] := by simp
  have hdecx : (Instr.decx, 8 * s.inLen.toNat) ∈
      [(Instr.dec, s.nbits.toNat), (.decx, 8 * s.inLen.toNat)] := by simp
  refine ⟨fun h0 => ?_, fun h0 => ?_, fun hroot h0 hnb => ?_, fun hroot h0 => ?_⟩
  · exact exec_of_no_bits hdec he hfit (by simp [h0]) (by simp [h0])
  · exact exec_of_no_bits hdecx he hfit le_rfl (by simp [h0])
  · exact exec_of_no_root hdec he hfit hnb (by simpa [← BitVec.toNat_inj] using h0) hroot
  · exact exec_of_no_root hdecx he hfit le_rfl (by simpa [← BitVec.toNat_inj] using h0) hroot

/-! ### A fault after codewords -/

/-- The codewords are those of the tree the command found. -/
theorem codeword_walkStart (s : State) (p : List Bool) (v : Byte) :
    codeword (clearOutput (start s)) p v = codeword s p v :=
  codeword_congr (s := s) (s' := clearOutput (start s)) rfl rfl p v

/-- The paths inside the tree are those of the tree the command found. -/
theorem staysInside_walkStart (s : State) (j : Idx) (p : List Bool) :
    staysInside (clearOutput (start s)) j p = staysInside s j p :=
  staysInside_congr (s := s) (s' := clearOutput (start s)) rfl j p

/-- After codewords and a path inside the tree, a faulting step ends the walk with its fault. -/
theorem walkBits_error_after_codewords {s0 s : State} (h : Walked s0 [] s0.root s)
    {ws : List (List Bool × Byte)} {p : List Bool} (hws : ∀ w ∈ ws, codeword s0 w.1 w.2 = true)
    (hp : p = [] ∨ staysInside s0 s0.root p = true) (hroom : ws.length ≤ s0.ocap.toNat)
    {bit : Bool} {f : Trap} (rest : List Bool)
    (hstep : ∀ t, Walked s0 (ws.map Prod.snd) (walkTo s0 s0.root p) t →
      walkStep ((ws.flatMap Prod.fst).length + p.length) bit t = .error f) :
    walkBits 0 (ws.flatMap Prod.fst ++ p ++ bit :: rest) s = .error f := by
  obtain ⟨t, ht, W⟩ := walkBits_codewords_inside h ws p hws hp hroom
  rw [walkBits_append, ht]
  simp only [Nat.zero_add, List.length_append, walkBits, hstep t W]

/-- Settles O34: the codewords and the path bring the cursor to the record before the damage, and
the next step faults there. -/
theorem decFaultsOnACorruptTree : Obligations.DecFaultsOnACorruptTree := by
  unfold Obligations.DecFaultsOnACorruptTree
  intro s i nb ws p rest bit x hcmd he hfit hnb hroot hin hws hp hroom hx
  have hws' : ∀ w ∈ ws, codeword (clearOutput (start s)) w.1 w.2 = true := fun w hw => by
    rw [codeword_walkStart, hws w hw]
  have hp' : p = [] ∨ staysInside (clearOutput (start s)) s.root p = true := by
    rwa [staysInside_walkStart]
  have hfault := walkBits_error_after_codewords (walked_start (start s)) hws' hp' hroom rest
    fun _ W => walkStep_corrupt W _ bit x hx
  rw [start_root, ← hin] at hfault
  exact exec_of_walkBits_error hcmd he hfit hnb hroot hfault

/-! ### A root that is a leaf -/

/-- At a leaf root k bits 0 emit its byte k times (R141). -/
theorem walkBits_leafRoot_zeros {s0 s : State} (h : Walked s0 [] s0.root s)
    (hleaf : (nodeAt s0 s0.root).kind = .leaf) {k : Nat} (hroom : k ≤ s0.ocap.toNat) :
    ∃ t, walkBits 0 (List.replicate k false) s = .ok t ∧
      Walked s0 (List.replicate k (nodeAt s0 s0.root).sym) s0.root t := by
  have hzero : codeword s0 [false] (nodeAt s0 s0.root).sym = true := by simp [codeword, hleaf]
  obtain ⟨t, ht, W⟩ := walkBits_codewords h 0 (List.replicate k ([false], (nodeAt s0 s0.root).sym))
    (fun w hw => by rw [List.eq_of_mem_replicate hw]; exact hzero) (by simpa using hroom)
  exact ⟨t, by simpa [List.flatMap_replicate] using ht, by simpa using W⟩

/-- Settles O35: the bit 0 is the codeword of the root's byte, so k of them emit it k times and the
cursor stays at the root, where a bit 1 faults. -/
theorem leafRootDecodesZeroBits : Obligations.LeafRootDecodesZeroBits := by
  unfold Obligations.LeafRootDecodesZeroBits
  intro s i nb k rest hcmd he hfit hnb hroot hleaf hroom
  refine ⟨fun hin => ?_, fun hin => ?_⟩
  · obtain ⟨t, ht, W⟩ := walkBits_leafRoot_zeros (walked_start (start s)) hleaf hroom
    rw [start_root, ← hin] at ht
    have D := W.decoded (s := start s) (by simpa using hroom)
    refine ⟨_, exec_of_walkBits_ok hcmd he hfit hnb hroot ht W, congrArg complete D.frame,
      ?_, W.holds.outputBytes⟩
    simpa using W.holds.len
  · have hfault := walkBits_leafRoot (s0 := clearOutput (start s)) hleaf 0 (walked_start (start s)) k
      (by simpa using hroom) rest
    rw [start_root, ← hin, Nat.zero_add] at hfault
    exact exec_of_walkBits_error hcmd he hfit hnb hroot hfault

end Sys2Proof.Machine
end

section
/-! CMP = CNT; BLD; ENC (R155): after CNT and BLD every input byte has a code (R157), and the result
of ENC has the size of the counted codes (R162). -/

namespace Sys2Proof.Machine

/-! ### CNT, then BLD -/

/-- Every input byte has a code (R157), and a tree is there in which this code is its codeword. -/
structure Coded (s : State) : Prop where
  hasCode : ∀ b ∈ inputBytes s, hasCode s b = true
  codeword : ∀ b ∈ inputBytes s, codeword s (codeBits (codeAt s b)) b = true
  root : ∀ b ∈ inputBytes s, s.root ≠ Config.nil

section
variable {s t : State} (he : s.err = false)
include he

/-- A completed CNT writes FREQ, DONE and BUSY (R84, R194). -/
theorem exec_cnt_frame (hfit : s.inLen ≤ s.icap) (h : exec .cnt s = .next t) :
    t = { s with done := true, busy := false, freq := t.freq } := by
  obtain ⟨u, hu, hframe, -⟩ := cntCountsTheInput s he hfit
  obtain rfl : u = t := Host.Outcome.next.inj (hu.symm.trans h)
  exact hframe

/-- BLD writes the tree, its registers and flags, the codes, DONE and BUSY (R90, R194). -/
theorem exec_bld_frame (h : exec .bld s = .next t) :
    t = { s with
      done := true, busy := false, node := t.node, code := t.code, heap := t.heap,
      heapSize := t.heapSize, root := t.root, nnodes := t.nnodes, nsym := t.nsym,
      empty := t.empty, single := t.single } := by
  obtain ⟨u, B, rfl⟩ := exec_bld_built he h
  exact B.complete_frame

/-- CNT leaves a non-zero entry for every byte of the input (R157). -/
theorem freqAt_ne_zero_of_exec_cnt (hfit : s.inLen ≤ s.icap) (h : exec .cnt s = .next t) :
    ∀ b ∈ inputBytes t, freqAt t b.toNat ≠ 0#32 := by
  intro b hb hzero
  have hin : inputBytes t = inputBytes s := by rw [exec_cnt_frame he hfit h]; rfl
  have hcount := freqAt_of_exec_cnt he hfit h b.isLt
  rw [hzero, BitVec.ofNat_toNat, BitVec.setWidth_eq] at hcount
  rw [hin] at hb
  exact (List.count_pos_iff.2 hb).ne hcount

/-- BLD on a table that lists every input byte gives each its codeword as its code (R103, R157). -/
theorem coded_of_exec_bld (hfreq : ∀ b ∈ inputBytes s, freqAt s b.toNat ≠ 0#32)
    (h : exec .bld s = .next t) : Coded t := by
  have hin : inputBytes t = inputBytes s := by rw [exec_bld_frame he h]; rfl
  obtain ⟨u, B, rfl⟩ := exec_bld_built he h
  rw [← hin] at hfreq
  refine ⟨fun b hb => (B.hasCode_iff b).2 (hfreq b hb), fun b hb => ?_, fun b hb hnil => ?_⟩
  · exact (codeword_congr (s := u) (s' := complete u) rfl rfl _ b).trans (B.codeword (hfreq b hb))
  · have hmem := mem_presentBelow.2 ⟨b.isLt, hfreq b hb⟩
    have hroot := B.root_toNat (List.length_pos_of_mem hmem).ne'
    have hle := presentBelow_length_le (start s) 256
    rw [show u.root = Config.nil from hnil, show Config.nil.toNat = 511 from rfl] at hroot
    omega

end

section
variable {s t u : State} (he : s.err = false) (hfit : s.inLen ≤ s.icap)
  (hcnt : exec .cnt s = .next t) (hbld : exec .bld t = .next u)
include he hfit hcnt hbld

/-- CNT and BLD together write FREQ, the tree, its registers and flags, the codes, DONE and BUSY. -/
theorem cnt_bld_frame : u = { s with
    done := true, busy := false, freq := t.freq, node := u.node, code := u.code, heap := u.heap,
    heapSize := u.heapSize, root := u.root, nnodes := u.nnodes, nsym := u.nsym,
    empty := u.empty, single := u.single } := by
  have ht := exec_cnt_frame he hfit hcnt
  have het : t.err = false := by rw [ht]; exact he
  have hu := exec_bld_frame het hbld
  rw [ht] at hu
  exact hu

/-- After CNT and BLD every input byte has its codeword as its code (R157). -/
theorem coded_of_cnt_bld : Coded u := by
  have het : t.err = false := by rw [exec_cnt_frame he hfit hcnt]; exact he
  exact coded_of_exec_bld het (freqAt_ne_zero_of_exec_cnt he hfit hcnt) hbld

end

/-! ### ENC after them -/

/-- When every input byte has a code, ENC's body can fault with BufferOverflow only (R157). -/
theorem encBody_error_of_hasCode {s : State} {f : Trap}
    (hcodes : ∀ b ∈ inputBytes s, hasCode s b = true) (h : encBody s = .error f) :
    f.cause = .bufferOverflow := by
  rcases checkInLen_cases s with ⟨hle, -⟩ | ⟨-, hlong⟩
  · cases hbytes : encBytes 0 (inputBytes s) (encStart s) with
    | error g =>
      rw [encBody_error hle hbytes] at h
      cases h
      exact encBytes_known 0 _ (encStart s) _ hcodes hbytes
    | ok t =>
      rw [encBody_flush hle hbytes] at h
      rw [flush_error t f h]
  · rw [encBody, hlong] at h
    cases h
    rfl

/-- Settles O37: CNT counts every input byte, BLD gives every counted byte a code, and an ENC that
finds all codes can fault with BufferOverflow only. -/
theorem cmpNeverMeetsAnUnknownSymbol : Obligations.CmpNeverMeetsAnUnknownSymbol := by
  unfold Obligations.CmpNeverMeetsAnUnknownSymbol
  intro s t u v he hfit hcnt hbld henc
  have hcodes := (coded_of_cnt_bld he hfit hcnt hbld).hasCode
  have heu : u.err = false := by rw [cnt_bld_frame he hfit hcnt hbld]; exact he
  refine ⟨hcodes, fun hev => ?_⟩
  rcases runCommand_cases henc with ⟨heu', -⟩ | ⟨-, w, hw, rfl⟩ | ⟨-, f, hf, rfl⟩
  · rw [heu] at heu'
    cases heu'
  · have hew : w.err = false := by rw [(encBody_flushed hw).2.1.frame]; exact heu
    rw [complete_err, hew] at hev
    cases hev
  · have hcause := encBody_error_of_hasCode (s := start u) hcodes hf
    rw [raise_errcode, hcause]
    decide

/-! ### The size of the result -/

/-- A sum over a byte sequence, taken byte value by byte value. -/
theorem sum_map_eq_sum_count (f : Byte → Nat) (bs : List Byte) :
    (bs.map f).sum =
      ((List.range 256).map fun c => bs.count (BitVec.ofNat 8 c) * f (BitVec.ofNat 8 c)).sum := by
  induction bs with
  | nil =>
    simp only [List.map_nil, List.sum_nil, List.count_nil, Nat.zero_mul, List.map_const',
      List.sum_replicate, smul_eq_mul, Nat.mul_zero]
  | cons b bs ih =>
    have hb : ∀ c ∈ List.range 256,
        (b :: bs).count (BitVec.ofNat 8 c) * f (BitVec.ofNat 8 c) =
          bs.count (BitVec.ofNat 8 c) * f (BitVec.ofNat 8 c) +
            (if (b == BitVec.ofNat 8 c) = true then 1 else 0) * f b := by
      intro c _
      rw [List.count_cons, Nat.add_mul]
      by_cases h : b = BitVec.ofNat 8 c <;> simp [h]
    rw [List.map_congr_left hb, List.sum_map_add, List.sum_map_mul_right, sum_indicator_byte,
      Nat.one_mul, ← ih, List.map_cons, List.sum_cons, Nat.add_comm]

/-- The codes of a byte sequence have the bits of each byte value's code as often as it occurs. -/
theorem length_codesOf (s : State) (bs : List Byte) :
    (codesOf s bs).length = ((List.range 256).map fun c =>
      bs.count (BitVec.ofNat 8 c) * (codeAt s (BitVec.ofNat 8 c)).clen.toNat).sum := by
  rw [codesOf, List.length_flatMap, ← sum_map_eq_sum_count fun b => (codeAt s b).clen.toNat]
  simp only [codeBits, List.length_map, List.length_range]

/-- An ENC that ends without a fault has packed and padded the codes of its input, which fit OBUF. -/
theorem exec_enc_flushed {s t : State} (he : s.err = false) (h : exec .enc s = .next t)
    (hok : t.err = false) :
    ∃ w, t = complete w ∧ Flushed (encStart (start s)) (codesOf s (inputBytes s)) w ∧
      ((codesOf s (inputBytes s)).length + 7) / 8 ≤ s.ocap.toNat := by
  rcases runCommand_cases h with ⟨he', -⟩ | ⟨-, w, hw, ht⟩ | ⟨-, f, -, rfl⟩
  · rw [he] at he'
    cases he'
  · exact ⟨w, ht, (encBody_flushed hw).2⟩
  · cases hok

/-- Settles O38: ENC's NBITS is the length of the codes of the input, which counts each byte value's
code as often as CNT counted the byte. -/
theorem cmpResultSize : Obligations.CmpResultSize := by
  unfold Obligations.CmpResultSize
  intro s t u v he hfit _ hocap hcnt hbld henc hok
  have hu := cnt_bld_frame he hfit hcnt hbld
  have heu : u.err = false := by rw [hu]; exact he
  have hin : inputBytes u = inputBytes s := by rw [hu]; rfl
  have hcap : u.ocap = s.ocap := by rw [hu]
  obtain ⟨w, rfl, F, hroom⟩ := exec_enc_flushed heu henc hok
  rw [hcap] at hroom
  have hnbits : w.nbits.toNat = (codesOf u (inputBytes u)).length := F.nbits_toNat hocap hroom
  have hfreq : ∀ c, freqAt w c = freqAt t c := fun c => by
    calc freqAt w c = freqAt u c := by rw [F.frame]; rfl
      _ = freqAt t c := by rw [hu]; rfl
  have hcode : ∀ b, codeAt w b = codeAt u b := fun b => by rw [F.frame]; rfl
  refine ⟨?_, ?_⟩
  · rw [complete_nbits, hnbits, length_codesOf, hin]
    refine congrArg List.sum (List.map_congr_left fun c hc => ?_)
    rw [complete_freqAt, complete_codeAt, hfreq, hcode,
      freqAt_of_exec_cnt he hfit hcnt (List.mem_range.1 hc)]
  · rw [complete_outLen, complete_nbits, hnbits]
    exact F.outLen_toNat

end Sys2Proof.Machine
end

section
/-! Host scripts run by the block's own steps (R53, R70): runs in a row, one host write, one command,
LOAD. -/

namespace Sys2Proof.Machine

/-! ### Runs -/

section
variable {s t : State}

/-- A run whose first step is known. -/
theorem run_succ (h : step s = .next t) (k : Nat) : core.run (k + 1) s = core.run k t := by
  have hcore : core.step s = .next t := h
  simp only [Host.Core.run, hcore]

/-- A run that goes on after a run. -/
theorem run_add {j : Nat} (h : core.run j s = .next t) (k : Nat) :
    core.run (j + k) s = core.run k t := by
  induction j generalizing s with
  | zero =>
    cases h
    rw [Nat.zero_add]
  | succ j ih =>
    rw [Nat.succ_add]
    cases hstep : step s with
    | next u =>
      rw [run_succ hstep] at h ⊢
      exact ih h
    | fault r => cases r
    | refused r =>
      have hcore : core.step s = .refused r := hstep
      simp only [Host.Core.run, hcore] at h
      cases h

end

/-! ### One host action -/

/-- s with these host actions to come. -/
def State.awaiting (s : State) (acts : List HostAction) : State := { s with script := acts }

section
variable (s : State) (acts : List HostAction)

@[simp] theorem awaiting_busy : (s.awaiting acts).busy = s.busy := rfl
@[simp] theorem awaiting_icap : (s.awaiting acts).icap = s.icap := rfl
@[simp] theorem awaiting_ocap : (s.awaiting acts).ocap = s.ocap := rfl
@[simp] theorem awaiting_script : (s.awaiting acts).script = acts := rfl
@[simp] theorem awaiting_awaiting (acts' : List HostAction) :
    (s.awaiting acts).awaiting acts' = s.awaiting acts' := rfl

end

section
variable {s : State} {rest : List HostAction} (hidle : s.busy = false)
include hidle

/-- The host's write to a location other than CMD stores there (R43). -/
theorem step_write {a : Nat} {v : Word} (hadm : admitted a 4 = true)
    (hloc : locateIn s a ≠ .cmd) (hs : s.script = .write a 4 v :: rest) :
    step s = .next (writeLoc (s.awaiting rest) v (locateIn s a)) := by
  have hcmd : ¬ (admitted a 4 && !s.busy && decide (locateIn s a = .cmd)) = true := by
    simp only [hloc, decide_false, Bool.and_false, Bool.false_eq_true, not_false_eq_true]
  rw [step, advance, hs]
  exact (if_neg hcmd).trans
    (congrArg _ (hostWrite_eq_writeLoc (s := s.awaiting rest) hidle hadm v))

/-- The host's write of a command's word to CMD runs the command (R60, R193). -/
theorem step_give {i : Instr} (hs : s.script = give i :: rest) :
    step s = exec i (s.awaiting rest) := by
  have hcmd : (admitted 0x00 4 && !s.busy && decide (locateIn s 0x00 = .cmd)) = true := by
    rw [hidle]
    rfl
  have hdecode : decode (encode i) = .ok i := by cases i <;> rfl
  rw [step, advance, hs]
  refine (if_pos hcmd).trans ?_
  rw [command, hdecode]
  rfl

/-- The host's write of four bytes to the IBUF window (R45). -/
theorem step_write_ibuf {w : Nat} {b0 b1 b2 b3 : Byte} (hw : 4 * w < s.icap.toNat)
    (hcap : s.icap.toNat ≤ 2 ^ 20)
    (hs : s.script = .write (0x100000 + 4 * w) 4 (wordOfBytes b0 b1 b2 b3) :: rest) :
    step s = .next (setIbufBytes (s.awaiting rest) (4 * w) [b0, b1, b2, b3]) := by
  have hloc : locateIn s (0x100000 + 4 * w) = .ibuf w := locate_ibuf _ _ hw (by omega)
  have hadm : admitted (0x100000 + 4 * w) 4 = true :=
    (admitted_iff _ _).2 ⟨rfl, by omega, by omega⟩
  obtain ⟨h0, h1, h2, h3⟩ := byteLane_wordOfBytes b0 b1 b2 b3
  have hcmd : locateIn s (0x100000 + 4 * w) ≠ .cmd := by rw [hloc]; exact Loc.noConfusion
  rw [step_write hidle hadm hcmd hs, hloc, writeLoc, h0, h1, h2, h3]

end

/-! ### LOAD -/

section
variable (s : State) (k : Nat) (vs : List Byte)

@[simp] theorem setIbufBytes_busy : (setIbufBytes s k vs).busy = s.busy := by
  rw [setIbufBytes_frame]

@[simp] theorem setIbufBytes_icap : (setIbufBytes s k vs).icap = s.icap := by
  rw [setIbufBytes_frame]

@[simp] theorem setIbufBytes_script : (setIbufBytes s k vs).script = s.script := by
  rw [setIbufBytes_frame]

/-- The host's actions to come play no part in a write to IBUF. -/
theorem awaiting_setIbufBytes (acts : List HostAction) :
    (setIbufBytes s k vs).awaiting acts = setIbufBytes (s.awaiting acts) k vs := by
  induction vs generalizing s k with
  | nil => rfl
  | cons v vs ih => exact ih (setIbuf s k v) (k + 1)

/-- Four bytes written to IBUF before the bytes that follow them. -/
theorem setIbufBytes_word (b0 b1 b2 b3 : Byte) :
    setIbufBytes (setIbufBytes s k [b0, b1, b2, b3]) (k + 4) vs =
      setIbufBytes s k (b0 :: b1 :: b2 :: b3 :: vs) := by
  simp only [setIbufBytes]

end

/-- LOAD's writes put the bytes into IBUF, a last partial word filled up with pad bytes (R70). -/
theorem run_loadWords (bs : List Byte) (w : Nat) {s : State} {rest : List HostAction}
    (hidle : s.busy = false) (hcap : s.icap.toNat ≤ 2 ^ 20)
    (hfit : 4 * w + bs.length ≤ s.icap.toNat)
    (hs : s.script = loadWords (0x100000 + 4 * w) bs ++ rest) :
    ∃ pad, core.run (loadWords (0x100000 + 4 * w) bs).length s =
      .next (setIbufBytes (s.awaiting rest) (4 * w) (bs ++ pad)) := by
  have hword (h : bs ≠ []) : 4 * w < s.icap.toNat := by
    have := List.length_pos_of_ne_nil h
    omega
  match bs with
  | [] =>
    obtain rfl : s.script = rest := hs
    exact ⟨[], rfl⟩
  | [b0] => exact ⟨[0#8, 0#8, 0#8], run_succ (step_write_ibuf hidle (hword nofun) hcap hs) 0⟩
  | [b0, b1] => exact ⟨[0#8, 0#8], run_succ (step_write_ibuf hidle (hword nofun) hcap hs) 0⟩
  | [b0, b1, b2] => exact ⟨[0#8], run_succ (step_write_ibuf hidle (hword nofun) hcap hs) 0⟩
  | b0 :: b1 :: b2 :: b3 :: bs =>
    have hstep := step_write_ibuf hidle (hword nofun) hcap hs
    have hnext : 0x100000 + 4 * w + 4 = 0x100000 + 4 * (w + 1) := by omega
    simp only [List.length_cons] at hfit
    rw [hnext] at hstep
    rw [loadWords, List.length_cons, run_succ hstep, hnext]
    generalize hu : setIbufBytes _ _ _ = u
    obtain ⟨pad, hrun⟩ := run_loadWords bs (w + 1) (s := u) (rest := rest)
      (by rw [← hu, setIbufBytes_busy]; exact hidle) (by rw [← hu, setIbufBytes_icap]; exact hcap)
      (by rw [← hu, setIbufBytes_icap, awaiting_icap]; omega)
      (by rw [← hu, setIbufBytes_script, awaiting_script]; rfl)
    refine ⟨pad, hrun.trans ?_⟩
    rw [← hu, awaiting_setIbufBytes, awaiting_awaiting, Nat.mul_succ, setIbufBytes_word]
    rfl

/-- The input sequence after its bytes, and any pad bytes, were written to IBUF from index 0 on. -/
theorem inputBytes_setIbufBytes (s : State) {n : Word} {bs : List Byte} (pad : List Byte)
    (hn : n.toNat = bs.length) :
    inputBytes { setIbufBytes s 0 (bs ++ pad) with inLen := n } = bs := by
  refine List.ext_getElem ((length_inputBytes _).trans hn) fun k _ hk => ?_
  have hbyte := ibufByte_setIbufBytes s 0 (bs ++ pad) k
  rw [if_pos ⟨Nat.zero_le k, by rw [List.length_append]; omega⟩, Nat.sub_zero,
    List.getD_append _ _ _ _ hk, List.getD_eq_getElem _ _ hk] at hbyte
  simp only [inputBytes, List.getElem_map, List.getElem_range]
  exact hbyte

/-- LOAD leaves its bytes as the input sequence, and writes IBUF and IN_LEN (R70). -/
theorem run_load {s : State} {bs : List Byte} {rest : List HostAction} (hidle : s.busy = false)
    (hcap : capWf s.icap = true) (hfit : bs.length ≤ s.icap.toNat)
    (hs : s.script = load bs ++ rest) :
    ∃ t : State, core.run (load bs).length s = .next t ∧
      t = { s with script := rest, ibuf := t.ibuf, inLen := t.inLen } ∧
      t.inLen.toNat = bs.length ∧ inputBytes t = bs := by
  have hle := toNat_le_of_capWf hcap
  rw [load, List.append_assoc] at hs
  obtain ⟨pad, hrun⟩ := run_loadWords bs 0 hidle hle (by omega) hs
  rw [load, List.length_append, run_add hrun, Nat.mul_zero]
  have hlen : (BitVec.ofNat 32 bs.length).toNat = bs.length := Nat.mod_eq_of_lt (by omega)
  generalize hu : setIbufBytes _ _ _ = u
  have hstep := step_write (s := u) (rest := rest) (a := 0x14) (v := BitVec.ofNat 32 bs.length)
    (by rw [← hu, setIbufBytes_busy]; exact hidle) (by decide) Loc.noConfusion
    (by rw [← hu, setIbufBytes_script]; rfl)
  refine ⟨_, run_succ hstep 0, ?_, hlen, ?_⟩
  · rw [← hu, setIbufBytes_frame]
    rfl
  · rw [← hu, awaiting_setIbufBytes]
    exact inputBytes_setIbufBytes (s.awaiting rest) pad hlen

end Sys2Proof.Machine
end

section
/-! The round trip LOAD B; CMP; OTI; DCMP (R158): OTI moves ENC's bits to the input, DEC walks them
through the tree that gave the codes. -/

namespace Sys2Proof.Machine

/-! ### OTI -/

/-- OTI copies an output sequence that fits IBUF to the input, byte for byte (R173). -/
theorem exec_oti_ok {s : State} (he : s.err = false) (hfit : s.outLen ≤ s.icap) :
    ∃ t, exec .oti s = .next t ∧
      t = { s with done := true, busy := false, ibuf := t.ibuf, inLen := s.outLen } ∧
      ∀ k, ibufByte t k = if k < s.outLen.toNat then obufByte s k else ibufByte s k := by
  have hbody : otiBody (start s) =
      .ok { setIbufBytes (start s) 0 (outputBytes s) with inLen := s.outLen } :=
    if_neg (BitVec.not_lt.2 hfit)
  refine ⟨_, runCommand_ok he hbody, ?_, fun k => ?_⟩
  · rw [setIbufBytes_frame]
    rfl
  · refine (ibufByte_setIbufBytes (start s) 0 (outputBytes s) k).trans ?_
    have hlen : (outputBytes s).length = s.outLen.toNat := by simp [outputBytes]
    by_cases hk : k < s.outLen.toNat
    · rw [if_pos hk, if_pos ⟨Nat.zero_le k, by omega⟩, Nat.sub_zero,
        List.getD_eq_getElem _ _ (by omega)]
      simp only [outputBytes, List.getElem_map, List.getElem_range]
    · rw [if_neg hk, if_neg (by omega), start_ibufByte]

/-- Reading bytes that are the output bytes of another state reads its output bits (R47). -/
theorem inputBits_eq_of_outputBits {s t : State} {bits : List Bool} {nb : Nat} (hnb : nb = bits.length)
    (hle : nb ≤ 8 * s.outLen.toNat) (hbytes : ∀ k, k < s.outLen.toNat → ibufByte t k = obufByte s k)
    (hbits : ∀ k, k < 8 * s.outLen.toNat → outputBit s k = bits.getD k false) :
    inputBits t nb = bits := by
  refine List.ext_getElem ((length_inputBits t nb).trans hnb) fun k hk hk' => ?_
  rw [length_inputBits] at hk
  simp only [inputBits, List.getElem_map, List.getElem_range]
  rw [inputBit, hbytes (k / 8) (by omega), ← List.getD_eq_getElem _ false hk', ← hbits k (by omega)]
  rfl

/-! ### DEC -/

/-- Each byte of a sequence with its code. -/
def withCodes (s : State) (bs : List Byte) : List (List Bool × Byte) :=
  bs.map fun b => (codeBits (codeAt s b), b)

theorem flatMap_fst_withCodes (s : State) (bs : List Byte) :
    (withCodes s bs).flatMap Prod.fst = codesOf s bs := by
  simp only [withCodes, codesOf, List.flatMap_map]

theorem map_snd_withCodes (s : State) (bs : List Byte) : (withCodes s bs).map Prod.snd = bs := by
  simp only [withCodes, List.map_map, Function.comp_def, List.map_id']

/-- The first NBITS bits of the input are the codes of bs, each a codeword of the tree. -/
structure Compressed (s : State) (bs : List Byte) : Prop where
  fits : s.inLen ≤ s.icap
  whole : s.nbits.toNat ≤ 8 * s.inLen.toNat
  bits : inputBits s s.nbits.toNat = codesOf s bs
  codeword : ∀ b ∈ bs, codeword s (codeBits (codeAt s b)) b = true
  root : ∀ b ∈ bs, s.root ≠ Config.nil

/-- DEC of the codes of bs gives bs back (R112, R135). -/
theorem Compressed.exec_dec {s : State} {bs : List Byte} (C : Compressed s bs)
    (he : s.err = false) (hroom : bs.length ≤ s.ocap.toNat) :
    ∃ t, exec .dec s = .next t ∧
      t = { s with
        done := true, busy := false, obuf := t.obuf, outLen := t.outLen, cur := Config.nil } ∧
      t.outLen.toNat = bs.length ∧ outputBytes t = bs := by
  have hcmd : (Instr.dec, s.nbits.toNat) ∈
      [(Instr.dec, s.nbits.toNat), (.decx, 8 * s.inLen.toNat)] := List.mem_cons_self
  by_cases hroot : s.root = Config.nil
  · obtain rfl : bs = [] := List.eq_nil_iff_forall_not_mem.2 fun b hb => C.root b hb hroot
    have h0 : s.nbits.toNat = 0 :=
      (length_inputBits s _).symm.trans (congrArg List.length C.bits)
    exact ⟨_, exec_of_no_bits hcmd he C.fits C.whole h0, rfl, rfl, rfl⟩
  · have hws : ∀ w ∈ withCodes s bs, Machine.codeword (clearOutput (start s)) w.1 w.2 = true :=
      List.forall_mem_map.2 fun b hb => (codeword_walkStart s _ b).trans (C.codeword b hb)
    obtain ⟨t, ht, W⟩ := walkBits_codewords (walked_start (start s)) 0 (withCodes s bs) hws
      (by simpa [withCodes] using hroom)
    rw [flatMap_fst_withCodes, ← C.bits] at ht
    rw [List.nil_append, map_snd_withCodes] at W
    exact ⟨_, exec_of_walkBits_ok hcmd he C.fits C.whole hroot ht W,
      congrArg complete (W.decoded (s := start s) hroom).frame, W.holds.len, W.holds.outputBytes⟩

/-! ### Commands in a row -/

/-- The block takes the next of these actions: idle, in no fault, with the capacities of s0. -/
structure Awaits (s0 : State) (acts : List HostAction) (s : State) : Prop where
  busy : s.busy = false
  err : s.err = false
  icap : s.icap = s0.icap
  ocap : s.ocap = s0.ocap
  script : s.script = acts

section
variable {s0 s t : State} {acts : List HostAction}

/-- What is left after a completed action: BUSY and ERR are 0, the capacities as before. -/
theorem Awaits.next {acts' : List HostAction} (A : Awaits s0 acts' s)
    (h : t = { t with
      busy := false, err := s.err, icap := s.icap, ocap := s.ocap, script := acts }) :
    Awaits s0 acts t where
  busy := congrArg State.busy h
  err := (congrArg State.err h).trans A.err
  icap := (congrArg State.icap h).trans A.icap
  ocap := (congrArg State.ocap h).trans A.ocap
  script := congrArg State.script h

/-- A run whose next action gives a command. -/
theorem Awaits.run_give {i : Instr} (A : Awaits s0 (give i :: acts) s)
    (h : exec i (s.awaiting acts) = .next t) (k : Nat) : core.run (k + 1) s = core.run k t :=
  run_succ ((step_give A.busy A.script).trans h) k

/-- The host's actions to come play no part in what IBUF holds. -/
theorem Compressed.awaiting {bs : List Byte} (C : Compressed s bs) :
    Compressed (s.awaiting acts) bs where
  fits := C.fits
  whole := C.whole
  bits := C.bits
  codeword b hb :=
    (codeword_congr (s := s) (s' := s.awaiting acts) rfl rfl _ b).trans (C.codeword b hb)
  root := C.root

/-- CNT and BLD give every input byte its code (R157). -/
theorem Awaits.run_cnt_bld (A : Awaits s0 (give .cnt :: give .bld :: acts) s)
    (hfit : s.inLen ≤ s.icap) :
    ∃ u : State, core.run 2 s = .next u ∧ Awaits s0 acts u ∧ Coded u ∧ u.inLen = s.inLen ∧
      inputBytes u = inputBytes s := by
  obtain ⟨t, hcnt, ht, -⟩ := cntCountsTheInput (s.awaiting (give .bld :: acts)) A.err hfit
  have At : Awaits s0 (give .bld :: acts) t := A.next (by rw [ht]; rfl)
  obtain ⟨u, -, B, hbld⟩ := exec_bld_ok (s := t.awaiting acts) At.err
  have hu := B.complete_frame
  have hfreq := freqAt_ne_zero_of_exec_cnt (s := s.awaiting (give .bld :: acts)) A.err hfit hcnt
  exact ⟨complete u, (A.run_give hcnt 1).trans (At.run_give hbld 0), At.next (by rw [hu]; rfl),
    coded_of_exec_bld (s := t.awaiting acts) At.err hfreq hbld, by rw [hu, ht]; rfl,
    by rw [hu, ht]; rfl⟩

/-- ENC and OTI put the codes of the input in its place (R120, R173). -/
theorem Awaits.run_enc_oti (A : Awaits s0 (give .enc :: give .oti :: acts) s) (C : Coded s)
    (hfit : s.inLen ≤ s.icap) (hcap : capWf s.ocap = true)
    (hout : ((codesOf s (inputBytes s)).length + 7) / 8 ≤ s.ocap.toNat)
    (hin : ((codesOf s (inputBytes s)).length + 7) / 8 ≤ s.icap.toNat) :
    ∃ w : State, core.run 2 s = .next w ∧ Awaits s0 acts w ∧ Compressed w (inputBytes s) := by
  obtain ⟨v, henc, hv, -, hnbits, hlen, hbits⟩ :=
    encPacksTheCodes (s.awaiting (give .oti :: acts)) A.err hfit C.hasCode hout
  have Av : Awaits s0 (give .oti :: acts) v := A.next (by rw [hv]; rfl)
  have hvfit : v.outLen ≤ v.icap := by
    rw [BitVec.le_def, hlen, hv]
    exact hin
  obtain ⟨w, hoti, hw, hbytes⟩ := exec_oti_ok (s := v.awaiting acts) Av.err hvfit
  have hn : w.nbits.toNat = (codesOf s (inputBytes s)).length := by
    rw [hw]
    exact hnbits hcap
  have hwhole : w.nbits.toNat ≤ 8 * v.outLen.toNat := by
    rw [hn, hlen]
    show _ ≤ 8 * (((codesOf s (inputBytes s)).length + 7) / 8)
    omega
  have hnode : w.node = s.node := by rw [hw, hv]; rfl
  have hroot : w.root = s.root := by rw [hw, hv]; rfl
  have hcode : codeAt w = codeAt s := by rw [hw, hv]; rfl
  have hcodes : codesOf w (inputBytes s) = codesOf s (inputBytes s) := by rw [hw, hv]; rfl
  refine ⟨w, (A.run_give henc 1).trans (Av.run_give hoti 0), Av.next (by rw [hw]; rfl), ?_⟩
  refine ⟨by rw [hw]; exact hvfit, by rw [hw] at hwhole ⊢; exact hwhole, ?_, fun b hb => ?_,
    fun b hb => ?_⟩
  · rw [hcodes]
    exact inputBits_eq_of_outputBits (s := v) hn hwhole (fun k hk => (hbytes k).trans (if_pos hk)) hbits
  · rw [hcode, codeword_congr hnode hroot]
    exact C.codeword b hb
  · rw [hroot]
    exact C.root b hb

end

/-- Settles O39: LOAD makes B the input, CNT and BLD give its bytes their codewords as codes, ENC and
OTI make these codes the input, and DEC turns each codeword back into its byte. -/
theorem roundTrip : Obligations.RoundTrip := by
  unfold Obligations.RoundTrip
  intro s bs rest hidle he hicap hocap hin hout hs hroom
  have hscript : s.script = load bs ++
      (give .cnt :: give .bld :: give .enc :: give .oti :: give .dec :: rest) := by
    rw [hs]
    simp [cmp, dcmp]
  obtain ⟨t, hload, ht, hlen, hbytes⟩ := run_load hidle hicap hin hscript
  have At : Awaits s (give .cnt :: give .bld :: give .enc :: give .oti :: give .dec :: rest) t := by
    rw [ht]
    exact ⟨hidle, he, rfl, rfl, rfl⟩
  have hfit : t.inLen ≤ t.icap := by rw [BitVec.le_def, hlen, At.icap]; exact hin
  obtain ⟨u, hcmp, Au, C, hulen, hubytes⟩ := At.run_cnt_bld hfit
  rw [hbytes] at hubytes
  have hrun : core.run ((load bs).length + 2) s = .next u := (run_add hload 2).trans hcmp
  obtain ⟨hencOut, hencIn⟩ := hroom u hrun
  obtain ⟨w, hpack, Aw, P⟩ := Au.run_enc_oti C (by rw [hulen, Au.icap, ← At.icap]; exact hfit)
    (by rw [Au.ocap]; exact hocap) (by rw [Au.ocap]; exact hencOut) (by rw [Au.icap]; exact hencIn)
  rw [hubytes] at P
  obtain ⟨x, hdec, hx, hxlen, hxbytes⟩ := (P.awaiting (acts := rest)).exec_dec Aw.err
    (by rw [awaiting_ocap, Aw.ocap]; exact hout)
  refine ⟨x, ?_, by rw [hx]; exact Aw.err, by rw [hx], by rw [hx]; rfl, hxlen, hxbytes⟩
  calc core.run ((load bs).length + 5) s
      = core.run 5 t := run_add hload 5
    _ = core.run 3 u := run_add hcmp 3
    _ = core.run 1 w := run_add hpack 1
    _ = .next x := Aw.run_give hdec 0

end Sys2Proof.Machine
end

section
/-! The housekeeping commands NOP, CLRE and OTI (spec/46_housekeeping.md R170, R172, R173). -/

namespace Sys2Proof.Machine

/-! ### NOP -/

/-- NOP has no body, so an accepted NOP is a start and a completion (R170, R194). -/
theorem exec_nop_ok {s : State} (he : s.err = false) :
    exec .nop s = .next (complete (start s)) :=
  runCommand_ok he rfl

/-- Settles O6: an accepted NOP starts and completes; NOP is no exception to the refusal of R193. -/
theorem nopOnlySetsDone : Obligations.NopOnlySetsDone := by
  unfold Obligations.NopOnlySetsDone
  intro s
  refine ⟨fun he => ?accepted, fun he => ?refused⟩
  case accepted => exact exec_nop_ok he
  case refused => exact runCommand_refused he

/-! ### CLRE -/

/-- CLRE does not look at ERR: it starts, clears the fault and completes (R172, R193). -/
theorem exec_clre (s : State) : exec .clre s = .next (complete (clearFault (start s))) := rfl

/-- Settles O8: of the three updates CLRE is made of, one writes ERR and the error registers, and the
others write DONE and BUSY. -/
theorem clreClearsTheFault : Obligations.ClreClearsTheFault := by
  unfold Obligations.ClreClearsTheFault
  exact exec_clre

/-! ### OTI -/

/-- OTI faults on an output sequence that does not fit IBUF. The fault is entered from the state
before the command, so nothing is copied (R173, R192). -/
theorem exec_oti_error {s : State} (he : s.err = false) (hover : s.icap < s.outLen) :
    exec .oti s = .next (raise .nothing ⟨.bufferOverflow, 2#32, s.outLen⟩ s) := by
  have hbody : otiBody (start s) = .error ⟨.bufferOverflow, 2#32, s.outLen⟩ := if_pos hover
  exact runCommand_error he hbody

/-- Settles O9: an output sequence that fits is copied byte for byte; one that does not fit faults
before any write, and that fault discards no output. -/
theorem otiCopiesOutputToInput : Obligations.OtiCopiesOutputToInput := by
  unfold Obligations.OtiCopiesOutputToInput
  intro s he
  refine ⟨fun hfit => ?fits, fun hover => ?overflows⟩
  case fits => exact exec_oti_ok he hfit
  case overflows => exact exec_oti_error he hover

end Sys2Proof.Machine
end

section
/-! Faults as a whole (spec/60_exceptions.md): what the fault entry records, discards and leaves
(R192), the illegal word (R187), and how an accepted command ends (R194). -/

namespace Sys2Proof.Machine

/-! ### The fault entry -/

/-- The commands with an output of their own are those whose fault discards something (R192). -/
theorem discardOf_eq_nothing_iff (i : Instr) :
    discardOf i = .nothing ↔ i ∉ [Instr.enc, .dec, .decx] := by
  cases i <;> decide

/-- ENC alone loses NBITS to a fault (R192). -/
theorem discardOf_eq_outputAndBits_iff (i : Instr) : discardOf i = .outputAndBits ↔ i = .enc := by
  cases i <;> decide

/-- Settles O41: `raise` is one update of the state; what it does to OUT_LEN, OBUF and NBITS is
decided by the discard of the command. -/
theorem raiseRecordsTheFault : Obligations.RaiseRecordsTheFault := by
  unfold Obligations.RaiseRecordsTheFault
  rintro i f s _ rfl
  have houtLen : (raise (discardOf i) f s).outLen =
      if i ∈ [Instr.enc, .dec, .decx] then 0#32 else s.outLen := by
    simp only [raise_outLen, discardOf_eq_nothing_iff, ite_not]
  have hobuf (hi : i ∉ [Instr.enc, .dec, .decx]) : (raise (discardOf i) f s).obuf = s.obuf := by
    rw [raise_obuf, if_pos ((discardOf_eq_nothing_iff i).2 hi)]
  have hnbits : (raise (discardOf i) f s).nbits = if i = .enc then 0#32 else s.nbits := by
    simp only [raise_nbits, discardOf_eq_outputAndBits_iff]
  exact ⟨rfl, rfl, rfl, rfl, rfl, houtLen, hobuf, hnbits, rfl, rfl, rfl, rfl⟩

/-- With BUSY = 0 and the hidden registers at rest, a fault that discards nothing writes the error
registers, ERR and DONE only (R192). -/
theorem raise_nothing_of_rest {s : State} (hbusy : s.busy = false) (hacc : s.acc = 0#8)
    (hbitcnt : s.bitcnt = 0#4) (hcur : s.cur = Config.nil) (f : Trap) :
    raise .nothing f s = { s with
      errcode := causeCode f.cause, errinfo := f.info, errpos := f.pos, err := true,
      done := false } := by
  simp [raise, hbusy, hacc, hbitcnt, hcur]

/-! ### The illegal word -/

/-- A word that no row of the opcode map has is no command (R63). -/
theorem decode_eq_error {w : Word} (hw : w ∉ opcodeMap.map OpRow.word) :
    decode w = .error (.illegalCommand w) := by
  have hnone : opcodeMap.find? (fun r => w &&& r.mask == r.word) = none := by
    rw [Option.eq_none_iff_forall_ne_some]
    intro r hfind
    obtain ⟨hr, rfl⟩ := find_opcodeMap_eq_some_iff.1 hfind
    exact hw (List.mem_map_of_mem hr)
  rw [decode, hnone]

/-- An illegal word written while ERR = 0 enters the fault IllegalCommand (R187). -/
theorem command_of_illegal {s : State} {w : Word} (he : s.err = false)
    (hw : w ∉ opcodeMap.map OpRow.word) :
    command w s = .next (raise .nothing ⟨.illegalCommand, w, 0#32⟩ s) := by
  simp [command, decode_eq_error hw, illegalCommand, he]

/-- Settles O4: the nine words are those of the opcode map, so any other enters the fault
IllegalCommand; with the hidden registers at rest this entry writes the five fields named. -/
theorem illegalWordFaults : Obligations.IllegalWordFaults := by
  unfold Obligations.IllegalWordFaults
  intro s w hbusy he hacc hbitcnt hcur hw
  rw [command_of_illegal he hw, raise_nothing_of_rest hbusy hacc hbitcnt hcur]
  rfl

/-! ### How an accepted command ends -/

/-- RST leaves every STATUS bit 0 (R171). -/
theorem statusWord_softReset (s : State) : statusWord (softReset s) = 0#32 := by
  have hreset : statusWord (softReset s) = statusWord State.reset := rfl
  rw [hreset]
  decide

/-- A body whose success leaves ERR and ERRCODE as they were. -/
def KeepsErr (body : State → Except Trap State) : Prop :=
  ∀ s u, body s = .ok u → u.err = s.err ∧ u.errcode = s.errcode

theorem keepsErr_otiBody : KeepsErr otiBody := by
  intro s u hu
  obtain ⟨-, e⟩ | ⟨-, e⟩ := otiBody_cases s <;> rw [e] at hu <;> cases hu
  rw [setIbufBytes_frame]
  exact ⟨rfl, rfl⟩

theorem keepsErr_cntBody : KeepsErr cntBody := by
  intro s u hu
  obtain ⟨-, e⟩ | ⟨-, e⟩ := cntBody_cases s <;> rw [e] at hu <;> cases hu
  rw [foldl_countByte_frame]
  exact ⟨rfl, rfl⟩

theorem keepsErr_encBody : KeepsErr encBody := by
  intro s u hu
  obtain ⟨t, e, hframe⟩ | ⟨f, e, -⟩ := encBody_cases s <;> rw [e] at hu <;> cases hu
  rw [hframe]
  exact ⟨rfl, rfl⟩

theorem keepsErr_decBody : KeepsErr decBody := by
  intro s u hu
  rw [(decBody_decoded hu).frame]
  exact ⟨rfl, rfl⟩

theorem keepsErr_decxBody : KeepsErr decxBody := by
  intro s u hu
  rw [(decxBody_decoded hu).frame]
  exact ⟨rfl, rfl⟩

/-- The commands that can fault run a body that keeps ERR and ERRCODE when it succeeds. -/
theorem exec_eq_runCommand {i : Instr} (hi : i ∉ [Instr.rst, .clre, .nop, .bld]) :
    ∃ body, KeepsErr body ∧ ∀ s, exec i s = runCommand (discardOf i) body s := by
  cases i with
  | nop | rst | clre | bld => exact absurd (by decide) hi
  | oti => exact ⟨otiBody, keepsErr_otiBody, fun _ => rfl⟩
  | cnt => exact ⟨cntBody, keepsErr_cntBody, fun _ => rfl⟩
  | enc => exact ⟨encBody, keepsErr_encBody, fun _ => rfl⟩
  | dec => exact ⟨decBody, keepsErr_decBody, fun _ => rfl⟩
  | decx => exact ⟨decxBody, keepsErr_decxBody, fun _ => rfl⟩

/-- A command that can fault, accepted, completes or takes one fault from its start (R194). -/
theorem exec_faultable_cases {i : Instr} {s t : State} (hi : i ∉ [Instr.rst, .clre, .nop, .bld])
    (he : s.err = false) (h : exec i s = .next t) :
    (t.done = true ∧ t.busy = false ∧ t.err = false ∧ t.errcode = s.errcode) ∨
    ∃ f : Trap, t = raise (discardOf i) f s := by
  obtain ⟨body, hkeeps, hexec⟩ := exec_eq_runCommand hi
  rw [hexec] at h
  obtain ⟨herr, -⟩ | ⟨-, u, hu, rfl⟩ | ⟨-, f, -, rfl⟩ := runCommand_cases h
  · rw [he] at herr
    cases herr
  · obtain ⟨huerr, hucode⟩ := hkeeps (start s) u hu
    exact .inl ⟨rfl, rfl, huerr.trans he, hucode⟩
  · exact .inr ⟨f, rfl⟩

/-- Settles O42: RST, CLRE, NOP and BLD have one way to end each; a command that can fault completes
with ERR and ERRCODE kept, or its fault is entered from its start. -/
theorem commandCompletesOrFaults : Obligations.CommandCompletesOrFaults := by
  unfold Obligations.CommandCompletesOrFaults
  intro i s t h haccept
  have herr (hi : i ∉ [Instr.rst, .clre]) : s.err = false := haccept.resolve_right hi
  by_cases hi : i ∈ [Instr.rst, .clre, .nop, .bld]
  case pos =>
    simp only [List.mem_cons, List.not_mem_nil, or_false] at hi
    obtain rfl | rfl | rfl | rfl := hi
    · obtain rfl : softReset s = t := Host.Outcome.next.inj h
      exact ⟨.inl ⟨rfl, statusWord_softReset s⟩, rfl⟩
    · obtain rfl : complete (clearFault (start s)) = t := Host.Outcome.next.inj h
      exact ⟨.inr (.inl ⟨by decide, rfl, rfl, rfl⟩), rfl⟩
    · have he := herr (by decide)
      obtain rfl : complete (start s) = t := Host.Outcome.next.inj ((exec_nop_ok he).symm.trans h)
      exact ⟨.inr (.inl ⟨by decide, rfl, he, rfl⟩), rfl⟩
    · have he := herr (by decide)
      rw [exec_bld_frame he h]
      exact ⟨.inr (.inl ⟨by decide, rfl, he, rfl⟩), rfl⟩
  case neg =>
    obtain ⟨hrst, hclre, -⟩ : i ≠ .rst ∧ i ≠ .clre ∧ i ≠ .nop ∧ i ≠ .bld := by simpa using hi
    have he := herr (by simp [hrst, hclre])
    obtain ⟨hdone, hbusy, hterr, hcode⟩ | ⟨f, rfl⟩ := exec_faultable_cases hi he h
    · exact ⟨.inr (.inl ⟨hrst, hdone, hterr, by rw [if_neg hclre, hcode]⟩), hbusy⟩
    · exact ⟨.inr (.inr ⟨hi, rfl, rfl, f, rfl⟩), rfl⟩

end Sys2Proof.Machine
end

section
/-! The queue and the tree of BLD, record by record: the heap operations (R95, R96), the leaves (R93),
the merged records (R97 to R99), and the lengths of the codes (R106). -/

namespace Sys2Proof.Machine

/-- Settles O17: the records from n up are those the merge loop made, and the forest invariant keeps
for each what its pass did. -/
theorem bldMergesTheTwoLeast : Obligations.BldMergesTheTwoLeast := by
  unfold Obligations.BldMergesTheTwoLeast
  intro s t he h k hn hk
  obtain ⟨u, B, rfl⟩ := exec_bld_built he h
  have M := (B.tree hk).1.merged k.toNat hn hk
  exact ⟨M.kind, M.sym, M.freq, M.ordered, M.least⟩

/-- Settles O12: the sift loops permute the entries and restore the heap order, whose first entry no
other is less than; the order is total. -/
theorem heapPushAndPopKeepTheOrder : Obligations.HeapPushAndPopKeepTheOrder := by
  unfold Obligations.HeapPushAndPopKeepTheOrder
  intro node h hheap
  have order := less_order node
  refine ⟨fun i => ⟨pushed_isHeap order h i hheap, pushed_perm _ h i⟩, fun hne =>
    ⟨popped_isHeap order h hheap, popped_perm _ h hne, fun x hx hfirst => ?_⟩⟩
  exact less_total node x (heapAt h 0) hfirst (isHeap_least_mem order h hheap x hx)

/-- Settles O16: leaf m of the forest BLD ends with is the one phase 1 seeded for the m-th present
byte. -/
theorem bldSeedsLeavesInByteOrder : Obligations.BldSeedsLeavesInByteOrder := by
  unfold Obligations.BldSeedsLeavesInByteOrder
  intro s t he h m hm
  obtain ⟨u, B, rfl⟩ := exec_bld_built he h
  have hle : (presentSymbols s).length ≤ 256 := presentBelow_length_le s 256
  have L := (B.forest (Nat.ne_zero_of_lt hm)).leaf m hm
  rw [complete_nodeAt, nodeAt_eq, ofNat9_toNat (by omega), List.getD_eq_getElem _ _ hm]
  exact ⟨L.kind, L.sym, L.freq.trans (congrArg _ (B.freqAt _)), L.left, L.right⟩

/-- The number of code bits is CLEN (R24). -/
theorem length_codeBits (e : CodeEntry) : (codeBits e).length = e.clen.toNat := by
  rw [codeBits, List.length_map, List.length_range]

/-- Settles O21: one symbol has the code "0"; among two or more, the path to a leaf has at least one
edge and passes fewer records than there are leaves, of which there are at most 256. -/
theorem bldCodeLengths : Obligations.BldCodeLengths := by
  unfold Obligations.BldCodeLengths
  intro s t he h b hb
  obtain ⟨u, B, rfl⟩ := exec_bld_built he h
  have hle : (presentSymbols s).length ≤ 256 := presentBelow_length_le s 256
  have hpos : 0 < (presentSymbols s).length :=
    List.length_pos_of_mem (mem_presentBelow (s := s).2 ⟨b.isLt, hb⟩)
  rw [complete_codeAt]
  obtain h1 | h2 : (presentSymbols s).length = 1 ∨ 2 ≤ (presentSymbols s).length := by omega
  · rw [(B.code_one h1 hb).1]
    exact ⟨by decide, by decide, by omega⟩
  · obtain ⟨-, p, -, -, -, -, hbits, hmin, hmax⟩ := B.code_present h2 hb
    have hlen : (codeAt u b).clen.toNat = p.length := by rw [← length_codeBits, hbits]
    have hmax : p.length + 1 ≤ (presentSymbols s).length := hmax
    omega

end Sys2Proof.Machine
end

section
/-! DEC and DECX over codewords: what they decode (R135, R136, R150), the code the bits end in (R145),
the symbol OBUF cannot hold (R148), and the moves of the cursor (R140). -/

namespace Sys2Proof.Machine

/-! ### The moves of the cursor -/

/-- Settles O28: a move looks at the record under the cursor and, at an INTERNAL one, at the child the
bit selects. -/
theorem walkStepFollowsTheTree : Obligations.WalkStepFollowsTheTree := by
  unfold Obligations.WalkStepFollowsTheTree
  intro s k bit
  refine ⟨fun hcur hnil => ?missing, fun hcur hchild => ⟨fun hkind => ?internal,
    fun hkind hroom => ?leaf, fun hkind hfull => ?leafFull, fun hkind => ?absentChild⟩,
    fun hcur hbit => ?one, fun hcur hbit => ?zero, fun hcur => ?absent⟩
  case missing => simp [walkStep, hcur, hnil, corruptTree]
  case internal => simp [walkStep, hcur, hchild, arrive, hkind]
  case leaf =>
    obtain ⟨hfull, -⟩ | ⟨-, hemit⟩ := emit_cases 1#32 (BitVec.ofNat 32 k)
      (nodeAt s (childOf (nodeAt s s.cur) bit)).sym s
    · exact absurd hfull hroom
    · exact ⟨_, hemit, by simp [walkStep, hcur, hchild, arrive, hkind, emitSym, hemit]⟩
  case leafFull => simp [walkStep, hcur, hchild, arrive, hkind, emitSym, emit, hfull]
  case absentChild =>
    simp only [List.mem_cons, List.not_mem_nil, or_false] at hkind
    obtain hkind | hkind := hkind <;>
      simp [walkStep, hcur, hchild, arrive, hkind, corruptTree]
  case one => simp [walkStep, hcur, hbit, corruptStream]
  case zero =>
    obtain ⟨-, hemit⟩ | ⟨-, hemit⟩ := emit_cases 1#32 (BitVec.ofNat 32 k) (nodeAt s s.cur).sym s <;>
      simp [walkStep, hcur, hbit, hemit]
  case absent =>
    simp only [List.mem_cons, List.not_mem_nil, or_false] at hcur
    obtain hcur | hcur := hcur <;> simp [walkStep, hcur, corruptTree]

/-! ### Codewords -/

section
variable {s : State} {nb : Nat} {ws : List (List Bool × Byte)}
  (hws : ∀ w ∈ ws, codeword s w.1 w.2 = true)
include hws

/-- The walk of the input over codewords and a path inside the tree emits the codewords' bytes, and
the cursor ends where the path leads. -/
theorem walkBits_inputBits_codewords {p : List Bool}
    (hin : inputBits s nb = ws.flatMap Prod.fst ++ p)
    (hp : p = [] ∨ staysInside s s.root p = true) (hroom : ws.length ≤ s.ocap.toNat) :
    ∃ t, walkBits 0 (inputBits s nb) { clearOutput (start s) with cur := s.root } = .ok t ∧
      Walked (clearOutput (start s)) (ws.map Prod.snd) (walkTo s s.root p) t := by
  have hws' : ∀ w ∈ ws, codeword (clearOutput (start s)) w.1 w.2 = true := fun w hw =>
    (codeword_walkStart s w.1 w.2).trans (hws w hw)
  have hp' : p = [] ∨ staysInside (clearOutput (start s)) s.root p = true := by
    rwa [staysInside_walkStart]
  rw [hin]
  exact walkBits_codewords_inside (walked_start (start s)) ws p hws' hp' hroom

/-- The codeword after those that fill OBUF faults at its last bit (R148). -/
theorem walkBits_inputBits_full {w : List Bool × Byte} {rest : List Bool}
    (hin : inputBits s nb = ws.flatMap Prod.fst ++ w.1 ++ rest)
    (hw : codeword s w.1 w.2 = true) (hfull : ws.length = s.ocap.toNat) :
    walkBits 0 (inputBits s nb) { clearOutput (start s) with cur := s.root } =
      .error ⟨.bufferOverflow, 1#32,
        BitVec.ofNat 32 ((ws.flatMap Prod.fst).length + w.1.length - 1)⟩ := by
  have hws' : ∀ v ∈ ws, codeword (clearOutput (start s)) v.1 v.2 = true := fun v hv =>
    (codeword_walkStart s v.1 v.2).trans (hws v hv)
  obtain ⟨t, ht, W⟩ := walkBits_codewords (walked_start (start s)) 0 ws hws'
    (by simpa using hfull.le)
  have hnext := walkBits_codeword_full W (0 + (ws.flatMap Prod.fst).length) w.1 w.2
    ((codeword_walkStart s w.1 w.2).trans hw) (by simpa using hfull)
  rw [start_root] at ht
  rw [Nat.zero_add] at hnext
  rw [hin, List.append_assoc, walkBits_append, ht]
  simp only [walkBits_append, Nat.zero_add, hnext]

end

/-! ### The commands -/

section
variable {s : State} {i : Instr} {nb : Nat} {ws : List (List Bool × Byte)} {p : List Bool}
  (hcmd : (i, nb) ∈ [(Instr.dec, s.nbits.toNat), (.decx, 8 * s.inLen.toNat)])
  (he : s.err = false) (hfit : s.inLen ≤ s.icap) (hnb : nb ≤ 8 * s.inLen.toNat)
  (hroot : s.root ≠ Config.nil)
include hcmd he hfit hnb hroot

/-- With a root, a walk over the bits of the input completes the command with the bytes emitted on
the way, DEC only with the cursor back at the root (R145, R146). -/
theorem exec_of_walkBits_end {t : State} {vs : List Byte} {c : Idx}
    (hw : walkBits 0 (inputBits s nb) { clearOutput (start s) with cur := s.root } = .ok t)
    (W : Walked (clearOutput (start s)) vs c t) (hend : i = .dec → c = s.root) :
    exec i s = .next (complete (clearCur t)) := by
  by_cases h0 : nb = 0
  · have hno := exec_of_no_bits hcmd he hfit hnb h0
    subst h0
    cases hw
    exact hno
  · exact exec_of_walk_ok hcmd he hfit hnb ((walk_clearOutput (s := start s) h0 hroot).trans hw)
      fun hdec => .inr (W.cur.trans ((hend hdec).trans W.root.symm))

/-- DEC and DECX turn codewords into their bytes; what follows the codewords stays inside the tree,
for DEC back to the root (R135, R136, R146, R150). -/
theorem exec_decodes_codewords (hin : inputBits s nb = ws.flatMap Prod.fst ++ p)
    (hws : ∀ w ∈ ws, codeword s w.1 w.2 = true) (hp : p = [] ∨ staysInside s s.root p = true)
    (hroom : ws.length ≤ s.ocap.toNat) (hend : i = .dec → walkTo s s.root p = s.root) :
    ∃ t : State, exec i s = .next t ∧
      t = { s with
        done := true, busy := false, obuf := t.obuf, outLen := t.outLen, cur := Config.nil } ∧
      t.outLen.toNat = ws.length ∧ outputBytes t = ws.map Prod.snd := by
  obtain ⟨t, ht, W⟩ := walkBits_inputBits_codewords hws hin hp hroom
  have D := W.decoded (s := start s) (by simpa using hroom)
  refine ⟨_, exec_of_walkBits_end hcmd he hfit hnb hroot ht W hend, congrArg complete D.frame, ?_,
    W.holds.outputBytes⟩
  simpa using W.holds.len

end

/-- Settles O29: the codewords emit their bytes and the bits after them bring the cursor back to the
root, where a counted decode may end. -/
theorem decDecodesCodewords : Obligations.DecDecodesCodewords := by
  unfold Obligations.DecDecodesCodewords
  intro s ws p he hfit hnb hroot hin hws hp hback hroom
  exact exec_decodes_codewords (by simp) he hfit hnb hroot hin hws hp hroom fun _ => hback

/-- Settles O30: DECX walks like DEC and does not look at where the cursor ends. -/
theorem decxDecodesEveryBit : Obligations.DecxDecodesEveryBit := by
  unfold Obligations.DecxDecodesEveryBit
  intro s ws p he hfit hroot hin hws hp hroom
  exact exec_decodes_codewords (by simp) he hfit le_rfl hroot hin hws hp hroom nofun

/-- The end of a counted decode faults when the bits asked for leave the cursor below the root (R145). -/
theorem checkAtRoot_error {t : State} (hbits : t.nbits ≠ 0#32) (hcur : t.cur ≠ t.root) :
    checkAtRoot t = .error (corruptStream 2#32 t.nbits) := if_pos ⟨hbits, hcur⟩

/-- Settles O31: the walk itself succeeds with the cursor below the root, and the test at its end
faults; there was a bit to consume, or the cursor would not have left the root. -/
theorem decFaultsInsideACode : Obligations.DecFaultsInsideACode := by
  unfold Obligations.DecFaultsInsideACode
  intro s ws p he hfit hnb hroot hin hws hroom hp haway
  obtain ⟨t, ht, W⟩ := walkBits_inputBits_codewords hws hin (.inr hp) hroom
  have hbits : s.nbits.toNat ≠ 0 := by
    intro h0
    have hnone : ws.flatMap Prod.fst ++ p = [] := by rw [← hin, h0]; rfl
    rw [(List.append_eq_nil_iff.1 hnone).2] at haway
    exact haway rfl
  have hwalk : walk s.nbits.toNat (clearOutput (start s)) = .ok t :=
    (walk_clearOutput (s := start s) hbits hroot).trans ht
  have hnbits : t.nbits = s.nbits := W.nbits
  have hfault : decBody (start s) = .error (corruptStream 2#32 s.nbits) := by
    rw [decBody_walked (s := start s) hfit hnb hwalk, checkAtRoot_error, hnbits]
    · rw [hnbits]
      exact fun h => hbits (congrArg BitVec.toNat h)
    · rw [W.cur, W.root]
      exact haway
  exact runCommand_error he hfault

/-- Settles O36: the codewords before fill OBUF, so the next one faults at the bit that completes it. -/
theorem decFaultsWhenOutputTooLong : Obligations.DecFaultsWhenOutputTooLong := by
  unfold Obligations.DecFaultsWhenOutputTooLong
  intro s i nb ws w rest hcmd he hfit hnb hroot hin hws hw hfull
  exact exec_of_walkBits_error hcmd he hfit hnb hroot (walkBits_inputBits_full hws hin hw hfull)

/-- Settles O33: DEC compares NBITS with the bits of the input before it walks. -/
theorem decFaultsOnTooManyBits : Obligations.DecFaultsOnTooManyBits := by
  unfold Obligations.DecFaultsOnTooManyBits
  intro s he hfit hmany
  have hfault : decBody (start s) =
      .error (corruptStream 3#32 (BitVec.ofNat 32 (8 * s.inLen.toNat))) := by
    simp [decBody, checkInLen_ok (s := start s) hfit, inputBitCount, hmany]
  exact runCommand_error he hfault

end Sys2Proof.Machine
end

section
/-! ENC that faults: at a byte without a code (R123), and at the byte OBUF cannot hold (R127). -/

namespace Sys2Proof.Machine

section
variable {s : State} (he : s.err = false) (hfit : s.inLen ≤ s.icap)
include he hfit

/-- A fault at an input byte ends ENC with that fault, the output and NBITS discarded (R192). -/
theorem exec_enc_of_encBytes_error {f : Trap}
    (hbytes : encBytes 0 (inputBytes s) (encStart (start s)) = .error f) :
    exec .enc s = .next (raise .outputAndBits f s) :=
  runCommand_error he (encBody_error (s := start s) hfit hbytes)

/-- When the codes of the input fill OBUF with whole bytes and bits are left over, the padded last
byte faults (R127). -/
theorem exec_enc_of_flush_full (hcodes : ∀ b ∈ inputBytes s, hasCode s b = true)
    (hfull : (codesOf s (inputBytes s)).length / 8 = s.ocap.toNat)
    (hrest : (codesOf s (inputBytes s)).length % 8 ≠ 0) :
    exec .enc s = .next (raise .outputAndBits ⟨.bufferOverflow, 0#32, s.inLen⟩ s) := by
  have hroom : (0 + (codesOf s (inputBytes s)).length) / 8 ≤ s.ocap.toNat := by omega
  obtain ⟨p, hp, P⟩ := encBytes_ok 0 (inputBytes s) (packed_encStart (start s)) hcodes hroom
  have hflush := flush_full P hrest hfull
  exact runCommand_error he ((encBody_flush (s := start s) hfit hp).trans hflush)

end

/-- Settles O25: the bytes before b are packed, and b is looked up before any bit of it is packed. -/
theorem encFaultsOnUnknownSymbol : Obligations.EncFaultsOnUnknownSymbol := by
  unfold Obligations.EncFaultsOnUnknownSymbol
  intro s pre post b he hfit hin hpre hb hroom
  have hfault := encBytes_unknown 0 pre post b (packed_encStart (start s)) hpre hb
    (show (0 + (codesOf s pre).length) / 8 ≤ s.ocap.toNat by omega)
  rw [← hin, Nat.zero_add] at hfault
  exact exec_enc_of_encBytes_error he hfit hfault

/-- Settles O26: either a byte is completed while the input is packed, or the last, padded one when
it is flushed; whichever finds OBUF full faults. -/
theorem encFaultsWhenOutputTooLong : Obligations.EncFaultsWhenOutputTooLong := by
  unfold Obligations.EncFaultsWhenOutputTooLong
  intro s he hfit
  refine ⟨fun pre post b hin hpre hb hroom hfull => ?packing, fun hcodes hfull hrest => ?flushing⟩
  case packing =>
    have hfault := encBytes_full 0 pre post b (packed_encStart (start s)) hpre hb
      (show (0 + (codesOf s pre).length) / 8 ≤ s.ocap.toNat by omega)
      (show s.ocap.toNat < (0 + (codesOf s (pre ++ [b])).length) / 8 by omega)
    rw [← hin, Nat.zero_add] at hfault
    exact exec_enc_of_encBytes_error he hfit hfault
  case flushing => exact exec_enc_of_flush_full he hfit hcodes hfull hrest

end Sys2Proof.Machine
end

section
/-! What holds of every command: its word (R60, R61), its refusal while ERR = 1 (R193), the faults it
can record (R186, R190), and what it leaves unchanged (R28). -/

namespace Sys2Proof.Machine

/-! ### Words and refusal -/

/-- The facts of the word format, for every command (R60 to R62). -/
theorem wordFormat (i : Instr) : Laws.WordFormat.Statement i := by
  cases i with
  | nop => exact Laws.WordFormat.nop
  | rst => exact Laws.WordFormat.rst
  | clre => exact Laws.WordFormat.clre
  | oti => exact Laws.WordFormat.oti
  | cnt => exact Laws.WordFormat.cnt
  | bld => exact Laws.WordFormat.bld
  | enc => exact Laws.WordFormat.enc
  | dec => exact Laws.WordFormat.dec
  | decx => exact Laws.WordFormat.decx

/-- A command's word decodes to it and is the only one that does (R61, R63). -/
theorem decode_eq_ok_iff_eq_encode {w : Word} {i : Instr} : decode w = .ok i ↔ w = encode i := by
  obtain ⟨-, -, -, hrows⟩ := wordFormat i
  have hrow (r : OpRow) : r ∈ opcodeMap ∧ r.instr = i ↔ r = ⟨i, 0xFFFFFFFF#32, encode i⟩ := by
    rw [← List.mem_singleton (a := r), ← hrows, List.mem_filter, decide_eq_true_iff]
  rw [decode_eq_ok_iff]
  constructor
  · rintro ⟨r, hr, hi, rfl⟩
    rw [(hrow r).1 ⟨hr, hi⟩]
  · rintro rfl
    obtain ⟨hr, hi⟩ := (hrow _).2 rfl
    exact ⟨_, hr, hi, rfl⟩

/-- Settles O2: the opcode map has exactly one row for each command, and this row has its word. -/
theorem decodeInvertsEncode : Obligations.DecodeInvertsEncode := by
  unfold Obligations.DecodeInvertsEncode
  intro i
  obtain ⟨hwf, hword, hop, -⟩ := wordFormat i
  exact ⟨hwf, decode_eq_ok_iff_eq_encode.2 rfl, hword, hop, fun w => decode_eq_ok_iff_eq_encode.1⟩

/-- While ERR = 1 a command other than RST and CLRE changes nothing (R193). -/
theorem exec_refused {s : State} (he : s.err = true) {i : Instr} (hrst : i ≠ .rst)
    (hclre : i ≠ .clre) : exec i s = .next s := by
  cases i with
  | rst => exact absurd rfl hrst
  | clre => exact absurd rfl hclre
  | _ => exact runCommand_refused he

/-- Settles O5: a command is refused by its own test of ERR, an illegal word by that of
`illegalCommand`. -/
theorem errRefusesAllButRstAndClre : Obligations.ErrRefusesAllButRstAndClre := by
  unfold Obligations.ErrRefusesAllButRstAndClre
  intro s he
  refine ⟨fun i hrst hclre => exec_refused he hrst hclre, fun w hrst hclre => ?_⟩
  cases hw : decode w with
  | ok i =>
    have hword := decode_eq_ok_iff_eq_encode.1 hw
    rw [command, hw]
    refine exec_refused he ?_ ?_
    · rintro rfl
      exact hrst hword
    · rintro rfl
      exact hclre hword
  | error e => simp [command, hw, illegalCommand, he]

/-- Settles O7: RST is one update of the state, from every state alike. -/
theorem rstGivesTheResetState : Obligations.RstGivesTheResetState := by
  unfold Obligations.RstGivesTheResetState
  intro s
  rfl

/-! ### The faults of a command -/

/-- Settles O44: the four bodies begin with the test of IN_LEN. -/
theorem inputLengthIsTestedFirst : Obligations.InputLengthIsTestedFirst := by
  unfold Obligations.InputLengthIsTestedFirst
  intro s he hlong i hi
  have htest := checkInLen_error (s := start s) hlong
  simp only [List.mem_cons, List.not_mem_nil, or_false] at hi
  obtain rfl | rfl | rfl | rfl := hi
  · exact runCommand_error he (by simp [cntBody, htest])
  · exact runCommand_error he (by simp [encBody, htest])
  · exact runCommand_error he (by simp [decBody, htest])
  · exact runCommand_error he (by simp [decxBody, htest])

/-- An accepted command that ends with ERR = 1 took the fault its body raised (R192, R194). -/
theorem runCommand_faulted {d : Discard} {body : State → Except Trap State} {s t : State}
    (hkeeps : KeepsErr body) (he : s.err = false) (h : runCommand d body s = .next t)
    (hfault : t.err = true) : ∃ f, body (start s) = .error f ∧ t = raise d f s := by
  obtain ⟨herr, -⟩ | ⟨-, u, hu, rfl⟩ | ⟨-, f, hf, rfl⟩ := runCommand_cases h
  · rw [he] at herr
    cases herr
  · have hkept : u.err = s.err := (hkeeps _ u hu).1
    rw [complete_err, hkept, he] at hfault
    cases hfault
  · exact ⟨f, hf, rfl⟩

/-- A position below a 32-bit count is recorded below it. -/
theorem ofNat_lt_of_lt_toNat {w : Word} {j : Nat} (h : j < w.toNat) : BitVec.ofNat 32 j < w := by
  have := w.isLt
  rw [BitVec.lt_def, BitVec.toNat_ofNat, Nat.mod_eq_of_lt (by omega)]
  exact h

section
variable {s t : State} (he : s.err = false) (hfault : t.err = true)
include he hfault

/-- OTI faults on an output sequence that does not fit IBUF (R186). -/
theorem exec_oti_fault (h : exec .oti s = .next t) :
    t.errcode = 5#4 ∧ t.errinfo = 2#32 ∧ t.errpos = s.outLen := by
  obtain ⟨f, hf, rfl⟩ := runCommand_faulted keepsErr_otiBody he h hfault
  obtain ⟨-, e⟩ | ⟨-, e⟩ := otiBody_cases (start s) <;> rw [e] at hf <;> cases hf
  exact ⟨rfl, rfl, rfl⟩

/-- CNT faults on an input length that does not fit IBUF (R186). -/
theorem exec_cnt_fault (h : exec .cnt s = .next t) :
    t.errcode = 5#4 ∧ t.errinfo = 3#32 ∧ t.errpos = s.inLen := by
  obtain ⟨f, hf, rfl⟩ := runCommand_faulted keepsErr_cntBody he h hfault
  obtain ⟨-, e⟩ | ⟨-, e⟩ := cntBody_cases (start s) <;> rw [e] at hf <;> cases hf
  exact ⟨rfl, rfl, rfl⟩

/-- ENC faults at an input byte, at the padded last byte, or on the input length (R186). -/
theorem exec_enc_fault (h : exec .enc s = .next t) :
    t.errcode = 2#4 ∧ t.errinfo.toNat < 256 ∧ t.errpos < s.inLen ∨
      t.errcode = 5#4 ∧ (t.errinfo = 0#32 ∧ t.errpos ≤ s.inLen ∨
        t.errinfo = 3#32 ∧ t.errpos = s.inLen) := by
  obtain ⟨f, hf, rfl⟩ := runCommand_faulted keepsErr_encBody he h hfault
  obtain ⟨u, e, -⟩ | ⟨g, e, hg⟩ := encBody_cases (start s) <;> rw [e] at hf <;> cases hf
  rw [raise_errcode, raise_errinfo, raise_errpos]
  obtain (⟨hcause, hinfo, j, -, hj, hpos⟩ | ⟨hcause, hinfo, j, -, hj, hpos⟩) | rfl | rfl := hg
  case inl.inl =>
    rw [hcause, hpos]
    exact .inl ⟨rfl, hinfo, ofNat_lt_of_lt_toNat (by simpa using hj)⟩
  case inl.inr =>
    rw [hcause, hpos]
    exact .inr ⟨rfl, .inl ⟨hinfo, BitVec.le_of_lt (ofNat_lt_of_lt_toNat (by simpa using hj))⟩⟩
  case inr.inl => exact .inr ⟨rfl, .inl ⟨rfl, BitVec.le_refl _⟩⟩
  case inr.inr => exact .inr ⟨rfl, .inr ⟨rfl, rfl⟩⟩

/-- DEC faults at one of its NBITS bits, after them, on too many bits, or on the input length (R186). -/
theorem exec_dec_fault (h : exec .dec s = .next t) :
    t.errcode = 3#4 ∧ t.errinfo.toNat < 512 ∧ t.errpos < s.nbits ∨
      t.errcode = 4#4 ∧ (t.errinfo = 1#32 ∧ t.errpos < s.nbits ∨
        t.errinfo = 2#32 ∧ t.errpos = s.nbits ∨
        t.errinfo = 3#32 ∧ t.errpos = BitVec.ofNat 32 (8 * s.inLen.toNat)) ∨
      t.errcode = 5#4 ∧ (t.errinfo = 1#32 ∧ t.errpos < s.nbits ∨
        t.errinfo = 3#32 ∧ t.errpos = s.inLen) := by
  obtain ⟨f, hf, rfl⟩ := runCommand_faulted keepsErr_decBody he h hfault
  obtain ⟨u, e, -⟩ | ⟨g, e, hg⟩ := decBody_cases (start s) <;> rw [e] at hf <;> cases hf
  rw [raise_errcode, raise_errinfo, raise_errpos]
  obtain rfl | rfl | ⟨j, hj, hstep, hpos⟩ | rfl := hg
  case inl => exact .inr (.inr ⟨rfl, .inr ⟨rfl, rfl⟩⟩)
  case inr.inl => exact .inr (.inl ⟨rfl, .inr (.inr ⟨rfl, rfl⟩)⟩)
  case inr.inr.inl =>
    have hlt : BitVec.ofNat 32 j < s.nbits := ofNat_lt_of_lt_toNat hj
    obtain ⟨hcause, hinfo⟩ | ⟨hcause, hinfo⟩ | ⟨hcause, hinfo⟩ := hstep <;> rw [hcause, hpos]
    · exact .inl ⟨rfl, hinfo, hlt⟩
    · exact .inr (.inl ⟨rfl, .inl ⟨hinfo, hlt⟩⟩)
    · exact .inr (.inr ⟨rfl, .inl ⟨hinfo, hlt⟩⟩)
  case inr.inr.inr => exact .inr (.inl ⟨rfl, .inr (.inl ⟨rfl, rfl⟩)⟩)

/-- DECX faults at one of its 8·IN_LEN bits or on the input length (R186). -/
theorem exec_decx_fault (h : exec .decx s = .next t) :
    t.errcode = 3#4 ∧ t.errinfo.toNat < 512 ∧ t.errpos.toNat < 8 * s.inLen.toNat ∨
      t.errcode = 4#4 ∧ t.errinfo = 1#32 ∧ t.errpos.toNat < 8 * s.inLen.toNat ∨
      t.errcode = 5#4 ∧ (t.errinfo = 1#32 ∧ t.errpos.toNat < 8 * s.inLen.toNat ∨
        t.errinfo = 3#32 ∧ t.errpos = s.inLen) := by
  obtain ⟨f, hf, rfl⟩ := runCommand_faulted keepsErr_decxBody he h hfault
  obtain ⟨u, e, -⟩ | ⟨g, e, hg⟩ := decxBody_cases (start s) <;> rw [e] at hf <;> cases hf
  rw [raise_errcode, raise_errinfo, raise_errpos]
  obtain rfl | ⟨j, hj, hstep, hpos⟩ := hg
  case inl => exact .inr (.inr ⟨rfl, .inr ⟨rfl, rfl⟩⟩)
  case inr =>
    have hlt : (BitVec.ofNat 32 j).toNat < 8 * s.inLen.toNat := by
      rw [BitVec.toNat_ofNat]
      exact Nat.lt_of_le_of_lt (Nat.mod_le j _) hj
    obtain ⟨hcause, hinfo⟩ | ⟨hcause, hinfo⟩ | ⟨hcause, hinfo⟩ := hstep <;> rw [hcause, hpos]
    · exact .inl ⟨rfl, hinfo, hlt⟩
    · exact .inr (.inl ⟨rfl, hinfo, hlt⟩)
    · exact .inr (.inr ⟨rfl, .inl ⟨hinfo, hlt⟩⟩)

end

/-- Settles O43: the fault recorded is the one the command's body raised, and each body's faults are
known. -/
theorem faultCausesByCommand : Obligations.FaultCausesByCommand := by
  unfold Obligations.FaultCausesByCommand
  intro i s t h he hfault
  refine ⟨?oti, ?cnt, ?enc, ?dec, ?decx⟩ <;> rintro rfl
  case oti => exact exec_oti_fault he hfault h
  case cnt => exact exec_cnt_fault he hfault h
  case enc => exact exec_enc_fault he hfault h
  case dec => exact exec_dec_fault he hfault h
  case decx => exact exec_decx_fault he hfault h

/-! ### What a command leaves unchanged -/

/-- The state s after command i completed, with what the command computes taken from t: the columns
of the write-effect matrix (R28). -/
def completedBy : Instr → State → State → State
  | .nop, s, _ => { s with done := true, busy := false }
  | .rst, s, _ => softReset s
  | .clre, s, _ => complete (clearFault (start s))
  | .oti, s, t => { s with done := true, busy := false, ibuf := t.ibuf, inLen := t.inLen }
  | .cnt, s, t => { s with done := true, busy := false, freq := t.freq }
  | .bld, s, t => { s with
      done := true, busy := false, node := t.node, code := t.code, heap := t.heap,
      heapSize := t.heapSize, root := t.root, nnodes := t.nnodes, nsym := t.nsym,
      empty := t.empty, single := t.single }
  | .enc, s, t => { s with
      done := true, busy := false, obuf := t.obuf, outLen := t.outLen, acc := t.acc,
      bitcnt := t.bitcnt, nbits := t.nbits }
  | .dec, s, t => { s with
      done := true, busy := false, obuf := t.obuf, outLen := t.outLen, cur := Config.nil }
  | .decx, s, t => { s with
      done := true, busy := false, obuf := t.obuf, outLen := t.outLen, cur := Config.nil }

/-- Everything command i can answer: refused, one fault from its start, or completed. -/
def Answers (i : Instr) (s t : State) : Prop :=
  t = s ∨ (s.err = false ∧ ∃ f, t = raise (discardOf i) f s) ∨ t = completedBy i s t

/-- A body that succeeds in its command's columns. -/
theorem runCommand_answers {i : Instr} {body : State → Except Trap State} {s t : State}
    (hbody : ∀ u, body (start s) = .ok u → complete u = completedBy i s (complete u))
    (h : runCommand (discardOf i) body s = .next t) : Answers i s t := by
  obtain ⟨-, rfl⟩ | ⟨-, u, hu, rfl⟩ | ⟨he, f, -, rfl⟩ := runCommand_cases h
  · exact .inl rfl
  · exact .inr (.inr (hbody u hu))
  · exact .inr (.inl ⟨he, f, rfl⟩)

/-- The body of each command succeeds in its command's columns (R28). -/
theorem exec_answers {i : Instr} {s t : State} (h : exec i s = .next t) : Answers i s t := by
  cases i with
  | nop =>
    refine runCommand_answers (fun u hu => ?_) h
    cases hu
    rfl
  | rst => exact .inr (.inr (Host.Outcome.next.inj h).symm)
  | clre => exact .inr (.inr (Host.Outcome.next.inj h).symm)
  | oti =>
    refine runCommand_answers (fun u hu => ?_) h
    obtain ⟨-, e⟩ | ⟨-, e⟩ := otiBody_cases (start s) <;> rw [e] at hu <;> cases hu
    rw [setIbufBytes_frame]
    rfl
  | cnt =>
    refine runCommand_answers (fun u hu => ?_) h
    obtain ⟨-, e⟩ | ⟨-, e⟩ := cntBody_cases (start s) <;> rw [e] at hu <;> cases hu
    rw [foldl_countByte_frame]
    rfl
  | bld =>
    refine runCommand_answers (fun u hu => ?_) h
    obtain ⟨v, e, B⟩ := bldBody_built (start s)
    rw [e] at hu
    cases hu
    exact B.complete_frame
  | enc =>
    refine runCommand_answers (fun u hu => ?_) h
    obtain ⟨v, e, hframe⟩ | ⟨f, e, -⟩ := encBody_cases (start s) <;> rw [e] at hu <;> cases hu
    exact congrArg complete hframe
  | dec => exact runCommand_answers (fun u hu => congrArg complete (decBody_decoded hu).frame) h
  | decx => exact runCommand_answers (fun u hu => congrArg complete (decxBody_decoded hu).frame) h

/-- A fault of a command without output of its own leaves the output sequence (R192). -/
theorem raise_keeps_output {i : Instr} (hi : i ∉ [Instr.rst, .enc, .dec, .decx]) (f : Trap)
    (s : State) : (raise (discardOf i) f s).outLen = s.outLen ∧
      ∀ k, obufByte (raise (discardOf i) f s) k = obufByte s k := by
  have hnothing : discardOf i = .nothing :=
    (discardOf_eq_nothing_iff i).2 fun hout => hi (List.mem_cons_of_mem _ hout)
  rw [hnothing]
  exact ⟨rfl, fun _ => rfl⟩

/-- A fault of a command other than ENC leaves NBITS (R192). -/
theorem raise_keeps_nbits {i : Instr} (hi : i ∉ [Instr.rst, .enc]) (f : Trap) (s : State) :
    (raise (discardOf i) f s).nbits = s.nbits := by
  rw [raise_nbits, if_neg]
  rw [discardOf_eq_outputAndBits_iff]
  rintro rfl
  exact hi (by decide)

/-- Settles O45: a refused command changes nothing, a fault what it records and discards, and a
completion its own columns only. -/
theorem writeEffectMatrix : Obligations.WriteEffectMatrix := by
  unfold Obligations.WriteEffectMatrix
  intro i s t h
  obtain rfl | ⟨he, f, rfl⟩ | hdone := exec_answers h
  case inl => simp
  case inr.inl =>
    have herr : (raise (discardOf i) f s).err ≠ s.err := by rw [he]; exact Bool.noConfusion
    exact ⟨fun _ _ => rfl,
      fun _ => ⟨fun _ => rfl, rfl, rfl, rfl, rfl, rfl, fun _ => rfl, rfl, rfl⟩,
      fun _ _ => rfl, fun _ => rfl, fun hi => raise_keeps_output hi f s,
      fun hi => raise_keeps_nbits hi f s, fun _ h => absurd h herr, fun _ h => absurd h herr,
      fun _ h => absurd h herr, rfl, rfl, rfl⟩
  case inr.inr =>
    rw [hdone]
    cases i <;> simp [completedBy, freqAt, nodeAt, codeAt, ibufByte, obufByte, freeByte, softReset]

end Sys2Proof.Machine
end

section
/-! What the host reads and writes, location by location: the registers (R12, R41), the records of the
memories (R48 to R50), the byte lanes (R45), and what a write stores and leaves (R43, R52). -/

namespace Sys2Proof.Machine

/-! ### Record words, field by field -/

/-- Word 0 of a node record: KIND at bit 0, SYM at bit 8 (R48). -/
theorem nodeWord_zero (r : NodeRec) :
    nodeWord r 0 = (kindBits r.kind).setWidth 32 ||| (r.sym.setWidth 32 <<< 8) := by
  show 0#16 ++ r.sym ++ 0#6 ++ kindBits r.kind = _
  apply BitVec.eq_of_getLsbD_eq
  intro j hj
  interval_cases j <;>
    simp only [BitVec.getLsbD_append, BitVec.getLsbD_or, BitVec.getLsbD_shiftLeft,
      BitVec.getLsbD_setWidth] <;> simp

/-- Word 1 of a node record: the low bits of FREQ (R48). -/
theorem nodeWord_one (r : NodeRec) : nodeWord r 1 = r.freq.setWidth 32 :=
  (BitVec.setWidth_eq_extractLsb' (by decide)).symm

/-- Word 2 of a node record: the bits of FREQ from 32 up (R48). -/
theorem nodeWord_two (r : NodeRec) : nodeWord r 2 = (r.freq >>> 32).setWidth 32 := by
  show 0#24 ++ r.freq.extractLsb' 32 8 = _
  apply BitVec.eq_of_getLsbD_eq
  intro j hj
  rw [BitVec.getLsbD_append, BitVec.getLsbD_setWidth, BitVec.getLsbD_ushiftRight]
  by_cases h8 : j < 8
  · simp [h8, hj]
  · simp [h8, BitVec.getLsbD_of_ge r.freq (32 + j) (by omega)]

/-- Word 3 of a node record: LEFT at bit 0, RIGHT at bit 9, PARENT at bit 18 (R48). -/
theorem nodeWord_three (r : NodeRec) :
    nodeWord r 3 =
      r.left.setWidth 32 ||| (r.right.setWidth 32 <<< 9) ||| (r.parent.setWidth 32 <<< 18) := by
  show 0#5 ++ r.parent ++ r.right ++ r.left = _
  apply BitVec.eq_of_getLsbD_eq
  intro j hj
  interval_cases j <;>
    simp only [BitVec.getLsbD_append, BitVec.getLsbD_or, BitVec.getLsbD_shiftLeft,
      BitVec.getLsbD_setWidth] <;> simp

/-- Word 0 of a code entry is CLEN (R49). -/
theorem codeWord_zero (e : CodeEntry) : codeWord e 0 = e.clen.setWidth 32 :=
  (BitVec.setWidth_eq_append (by decide)).symm

/-- Code bit j is bit 31 - j mod 32 of word 1 + j / 32 (R24, R49). -/
theorem codeWord_getLsbD (e : CodeEntry) {j : Nat} (hj : j < 256) :
    (codeWord e (1 + j / 32)).getLsbD (31 - j % 32) = codeBit e j := by
  have hword : 1 + j / 32 ≠ 0 := by omega
  have hbit : 31 - j % 32 < 32 := by omega
  have hpos : 224 - 32 * (1 + j / 32 - 1) + (31 - j % 32) = 255 - j := by omega
  rw [codeWord, if_neg hword, BitVec.getLsbD_extractLsb', decide_eq_true hbit, Bool.true_and, hpos,
    codeBit]

/-- The bits that ROOT stores are the low nine (R32). -/
theorem setWidth_nine_setWidth (v : Word) : (v.setWidth 9).setWidth 32 = v &&& 0x1FF#32 := by
  apply BitVec.eq_of_toNat_eq
  have hmask := Nat.and_two_pow_sub_one_eq_mod v.toNat 9
  simp only [BitVec.toNat_setWidth, BitVec.toNat_and]
  rw [show (0x1FF#32).toNat = 2 ^ 9 - 1 from rfl, hmask]
  omega

/-- STATUS bit by bit (R12). -/
theorem statusWord_eq_sum {s : State} (hidle : s.busy = false) :
    statusWord s = (if s.done then 2#32 else 0#32) + (if s.err then 4#32 else 0#32) +
      (if s.empty then 8#32 else 0#32) + (if s.single then 16#32 else 0#32) := by
  rw [statusWord, hidle]
  cases s.done <;> cases s.err <;> cases s.empty <;> cases s.single <;> rfl

/-! ### Reads -/

section
variable {s : State} {a : Nat} (hidle : s.busy = false)
include hidle

/-- An aligned read inside the window gives the word of the location there (R42). -/
theorem readValue_of_locate {l : Loc} (h4 : a % 4 = 0) (ha : a < 0x400000)
    (hloc : locateIn s a = l) : readValue s a 4 = readLoc s l := by
  rw [readValue_eq_readLoc hidle ((admitted_iff a 4).2 ⟨rfl, h4, ha⟩), hloc]

/-- An aligned read of the register range gives the register's word (R41). -/
theorem readValue_register (h4 : a % 4 = 0) (ha : a < 0x40) :
    readValue s a 4 = readLoc s (locateRegister a) :=
  readValue_of_locate hidle h4 (by omega) (if_pos ha)

/-- The words of a node record are read at its offsets (R41, R48). -/
theorem readValue_node (i : Idx) (hi : i ≠ Config.nil) {w : Nat} (hw : w < 4) :
    readValue s (0x2000 + 16 * i.toNat + 4 * w) 4 = nodeWord (nodeAt s i) w := by
  have hlt : i.toNat < 511 := by
    have hne : i.toNat ≠ 511 := fun h => hi (BitVec.eq_of_toNat_eq h)
    have := i.isLt
    omega
  exact readValue_of_locate hidle (by omega) (by omega) (locate_node _ _ hlt hw)

/-- The words of a code entry are read at its offsets (R41, R49). -/
theorem readValue_code (b : Byte) {w : Nat} (hw : w < 9) :
    readValue s (0x4000 + 64 * b.toNat + 4 * w) 4 = codeWord (codeAt s b) w := by
  have hb := b.isLt
  exact readValue_of_locate hidle (by omega) (by omega) (locate_code _ _ hb hw)

end

/-- Settles O47: the offsets lead to the registers one by one, and STATUS is the sum of its bits. -/
theorem registersReadAtTheirOffsets : Obligations.RegistersReadAtTheirOffsets := by
  unfold Obligations.RegistersReadAtTheirOffsets
  intro s hidle
  have reg (a : Nat) (h4 : a % 4 = 0) (ha : a < 0x40) :
      readValue s a 4 = readLoc s (locateRegister a) := readValue_register hidle h4 ha
  exact ⟨reg 0x00 rfl (by decide),
    (reg 0x04 rfl (by decide)).trans (statusWord_eq_sum hidle),
    reg 0x08 rfl (by decide), reg 0x0C rfl (by decide), reg 0x10 rfl (by decide),
    reg 0x14 rfl (by decide), reg 0x18 rfl (by decide), reg 0x1C rfl (by decide),
    reg 0x20 rfl (by decide), reg 0x24 rfl (by decide), reg 0x28 rfl (by decide),
    reg 0x2C rfl (by decide), reg 0x30 rfl (by decide), reg 0x34 rfl (by decide),
    reg 0x38 rfl (by decide)⟩

/-- Settles O48: each offset leads to its element, whose words hold the fields as R48 and R49 say. -/
theorem memoriesReadAtTheirOffsets : Obligations.MemoriesReadAtTheirOffsets := by
  unfold Obligations.MemoriesReadAtTheirOffsets
  intro s hidle
  refine ⟨fun b hb => ?freq, fun p hp hsize hlen => ?heap, fun i hi => ⟨?word0, ?word1, ?word2, ?word3⟩,
    fun b => ?clen, fun b j hj => ?codeBit⟩
  case freq => exact readValue_of_locate hidle (by omega) (by omega) (locate_freq _ _ hb)
  case heap =>
    rw [readValue_of_locate hidle (by omega) (by omega) (locate_heap _ _ hp)]
    exact if_pos ⟨hsize, hlen⟩
  case word0 => exact (readValue_node hidle i hi (w := 0) (by decide)).trans (nodeWord_zero _)
  case word1 => exact (readValue_node hidle i hi (w := 1) (by decide)).trans (nodeWord_one _)
  case word2 => exact (readValue_node hidle i hi (w := 2) (by decide)).trans (nodeWord_two _)
  case word3 => exact (readValue_node hidle i hi (w := 3) (by decide)).trans (nodeWord_three _)
  case clen => exact (readValue_code hidle b (w := 0) (by decide)).trans (codeWord_zero _)
  case codeBit =>
    rw [readValue_code hidle b (by omega)]
    exact codeWord_getLsbD _ hj

/-- Settles O49: the word at a buffer's offset is made of the four bytes around byte k. -/
theorem bufferLanes : Obligations.BufferLanes := by
  unfold Obligations.BufferLanes
  intro s k hidle
  refine ⟨fun hk hlow h4 => ?_, fun hk hlow h4 hout => ?_⟩
  · have hloc : locateIn s (0x100000 + 4 * (k / 4)) = .ibuf (k / 4) :=
      locate_ibuf _ _ (by omega) (by omega)
    rw [readValue_of_locate hidle (by omega) (by omega) hloc]
    exact byteLane_eq (ibufByte s) k
  · have hloc : locateIn s (0x200000 + 4 * (k / 4)) = .obuf (k / 4) := locate_obuf _ _ (by omega)
    rw [readValue_of_locate hidle (by omega) (by omega) hloc]
    exact (byteLane_eq (obufLane s) k).trans (if_pos hout)

/-! ### Writes -/

section
variable (s : State) (v : Word) (l : Loc)

/-- A write moves no location of the map. -/
theorem locateIn_writeLoc (a : Nat) : locateIn (writeLoc s v l) a = locateIn s a := by
  rw [writeLoc_frame]
  rfl

/-- A write leaves BUSY. -/
@[simp] theorem writeLoc_busy : (writeLoc s v l).busy = s.busy := by
  rw [writeLoc_frame]

/-- A write draws no free word. -/
@[simp] theorem writeLoc_draws : (writeLoc s v l).draws = s.draws := by
  rw [writeLoc_frame]

end

/-- An access that is refused, or that meets BUSY = 1, stores nothing (R44, R57). -/
theorem hostWrite_refused {s : State} {a width : Nat}
    (h : admitted a width = false ∨ s.busy = true) (v : Word) : hostWrite s a width v = s := by
  obtain h | h := h <;> simp [hostWrite, h]

/-- The locations that store what is written to them; the others are read-only, reserved, or CMD
(R43, R51). -/
def Loc.writable : Loc → Bool
  | .inLen | .nbits | .root | .freq _ | .node _ _ | .code _ _ | .ibuf _ => true
  | _ => false

/-- A location that is not writable takes no notice of a write. -/
theorem writeLoc_of_not_writable {l : Loc} (hl : l.writable = false) (s : State) (v : Word) :
    writeLoc s v l = s := by
  cases l with
  | inLen | nbits | root | freq | node | code | ibuf => cases hl
  | _ => rfl

/-- Settles O52: the offset of a writable location is in none of the ranges. -/
theorem readOnlyLocationsIgnoreWrites : Obligations.ReadOnlyLocationsIgnoreWrites := by
  unfold Obligations.ReadOnlyLocationsIgnoreWrites
  intro s a v hrange
  by_cases hacc : admitted a 4 = false ∨ s.busy = true
  · exact hostWrite_refused hacc v
  simp only [not_or, Bool.not_eq_false, Bool.not_eq_true] at hacc
  obtain ⟨hadm, hidle⟩ := hacc
  obtain ⟨-, h4, -⟩ := (admitted_iff a 4).1 hadm
  rw [hostWrite_eq_writeLoc hidle hadm]
  refine writeLoc_of_not_writable ?_ s v
  obtain hres | hoff := locate_offset s.icap.toNat s.ocap.toNat a h4
  · rw [locateIn, hres]
    rfl
  · have hfits := locate_fits s.icap.toNat s.ocap.toNat a
    rw [locateIn]
    cases hl : locate s.icap.toNat s.ocap.toNat a with
    | inLen | nbits | root | freq | node | code | ibuf =>
      simp only [hl, Loc.offset, Loc.fits] at hoff hfits
      omega
    | _ => rfl

/-- Settles O51: two aligned offsets lead to two locations, or to reserved ones, which hold nothing. -/
theorem hostWriteTouchesOneLocation : Obligations.HostWriteTouchesOneLocation := by
  unfold Obligations.HostWriteTouchesOneLocation
  intro s a a' v hne
  by_cases hacc : admitted a 4 = false ∨ s.busy = true
  · rw [hostWrite_refused hacc]
  simp only [not_or, Bool.not_eq_false, Bool.not_eq_true] at hacc
  obtain ⟨hadm, hidle⟩ := hacc
  obtain ⟨-, h4, -⟩ := (admitted_iff a 4).1 hadm
  rw [hostWrite_eq_writeLoc hidle hadm]
  cases hadm' : admitted a' 4 with
  | false => simp [readValue, hadm']
  | true =>
    obtain ⟨-, h4', -⟩ := (admitted_iff a' 4).1 hadm'
    rw [readValue_eq_readLoc (by rwa [writeLoc_busy]) hadm', readValue_eq_readLoc hidle hadm',
      locateIn_writeLoc]
    by_cases hsame : locateIn s a' = locateIn s a
    · have hres : locateIn s a = .reserved := by
        obtain hres | hoff := locate_offset s.icap.toNat s.ocap.toNat a h4
        · exact hres
        obtain hres' | hoff' := locate_offset s.icap.toNat s.ocap.toNat a' h4'
        · exact hsame.symm.trans hres'
        · exact absurd (hoff'.symm.trans ((congrArg Loc.offset hsame).trans hoff)) hne
      rw [hres]
      rfl
    · exact readLoc_writeLoc_ne s v _ _ (locate_fits _ _ a) (locate_fits _ _ a') hsame

/-- An aligned write inside the window, read back: what the location holds of the word (R43). -/
theorem readValue_hostWrite {s : State} {a : Nat} {l : Loc} (hidle : s.busy = false)
    (h4 : a % 4 = 0) (ha : a < 0x400000) (hloc : locateIn s a = l) (v : Word) :
    readValue (hostWrite s a 4 v) a 4 = readLoc (writeLoc s v l) l := by
  rw [hostWrite_eq_writeLoc hidle ((admitted_iff a 4).2 ⟨rfl, h4, ha⟩), hloc]
  exact readValue_of_locate (by rwa [writeLoc_busy]) h4 ha ((locateIn_writeLoc s v l a).trans hloc)

/-- FREQ holds the word (R20). -/
theorem readLoc_writeLoc_freq (s : State) (v : Word) (b : Nat) :
    readLoc (writeLoc s v (.freq b)) (.freq b) = v :=
  (freqAt_setFreq s b v b).trans (if_pos rfl)

/-- A node word holds its fields (R48). -/
theorem readLoc_writeLoc_node (s : State) (v : Word) (i : Nat) {w : Nat} (hw : w < 4) :
    readLoc (writeLoc s v (.node i w)) (.node i w) =
      v &&& [0xFF03#32, 0xFFFFFFFF#32, 0xFF#32, 0x07FFFFFF#32].getD w 0#32 := by
  rw [writeLoc, readLoc, setNode_node, Table.get_put, if_pos rfl, nodeWord_nodeSetWord _ _ hw]

/-- A code word holds CLEN or 32 code bits (R49). -/
theorem readLoc_writeLoc_code (s : State) (v : Word) (b : Nat) {w : Nat} (hw : w < 9) :
    readLoc (writeLoc s v (.code b w)) (.code b w) = if w = 0 then v &&& 0xFF#32 else v := by
  rw [writeLoc, readLoc, setCode_code, Table.get_put, if_pos rfl, codeWord_codeSetWord _ _ hw]

/-- An IBUF word holds the four bytes of the word written (R45). -/
theorem ibufByte_writeLoc (s : State) (v : Word) (w : Nat) {j : Nat} (hj : j < 4) :
    ibufByte (writeLoc s v (.ibuf w)) (4 * w + j) = byteLane v j := by
  rw [writeLoc, ibufByte_setIbufBytes, if_pos (by simp; omega), Nat.add_sub_cancel_left]
  interval_cases j <;> rfl

/-- An IBUF word reads back whole (R45). -/
theorem readLoc_writeLoc_ibuf (s : State) (v : Word) (w : Nat) :
    readLoc (writeLoc s v (.ibuf w)) (.ibuf w) = v := by
  have lane (j : Nat) (hj : j < 4) := ibufByte_writeLoc s v w hj
  rw [readLoc, lane 1 (by decide), lane 2 (by decide), lane 3 (by decide)]
  exact (congrArg (wordOfBytes · _ _ _) (lane 0 (by decide))).trans (wordOfBytes_byteLane v)

/-- Settles O50: a read after a write of the same location gives what the location stored. -/
theorem hostWritesReadBack : Obligations.HostWritesReadBack := by
  unfold Obligations.HostWritesReadBack
  intro s v hidle
  refine ⟨?inLen, ?nbits, ?root, fun b hb => ?freq, fun i w hi hw => ?node, fun b hb => ?clen,
    fun b m hb hm => ?codeBits, fun w hcap hlow => ?ibuf⟩
  case inLen => exact readValue_hostWrite hidle rfl (by decide) (l := .inLen) rfl v
  case nbits => exact readValue_hostWrite hidle rfl (by decide) (l := .nbits) rfl v
  case root =>
    exact (readValue_hostWrite hidle rfl (by decide) (l := .root) rfl v).trans
      (setWidth_nine_setWidth v)
  case freq =>
    rw [readValue_hostWrite hidle (by omega) (by omega) (locate_freq _ _ hb)]
    exact readLoc_writeLoc_freq s v b
  case node =>
    rw [readValue_hostWrite hidle (by omega) (by omega) (locate_node _ _ hi hw)]
    exact readLoc_writeLoc_node s v i hw
  case clen =>
    have hloc : locateIn s (0x4000 + 64 * b) = .code b 0 := locate_code _ _ hb (w := 0) (by decide)
    rw [readValue_hostWrite hidle (by omega) (by omega) hloc]
    exact readLoc_writeLoc_code s v b (by decide)
  case codeBits =>
    have hoff : 0x4000 + 64 * b + 4 + 4 * m = 0x4000 + 64 * b + 4 * (m + 1) := by omega
    rw [hoff, readValue_hostWrite hidle (by omega) (by omega) (locate_code _ _ hb (by omega)),
      readLoc_writeLoc_code s v b (by omega)]
    exact if_neg (Nat.succ_ne_zero m)
  case ibuf =>
    have hloc : locateIn s (0x100000 + 4 * w) = .ibuf w := locate_ibuf _ _ hcap hlow
    have hadm : admitted (0x100000 + 4 * w) 4 = true :=
      (admitted_iff _ 4).2 ⟨rfl, by omega, by omega⟩
    rw [readValue_hostWrite hidle (by omega) (by omega) hloc, hostWrite_eq_writeLoc hidle hadm, hloc]
    exact ⟨readLoc_writeLoc_ibuf s v w, fun j hj => ibufByte_writeLoc s v w hj⟩

end Sys2Proof.Machine
end

section
/-! The steps of the machine, by host action (R42 to R44, R57, R60, R215), the idle block (R206), and
LOAD (R70). -/

namespace Sys2Proof.Machine

/-! ### One step, one action -/

section
variable {s : State} {rest : List HostAction}

/-- A step performs the oldest action to come. -/
theorem step_perform {act : HostAction} (hs : s.script = act :: rest) :
    step s = perform act (s.awaiting rest) := by
  rw [step, advance, hs]
  rfl

/-- With no action to come the block is idle (R206). -/
theorem step_idle (hs : s.script = []) : step s = .next s := by
  rw [step, advance, hs]

/-- A location other than a reserved one is met at its own offset only (R41). -/
theorem offset_of_locateIn {a width : Nat} {l : Loc} (hadm : admitted a width = true)
    (hloc : locateIn s a = l) (hl : l ≠ .reserved) : l.offset = a := by
  obtain ⟨-, h4, -⟩ := (admitted_iff a width).1 hadm
  obtain hres | hoff := locate_offset s.icap.toNat s.ocap.toNat a h4
  · exact absurd (hloc.symm.trans hres) hl
  · rwa [← hloc]

/-- A write that is refused, that meets BUSY = 1 or that is not to CMD gives no command: it stores
what `hostWrite` stores (R43, R44, R57). -/
theorem perform_write_of_not_command {a width : Nat}
    (h : admitted a width = false ∨ s.busy = true ∨ a ≠ 0) (v : Word) :
    perform (.write a width v) s = .next (hostWrite s a width v) := by
  refine if_neg ?_
  simp only [Bool.and_eq_true, Bool.not_eq_true', decide_eq_true_eq]
  rintro ⟨⟨hadm, hidle⟩, hcmd⟩
  obtain h | h | h := h
  · rw [hadm] at h
    cases h
  · rw [hidle] at h
    cases h
  · exact h (offset_of_locateIn hadm hcmd Loc.noConfusion).symm

/-- A write of a word to CMD gives the command of this word (R60). -/
theorem perform_write_cmd (hidle : s.busy = false) (w : Word) :
    perform (.write 0x00 4 w) s = command w s := by
  refine if_pos ?_
  rw [hidle]
  rfl

/-- A host write differs from the state before in the writable locations at most (R43). -/
theorem hostWrite_frame (s : State) (a width : Nat) (v : Word) :
    hostWrite s a width v = { s with
      inLen := (hostWrite s a width v).inLen, nbits := (hostWrite s a width v).nbits,
      root := (hostWrite s a width v).root, freq := (hostWrite s a width v).freq,
      node := (hostWrite s a width v).node, code := (hostWrite s a width v).code,
      ibuf := (hostWrite s a width v).ibuf } := by
  unfold hostWrite
  split_ifs
  · exact writeLoc_frame s v _
  · rfl

/-- A read that is refused, or that meets BUSY = 1 anywhere but at STATUS, gives a free word (R44,
R57). -/
theorem readValue_free {a width : Nat}
    (h : admitted a width = false ∨ s.busy = true ∧ a ≠ 0x04) :
    readValue s a width = Config.freeWord s.draws := by
  cases hadm : admitted a width with
  | false => simp [readValue, hadm]
  | true =>
    obtain h | ⟨hbusy, ha⟩ := h
    · rw [hadm] at h
      cases h
    · have hloc : locateIn s a ≠ .status := fun hstatus =>
        ha (offset_of_locateIn hadm hstatus Loc.noConfusion).symm
      simp [readValue, hadm, hbusy, hloc]

end

/-- Settles O3: the step performs the write, which CMD takes as a command; with no action it does
nothing. -/
theorem stepRunsTheWrittenCommand : Obligations.StepRunsTheWrittenCommand := by
  unfold Obligations.StepRunsTheWrittenCommand
  intro s
  refine ⟨fun w rest hidle hs => ?_, step_idle⟩
  have hstep : step s = command w (s.awaiting rest) :=
    (step_perform hs).trans (perform_write_cmd (s := s.awaiting rest) hidle w)
  refine ⟨hstep, fun i hi => hstep.trans ?_⟩
  rw [command, hi]
  rfl

/-- Settles O46: a host read is one update of the model's own fields. -/
theorem hostReadChangesNoState : Obligations.HostReadChangesNoState := by
  unfold Obligations.HostReadChangesNoState
  intro s addr width rest hs
  exact ⟨_, step_perform hs, rfl⟩

/-- Settles O54: only an admitted write at offset 0 is a command, and every other write is one of
`hostWrite`, whose frame names the writable locations. -/
theorem hostWriteKeepsStatus : Obligations.HostWriteKeepsStatus := by
  unfold Obligations.HostWriteKeepsStatus
  intro s addr width v rest hs haddr
  exact ⟨_, (step_perform hs).trans (perform_write_of_not_command (.inr (.inr haddr)) v), rfl,
    hostWrite_frame (s.awaiting rest) addr width v⟩

/-- Settles O55: the three conditions are those under which an access is not admitted. -/
theorem refusedAccessesChangeNothing : Obligations.RefusedAccessesChangeNothing := by
  unfold Obligations.RefusedAccessesChangeNothing
  intro s addr width v rest hrefused
  have hadm : admitted addr width = false := by
    rw [← Bool.not_eq_true, admitted_iff]
    omega
  refine ⟨fun hs => ?_, fun hs => ?_⟩
  · rw [step_perform hs, perform_write_of_not_command (.inl hadm), hostWrite_refused (.inl hadm)]
    rfl
  · rw [step_perform hs, perform, hostRead, readValue_free (.inl hadm)]
    rfl

/-- Settles O56: with BUSY = 1 a write gives no command and stores nothing, and a read elsewhere than
at STATUS gives a free word. -/
theorem busyRefusesAccesses : Obligations.BusyRefusesAccesses := by
  unfold Obligations.BusyRefusesAccesses
  intro s addr width v rest hbusy
  have hbusy' : (s.awaiting rest).busy = true := hbusy
  refine ⟨fun hs => ?_, fun haddr hs => ?_⟩
  · rw [step_perform hs, perform_write_of_not_command (.inr (.inl hbusy')),
      hostWrite_refused (.inr hbusy')]
    rfl
  · rw [step_perform hs, perform, hostRead, readValue_free (.inr ⟨hbusy', haddr⟩)]
    rfl

/-- Settles O58: `hardReset` is RST's state with IBUF emptied and its free bytes renewed. -/
theorem hardResetIsRstButForIbuf : Obligations.HardResetIsRstButForIbuf := by
  unfold Obligations.HardResetIsRstButForIbuf
  intro s t rest hs hrst
  obtain rfl : softReset (s.awaiting rest) = t := Host.Outcome.next.inj hrst
  exact step_perform hs

/-- Settles O57: the reset state is a literal, whose memories list nothing. -/
theorem resetValues : Obligations.ResetValues := by
  unfold Obligations.ResetValues
  exact ⟨statusWord_softReset State.reset, rfl, rfl, rfl, rfl, rfl, rfl, rfl, rfl, rfl, rfl, rfl, rfl,
    rfl, fun _ => rfl, fun _ => rfl, fun _ => rfl⟩

/-- Settles O40: LOAD's run ends with its bytes as the input sequence. -/
theorem loadPlacesTheInput : Obligations.LoadPlacesTheInput := by
  unfold Obligations.LoadPlacesTheInput
  intro s bs rest hidle hcap hfit hs
  exact run_load hidle hcap hfit hs

end Sys2Proof.Machine
end

section
/-! The invariant (`Inv`): it holds after reset, and every host action keeps it; a command keeps it
whichever way it ends. -/

namespace Sys2Proof.Machine

/-- Settles O59: the reset state lists nothing and its registers are 0 or NIL. -/
theorem invHoldsAtReset : Obligations.InvHoldsAtReset := by
  unfold Obligations.InvHoldsAtReset
  constructor <;> decide

section
variable {s : State} (I : Inv s)
include I

/-! ### Host accesses -/

/-- The host's actions to come play no part in the invariant. -/
theorem Inv.awaiting (acts : List HostAction) : Inv (s.awaiting acts) := { I with }

/-- A host read keeps the invariant: it writes the model's own fields only. -/
theorem Inv.hostRead (a width : Nat) : Inv (hostRead s a width) := { I with }

/-- A block of bytes written inside IBUF keeps the invariant. -/
theorem Inv.setIbufBytes {k : Nat} {vs : List Byte} (hfit : k + vs.length ≤ s.icap.toNat) :
    Inv (setIbufBytes s k vs) := by
  obtain ⟨hwf, hbelow⟩ := setIbufBytes_wf s k vs _ hfit ⟨I.ibufWf, I.ibufBelow⟩
  rw [setIbufBytes_frame]
  exact { I with ibufWf := hwf, ibufBelow := hbelow }

/-- A write to a location inside its memory keeps the invariant. -/
theorem Inv.writeLoc {l : Loc} {o : Nat} (hl : l.fits s.icap.toNat o) (v : Word) :
    Inv (writeLoc s v l) := by
  cases l with
  | inLen | nbits | root => exact { I with }
  | freq b => exact { I with freqWf := setFreq_wf s v hl I.freqWf }
  | node i w => exact { I with nodeWf := setNode_wf s _ hl.1 I.nodeWf }
  | code b w => exact { I with codeWf := setCode_wf s _ hl.1 I.codeWf }
  | ibuf w =>
    obtain ⟨hw, -⟩ := hl
    have hcap := I.icapWf
    simp only [capWf, Bool.and_eq_true, beq_iff_eq] at hcap
    exact I.setIbufBytes (by simp only [List.length_cons, List.length_nil]; omega)
  | _ => exact I

/-- A host write keeps the invariant. -/
theorem Inv.hostWrite (a width : Nat) (v : Word) : Inv (hostWrite s a width v) := by
  unfold Machine.hostWrite
  split_ifs
  · exact I.writeLoc (locate_fits _ _ a) v
  · exact I

/-- RST keeps the invariant: but for IBUF and the capacities the state is the
reset state. -/
theorem Inv.softReset : Inv (softReset s) :=
  { invHoldsAtReset with
    icapWf := I.icapWf, ocapWf := I.ocapWf, ibufWf := I.ibufWf, ibufBelow := I.ibufBelow
    outLenLe := Nat.zero_le _ }

/-- A hardware reset keeps the invariant: IBUF lists nothing. -/
theorem Inv.hardReset : Inv (hardReset s) := { I.softReset with ibufWf := rfl, ibufBelow := rfl }

/-! ### How a command ends -/

/-- A fault keeps the invariant: it records one of the five causes, and discards the output whole or
not at all. -/
theorem Inv.raise (d : Discard) (f : Trap) : Inv (raise d f s) := by
  have hcause : causeCode f.cause ≠ 0#4 ∧ causeCode f.cause ≤ 5#4 := by
    cases f.cause <;> decide
  refine { I with
    notBusy := rfl, accRest := rfl, bitcntRest := rfl, curRest := rfl
    obufListed := ?_, outLenLe := ?_
    notDoneAndErr := fun h => Bool.noConfusion h.1
    errRecorded := ⟨fun _ => hcause.1, fun _ => rfl⟩
    errcodeLe := hcause.2
    noErrNoInfo := fun h => Bool.noConfusion h }
  · rw [raise_obuf, raise_outLen]
    split_ifs
    · exact I.obufListed
    · rfl
  · rw [raise_outLen]
    split_ifs
    · exact I.outLenLe
    · exact Nat.zero_le _

/-- Acceptance and completion alone keep the invariant when ERR = 0. -/
theorem Inv.complete_start (he : s.err = false) : Inv (complete (start s)) :=
  { I with notBusy := rfl, notDoneAndErr := fun h => Bool.noConfusion (he.symm.trans h.2) }

/-- A command keeps the invariant when its body's successes do. -/
theorem Inv.runCommand {t : State} {d : Discard} {body : State → Except Trap State}
    (hbody : ∀ u, body (start s) = .ok u → s.err = false → Inv (complete u))
    (h : runCommand d body s = .next t) : Inv t := by
  obtain ⟨-, rfl⟩ | ⟨he, u, hu, rfl⟩ | ⟨-, f, -, rfl⟩ := runCommand_cases h
  · exact I
  · exact hbody u hu he
  · exact I.raise d f

/-- An illegal word keeps the invariant. -/
theorem Inv.illegalCommand (w : Word) : Inv (illegalCommand w s) := by
  unfold Machine.illegalCommand
  split_ifs
  · exact I
  · exact I.raise _ _

end

/-! ### What the commands leave -/

/-- OBUF lists the indexes of the output sequence it holds (R27). -/
theorem Holds.listed {s : State} {vs : List Byte} (H : Holds s vs) :
    s.obuf.map Prod.fst = List.range s.outLen.toNat := by
  rw [H.cells, cellsFrom_keys, H.len, List.range_eq_range']

/-- The number of present bytes is at most 256 (R17). -/
theorem Built.nsym_le {s t : State} (B : Built s t) : t.nsym ≤ 256#9 := by
  rw [BitVec.le_def, B.nsym_toNat]
  exact presentBelow_length_le s 256

/-- BLD leaves no entry in the queue, or ROOT alone (R25, R100). -/
theorem Built.queue {s t : State} (B : Built s t) :
    t.heap.length = t.heapSize.toNat ∧ t.heapSize ≤ 1#9 := by
  by_cases h0 : (presentBelow s 256).length = 0
  · obtain ⟨-, -, hheap, hsize, -⟩ := B.none h0
    rw [hheap, hsize]
    exact ⟨rfl, by decide⟩
  · obtain ⟨hheap, hsize⟩ := B.heap h0
    rw [hheap, hsize]
    exact ⟨rfl, BitVec.le_refl _⟩

/-- EMPTY is set only when NSYM is 0 (R14). -/
theorem Built.nsym_of_empty {s t : State} (B : Built s t) (h : t.empty = true) : t.nsym = 0#9 := by
  rw [B.nsym, B.empty_iff.1 h]
  rfl

/-- SINGLE is set exactly when NSYM is 1 (R14). -/
theorem Built.single_iff_nsym {s t : State} (B : Built s t) :
    t.single = true ↔ t.nsym = 1#9 := by
  rw [B.single_iff, ← B.nsym_toNat, ← BitVec.toNat_inj]
  rfl

section
variable {s u : State} (J : Inv (complete (start s)))
include J

/-- OTI keeps the invariant: it copies no more bytes than IBUF holds. -/
theorem Inv.complete_oti (hu : otiBody (start s) = .ok u) : Inv (complete u) := by
  obtain ⟨hfit, e⟩ | ⟨-, e⟩ := otiBody_cases (start s) <;> rw [e] at hu <;> cases hu
  have hlen : 0 + (outputBytes (start s)).length ≤ s.icap.toNat := by
    rw [outputBytes, List.length_map, List.length_range, Nat.zero_add]
    exact hfit
  obtain ⟨hwf, hbelow⟩ := setIbufBytes_wf (start s) 0 _ _ hlen ⟨J.ibufWf, J.ibufBelow⟩
  rw [setIbufBytes_frame]
  exact { J with ibufWf := hwf, ibufBelow := hbelow }

/-- CNT keeps the invariant: it counts from an empty table. -/
theorem Inv.complete_cnt (hu : cntBody (start s) = .ok u) : Inv (complete u) := by
  obtain ⟨-, e⟩ | ⟨-, e⟩ := cntBody_cases (start s) <;> rw [e] at hu <;> cases hu
  have hwf := foldl_countByte_wf (inputBytes (start s)) { start s with freq := [] } rfl
  rw [foldl_countByte_frame]
  exact { J with freqWf := hwf }

/-- BLD keeps the invariant: the tree it builds is in canonical form and fits its registers. -/
theorem Inv.complete_bld (hu : bldBody (start s) = .ok u) : Inv (complete u) := by
  obtain ⟨v, e, B⟩ := bldBody_built (start s)
  obtain rfl : v = u := Except.ok.inj (e.symm.trans hu)
  have hnodes : v.nnodes.toNat = 2 * v.nsym.toNat - 1 := by rw [B.nnodes_toNat, B.nsym_toNat]
  obtain ⟨hlisted, hsmall⟩ := B.queue
  rw [B.complete_frame]
  exact { J with
    nodeWf := B.nodeWf, codeWf := B.codeWf, heapListed := hlisted, heapSmall := hsmall
    nsymLe := B.nsym_le, nnodesEq := hnodes, emptyNsym := B.nsym_of_empty
    singleNsym := B.single_iff_nsym }

/-- ENC keeps the invariant: its output fits OBUF and the bit buffer is at rest. -/
theorem Inv.complete_enc (hu : encBody (start s) = .ok u) : Inv (complete u) := by
  obtain ⟨-, F, hroom⟩ := encBody_flushed hu
  obtain ⟨vs, H, -, -⟩ := F.bytes
  have hle : u.outLen.toNat ≤ s.ocap.toNat := F.outLen_toNat.trans_le hroom
  rw [F.frame]
  exact { J with obufListed := H.listed, outLenLe := hle, accRest := rfl, bitcntRest := rfl }

/-- A decode keeps the invariant: its output fits OBUF and the cursor is at rest. -/
theorem Inv.complete_decoded (D : Decoded (start s) u) : Inv (complete u) := by
  obtain ⟨vs, H, hroom⟩ := D.output
  have hle : u.outLen.toNat ≤ s.ocap.toNat := H.len.trans_le hroom
  rw [D.frame]
  exact { J with obufListed := H.listed, outLenLe := hle, curRest := rfl }

end

section
variable {s t : State} (I : Inv s)
include I

/-- Every command keeps the invariant. -/
theorem Inv.exec {i : Instr} (h : exec i s = .next t) : Inv t := by
  cases i with
  | nop => exact I.runCommand (fun u hu he => by cases hu; exact I.complete_start he) h
  | rst =>
    obtain rfl := Host.Outcome.next.inj h
    exact I.softReset
  | clre =>
    obtain rfl := Host.Outcome.next.inj ((exec_clre s).symm.trans h)
    exact { I with
      notBusy := rfl, notDoneAndErr := fun h => Bool.noConfusion h.2
      errRecorded := ⟨fun h => Bool.noConfusion h, fun h => absurd rfl h⟩
      errcodeLe := Nat.zero_le _, noErrNoInfo := fun _ => ⟨rfl, rfl⟩ }
  | oti => exact I.runCommand (fun u hu he => (I.complete_start he).complete_oti hu) h
  | cnt => exact I.runCommand (fun u hu he => (I.complete_start he).complete_cnt hu) h
  | bld => exact I.runCommand (fun u hu he => (I.complete_start he).complete_bld hu) h
  | enc => exact I.runCommand (fun u hu he => (I.complete_start he).complete_enc hu) h
  | dec =>
    exact I.runCommand
      (fun u hu he => (I.complete_start he).complete_decoded (decBody_decoded hu)) h
  | decx =>
    exact I.runCommand
      (fun u hu he => (I.complete_start he).complete_decoded (decxBody_decoded hu)) h

/-- Every word written to CMD keeps the invariant. -/
theorem Inv.command {w : Word} (h : command w s = .next t) : Inv t := by
  rw [Machine.command] at h
  cases hw : decode w with
  | ok i =>
    rw [hw] at h
    exact I.exec h
  | error e =>
    rw [hw] at h
    obtain rfl := Host.Outcome.next.inj h
    exact I.illegalCommand w

/-- Every host action keeps the invariant. -/
theorem Inv.perform {act : HostAction} (h : perform act s = .next t) : Inv t := by
  cases act with
  | read a width =>
    obtain rfl := Host.Outcome.next.inj h
    exact I.hostRead a width
  | write a width v =>
    simp only [Machine.perform] at h
    split_ifs at h
    · exact I.command h
    · obtain rfl := Host.Outcome.next.inj h
      exact I.hostWrite a width v
  | hardReset =>
    obtain rfl := Host.Outcome.next.inj h
    exact I.hardReset

end

/-- Settles O60: a step performs one host action, or none. -/
theorem stepKeepsInv : Obligations.StepKeepsInv := by
  unfold Obligations.StepKeepsInv
  intro s t I h
  cases hs : s.script with
  | nil =>
    obtain rfl := Host.Outcome.next.inj ((step_idle hs).symm.trans h)
    exact I
  | cons act rest => exact (I.awaiting rest).perform ((step_perform hs).symm.trans h)

end Sys2Proof.Machine
end
